-- ==== Sys2Proof/Word.lean ====
section
/-! DEFINITION. The words of the SwiftGCM core: bytes of the buffers and windows, 32-bit bus words, 128-bit values
(00_scope.md R9, R10). -/

namespace Sys2Proof

/-- One byte of a buffer or byte window (00_scope.md R11). -/
abbrev Byte := BitVec 8

/-- One word of the host bus: data, byte offset, or 32-bit register (20_memory.md R70). -/
abbrev Word := BitVec 32

/-- A 128-bit value, the source's `WideInt128` (00_scope.md R10). -/
abbrev U128 := BitVec 128

end Sys2Proof
end

