-- ==== Sys2Proof/Syntax.lean ====
section
/-! DEFINITION. The commands of the SwiftGCM core, one constructor per row of spec/opcode_table.json (30_encoding.md R103),
and the one command format (R100). -/

namespace Sys2Proof

/-- The ten commands (R103). No command has an operand field: operands are implicit registers and buffers (R102). -/
inductive Instr where
  /-- INIT: construct a session (42_session.md R190). -/
  | init
  /-- ENCRYPT: authenticated encryption (42_session.md R196). -/
  | encrypt
  /-- DECRYPT: verify and decrypt (42_session.md R210). -/
  | decrypt
  /-- W_XOR (40_wideint.md R122). -/
  | wXor
  /-- W_AND (40_wideint.md R123). -/
  | wAnd
  /-- W_SHR1 (40_wideint.md R124). -/
  | wShr1
  /-- W_INC (40_wideint.md R126). -/
  | wInc
  /-- W_EQ (40_wideint.md R130). -/
  | wEq
  /-- GF_MUL (41_galois.md R160). -/
  | gfMul
  /-- GHASH (41_galois.md R162). -/
  | ghash
deriving DecidableEq, Repr

/-- The single command format `CMD32` (R100): `OPCODE` in bits 7:0, `MBZ` in bits 31:8. -/
structure Cmd32 where
  opcode : BitVec 8
  mbz    : BitVec 24
deriving DecidableEq, Repr

end Sys2Proof
end

