-- ==== Sys2Proof/WellFormed.lean ====
section
/-! DEFINITION. Which command words are legal (30_encoding.md R100, R104). -/

namespace Sys2Proof

/-- The ten opcode values of R103. -/
def legalOpcodes : List (BitVec 8) :=
  [0x01, 0x02, 0x03, 0x10, 0x11, 0x12, 0x13, 0x14, 0x20, 0x21]

/-- "A command word is legal if and only if `MBZ = 0` and `OPCODE` is one of the ten values of rule R103" (R100). -/
def Cmd32.wellFormed (c : Cmd32) : Bool :=
  c.mbz == 0 && legalOpcodes.contains c.opcode

/-- A command has no operand field (R102), so every command is well formed: nothing in it could be out of range. -/
def Instr.wellFormed (i : Instr) : Bool :=
  match i with
  | .init | .encrypt | .decrypt | .wXor | .wAnd | .wShr1 | .wInc | .wEq | .gfMul | .ghash => true

end Sys2Proof
end

