-- ==== Sys2Proof/Decode.lean ====
section
/-! DEFINITION. Decoding and encoding of command words (30_encoding.md R100, R103, R104, R106). The decoder is total on
every 32-bit word and rejects an illegal word by name. -/

namespace Sys2Proof

/-- Why a word is no command (R104). Both kinds complete with `IllegalCommand`; neither stops the machine. -/
inductive DecodeError where
  /-- `MBZ ≠ 0`. -/
  | mbzNonzero (mbz : BitVec 24)
  /-- `OPCODE` is none of the ten values of R103. -/
  | unassignedOpcode (opcode : BitVec 8)
deriving DecidableEq, Repr

/-- The fields of a command word (R100): `OPCODE = w[7:0]`, `MBZ = w[31:8]`. -/
def Cmd32.ofWord (w : Word) : Cmd32 :=
  { opcode := w.extractLsb' 0 8, mbz := w.extractLsb' 8 24 }

/-- The command word with these fields. -/
def Cmd32.toWord (c : Cmd32) : Word := c.mbz ++ c.opcode

/-- The opcode map of R103. -/
def instrOfOpcode (op : BitVec 8) : Option Instr :=
  match op with
  | 0x01#8 => some .init
  | 0x02#8 => some .encrypt
  | 0x03#8 => some .decrypt
  | 0x10#8 => some .wXor
  | 0x11#8 => some .wAnd
  | 0x12#8 => some .wShr1
  | 0x13#8 => some .wInc
  | 0x14#8 => some .wEq
  | 0x20#8 => some .gfMul
  | 0x21#8 => some .ghash
  | _ => none

/-- The command of a fielded word, or why there is none (R100, R104). -/
def decodeFields (c : Cmd32) : Except DecodeError Instr :=
  if c.mbz ≠ 0 then .error (.mbzNonzero c.mbz)
  else
    match instrOfOpcode c.opcode with
    | some i => .ok i
    | none => .error (.unassignedOpcode c.opcode)

/-- The command that a `COMMAND` write of `w` selects (R100, R106: exactly one word). -/
def decode (w : Word) : Except DecodeError Instr :=
  decodeFields (Cmd32.ofWord w)

/-- The command that `w` selects, without the reason for a rejection. -/
def decode? (w : Word) : Option Instr :=
  match decode w with
  | .ok i => some i
  | .error _ => none

/-- The opcode of a command (R103). -/
def Instr.opcode (i : Instr) : BitVec 8 :=
  match i with
  | .init => 0x01
  | .encrypt => 0x02
  | .decrypt => 0x03
  | .wXor => 0x10
  | .wAnd => 0x11
  | .wShr1 => 0x12
  | .wInc => 0x13
  | .wEq => 0x14
  | .gfMul => 0x20
  | .ghash => 0x21

/-- The command word of a command: its opcode with `MBZ = 0` (R100, R103). -/
def encode (i : Instr) : Word :=
  Cmd32.toWord { opcode := i.opcode, mbz := 0 }

/-- The command word of a table row: the low `nbits` bits of `w`, the bits above zero. A command is one 32-bit word (R106). -/
def tableWord (nbits w : Nat) : Word := BitVec.ofNat 32 (w % 2 ^ nbits)

/-- The instruction the decoder reads from a table row's word. A command word is the data of one bus write (R106), so no
byte order enters. -/
def decodeTableWord (nbits w : Nat) : Option Instr :=
  if nbits ≤ 32 then decode? (tableWord nbits w) else none

end Sys2Proof
end

