-- ==== Sys2Proof/Config.lean ====
section
/-! DEFINITION. The implementation parameters (00_scope.md R8): the buffer sizes, the multiplier form, and the external
cipher `E`. None has a value in the spec, and none gets one here. -/

namespace Sys2Proof

/-- The parameters that are hardware (R8). A size is given in blocks of 16 bytes, less one, so that the type holds every
legal size (a multiple of 16 from 16 to 2^30 - 16) and no other. -/
structure Params where
  /-- `MAX_AAD_BYTES / 16 - 1` (D6). -/
  aadUnits  : Fin 67108863
  /-- `MAX_DATA_BYTES / 16 - 1` (D6). -/
  dataUnits : Fin 67108863
  /-- `MULT_IMPL`: false = 0, bit-serial; true = 1, parallel (D26). No architectural effect. -/
  multImpl  : Bool
deriving DecidableEq, Repr, Inhabited

/-- `MAX_AAD_BYTES` (R8, D6). -/
def Params.maxAad (p : Params) : Nat := 16 * (p.aadUnits.val + 1)

/-- `MAX_DATA_BYTES` (R8, D6). -/
def Params.maxData (p : Params) : Nat := 16 * (p.dataUnits.val + 1)

/-- The parameters of this instance: each implementation decides (R8; X4, X5). DESIGN CHOICE, safe: no value is chosen
(assumption log 2). -/
opaque Config.params : Params

/-- The external cipher `E(kl, key, block)`, total and deterministic, opaque (R8, X3; 42_session.md R183). DESIGN CHOICE,
safe: nothing is known of its values (assumption log 3). -/
opaque Config.cipher (keylen : Nat) (key : List Byte) (block : U128) : U128

end Sys2Proof
end

