-- ==== Sys2Proof/Machine/State.lean ====
section
/-! DEFINITION. The state of the machine: the block's state of 10_state.md R20, item by item, and beside it the parameters
(00_scope.md R8), the provider agent (42_session.md R181, R183) and what stands outside: the moves to come and what the bus
answered. All of it is plain data. -/

namespace Sys2Proof.Machine

/-- `SESSION` (10_state.md R40). -/
inductive Session where
  /-- No engine exists. -/
  | none
  /-- The source's `Fresh`. -/
  | fresh
  /-- The source's `Used`. -/
  | used
deriving DecidableEq, Repr

/-- `PHASE`, the controller's position (10_state.md R45). -/
inductive Phase where
  | idle
  /-- `EXEC(cmd, k)`: the command word written to `COMMAND`, and how many provider responses the command has received. -/
  | exec (cmd : Word) (k : Nat)
deriving DecidableEq, Repr

/-- A request to the block-cipher provider (42_session.md R181): `key` is `SKEYB[0..31]`, `keylen` is `SKL`, and the 16 bytes
of the block are `SER128(block)`. -/
structure Request where
  key    : Vector Byte 32
  keylen : BitVec 6
  block  : U128
deriving DecidableEq, Repr

/-- The block's state, exactly the items of 10_state.md R20. `STATUS.SESSION` is the mirror of `session` (R33) and is computed. -/
structure HwState where
  /-- `CTRL.IRQ_EN` (R27). -/
  irqEn    : Bool
  /-- `STATUS.BUSY` (R29). -/
  busy     : Bool
  /-- `STATUS.DONE` (R30). -/
  done     : Bool
  /-- `STATUS.OUT_VALID` (R31). -/
  outValid : Bool
  /-- `STATUS.EQ` (R32). -/
  eq       : Bool
  /-- `STATUS.ERRCODE` (R34). -/
  errcode  : Byte
  /-- `CONFIG.KEY_LEN` (R26). -/
  keyLen   : Byte
  /-- `CONFIG.NONCE_LEN` (R26). -/
  nonceLen : Byte
  /-- `ERR_DETAIL` (R35). -/
  errDetail : Word
  /-- `AAD_LEN` (R36). -/
  aadLen   : Word
  /-- `DATA_LEN` (R36). -/
  dataLen  : Word
  /-- `OUT_LEN` (R37). -/
  outLen   : Word
  /-- `KEYB[0..31]` (R24). -/
  keyb     : Vector Byte 32
  /-- `NONCEB[0..11]` (R25). -/
  nonceb   : Vector Byte 12
  /-- `OPA` (R22). -/
  opa      : U128
  /-- `OPB` (R22). -/
  opb      : U128
  /-- `RES` (R23). -/
  res      : U128
  /-- The bytes of `AADBUF`, `DATABUF` and `OUTBUF` by core address (20_memory.md R80), in canonical form. -/
  mem      : List Host.Cell
  /-- `SESSION` (R40). -/
  session  : Session
  /-- `SKEYB[0..31]`, the session's key copy (R40). -/
  skeyb    : Vector Byte 32
  /-- `SKL`, the session's key length in bytes (R20, R40). -/
  skl      : BitVec 6
  /-- `CTR` (R41). -/
  ctr      : U128
  /-- `HSUB` (R42). -/
  hsub     : U128
  /-- `EKY0` (R42). -/
  eky0     : U128
  /-- `GACC` (R43). -/
  gacc     : U128
  /-- `PHASE` (R45). -/
  phase    : Phase
  /-- `PEND` (R46). -/
  pend     : Option Request
deriving DecidableEq, Repr

/-- One draw of the provider agent (42_session.md R183). The block of an `ok` is no draw: it is `E` of the request. -/
inductive Answer where
  | ok
  | err (code : Word)
deriving DecidableEq, Repr

/-- The arguments of `E(kl, key, block)` (00_scope.md R8). -/
structure CipherPoint where
  keylen : Nat
  key    : List Byte
  block  : U128
deriving DecidableEq, Repr

/-- The provider agent (42_session.md R181 to R183). -/
structure Provider where
  /-- Values of the parameter `E` that are given as data; elsewhere `E` is `Config.cipher` (assumption log 3). -/
  known   : List (CipherPoint × U128)
  /-- The draws to come, one per request; when none is left the provider is silent (R182; assumption log 4). -/
  answers : List Answer
  /-- The requests received so far, oldest first (R200; assumption log 11). -/
  seen    : List Request
deriving DecidableEq, Repr

/-- The response of one bus transaction (20_memory.md R71, R72). -/
inductive Resp where
  /-- `ok(d)` of a read. -/
  | data (d : Word)
  /-- `ok` of a write. -/
  | written
  /-- `buserr`. -/
  | busErr
deriving DecidableEq, Repr

/-- The faults there are: the host agent's bus errors (20_memory.md R71, R74; X10). A bus error is RECORDED in `Env.fault`
and the machine goes on, because it does not change the core (R74, R249): no step answers with one. Safe. -/
inductive Fault where
  /-- The host's transaction was not 4-byte aligned (R71, case 1). -/
  | misaligned (addr : Word)
  /-- The host's transaction was to an unmapped address (R71, case 2; R79). -/
  | unmapped (addr : Word)
  /-- The host's transaction was to a gated address while `BUSY = 1` (R71, case 3; 70_reset_and_hazards.md R280). -/
  | gated (addr : Word)
deriving DecidableEq, Repr

/-- The refusals there are. No arm of `exec` uses one: every command of the table has its meaning. -/
inductive Refusal where
  /-- Raised by an arm of `exec` whose instruction has no meaning yet; there is none. Safe. -/
  | notModelled (mnemonic : String)
deriving DecidableEq, Repr

/-- One move of an agent or of the reset input (20_memory.md R70; 70_reset_and_hazards.md R270; 10_state.md R45). -/
inductive Move where
  /-- The host's `BusRead(addr)`. -/
  | read (addr : Word)
  /-- The host's `BusWrite(addr, d)`. -/
  | write (addr : Word) (d : Word)
  /-- The reset input is asserted. -/
  | reset
  /-- The controller's turn. -/
  | core
deriving DecidableEq, Repr

/-- What stands outside the block. -/
structure Env where
  /-- The moves to come, first first; when none is left, every turn is the controller's (assumption log 5). -/
  moves : List Move
  /-- The response of the last bus transaction (R70; assumption log 11). -/
  resp  : Option Resp
  /-- The host agent's fault, "recorded and never cleared" (R74; assumption log 8). -/
  fault : Option Fault
deriving DecidableEq, Repr

/-- The state of the machine. -/
structure State where
  /-- The block's own state (10_state.md R20). -/
  hw   : HwState
  /-- The parameters of the instance (00_scope.md R8; assumption log 2). -/
  par  : Params
  /-- The block-cipher provider. -/
  prov : Provider
  /-- The host agent and the order of moves. -/
  env  : Env
deriving DecidableEq, Repr

/-- The block's state right after the reset event, which leaves the buffers as they are (10_state.md R20;
70_reset_and_hazards.md R270). -/
def HwState.atReset (mem : List Host.Cell) : HwState where
  irqEn := false
  busy := false
  done := false
  outValid := false
  eq := false
  errcode := 0
  keyLen := 0
  nonceLen := 0
  errDetail := 0
  aadLen := 0
  dataLen := 0
  outLen := 0
  keyb := Vector.replicate 32 0
  nonceb := Vector.replicate 12 0
  opa := 0
  opb := 0
  res := 0
  mem := mem
  session := .none
  skeyb := Vector.replicate 32 0
  skl := 0
  ctr := 0
  hsub := 0
  eky0 := 0
  gacc := 0
  phase := .idle
  pend := none

/-- The machine after power-on reset (70_reset_and_hazards.md R271). The buffers are unspecified there (20_memory.md R84);
DESIGN CHOICE: nothing is listed in them (assumption log 1). The parameters are the opaque ones, the provider has no draw and
nothing is to come from outside (assumption log 2, 3, 4, 5, 9). -/
def State.reset : State where
  hw := HwState.atReset []
  par := Config.params
  prov := { known := [], answers := [], seen := [] }
  env := { moves := [], resp := none, fault := none }

end Sys2Proof.Machine
end

