-- ==== Sys2Proof/Machine/Ops.lean ====
section
/-! DEFINITION. The operations every command shares: the buffer memory, completion of a command (the block's trap entry,
60_exceptions.md R245) and the two ways back from it (R248), the session operations, and the provider port
(42_session.md R181). -/

namespace Sys2Proof.Machine

/-! ### Buffer memory (20_memory.md R80, R83, R84) -/

/-- What an unlisted byte of a buffer reads as. The contents after power-on are unspecified (R84, X6). DESIGN CHOICE,
unsafe for runs from `State.reset` only (assumption log 1). -/
def Memory.unlisted : Byte := 0

/-- The byte at a core address. -/
def Memory.read : List Host.Cell → Nat → Byte
  | [], _ => Memory.unlisted
  | (a, b) :: rest, x => if a = x then b else Memory.read rest x

/-- Put a byte in front of a list whose addresses all lie above, unless it is what an unlisted byte reads as. -/
def Memory.put (x : Nat) (v : Byte) (rest : List Host.Cell) : List Host.Cell :=
  if v = Memory.unlisted then rest else (x, v) :: rest

/-- Store one byte; the list stays in canonical form. -/
def Memory.write : List Host.Cell → Nat → Byte → List Host.Cell
  | [], x, v => Memory.put x v []
  | (a, b) :: rest, x, v =>
    if x < a then Memory.put x v ((a, b) :: rest)
    else if x = a then Memory.put x v rest
    else (a, b) :: Memory.write rest x v

/-- The canonical form: addresses strictly rising, and no entry equal to what an unlisted byte reads as. -/
abbrev Memory.wf (m : List Host.Cell) : Prop :=
  m.Pairwise (fun c d => c.1 < d.1) ∧ ∀ c ∈ m, c.2 ≠ Memory.unlisted

/-- `MemRead(addr, n)` (00_scope.md R13; 20_memory.md R83). It never fails. -/
def memRead (m : List Host.Cell) (addr n : Nat) : List Byte :=
  (List.range n).map fun i => Memory.read m (addr + i)

/-- `MemWrite(addr, len(s), s)` (00_scope.md R13; 20_memory.md R83). It never fails. -/
def memWrite : List Host.Cell → Nat → List Byte → List Host.Cell
  | m, _, [] => m
  | m, addr, b :: rest => memWrite (Memory.write m addr b) (addr + 1) rest

/-- `AAD_BASE` (R83). -/
def aadBase : Nat := 0x40000000
/-- `DATA_BASE` (R83). -/
def dataBase : Nat := 0x80000000
/-- `OUT_BASE` (R83). -/
def outBase : Nat := 0xC0000000

/-! ### Completion: the block's trap entry, and the return from it -/

/-- The errors of 60_exceptions.md R240. -/
inductive ErrKind where
  | invalidKeySize
  | invalidNonceSize
  | invalidDataSize
  | instanceAlreadyUsed
  | blockCipherError
  | authTagValidation
  | noSession
  | lengthError
  | illegalCommand
deriving DecidableEq, Repr

/-- The error codes (R240). -/
def errorCode (e : ErrKind) : Byte :=
  match e with
  | .invalidKeySize => 0x01
  | .invalidNonceSize => 0x02
  | .invalidDataSize => 0x03
  | .instanceAlreadyUsed => 0x04
  | .blockCipherError => 0x05
  | .authTagValidation => 0x06
  | .noSession => 0x07
  | .lengthError => 0x08
  | .illegalCommand => 0x09

/-- `complete(code, detail)` (R245). -/
def HwState.complete (h : HwState) (code : Byte) (detail : Word) : HwState :=
  { h with errcode := code, errDetail := detail, busy := false, done := true, phase := .idle }

/-- `finish()`: completion with error code 0 (00_scope.md R13). -/
def HwState.finish (h : HwState) : HwState := h.complete 0 0

/-- `raise <Error>(info)`: completion with the error's code; `info` is 0 where the error has none (00_scope.md R13, R240). -/
def HwState.raise (h : HwState) (e : ErrKind) (info : Word) : HwState := h.complete (errorCode e) info

/-- The return from a completion by the host's W1C write of `DONE` (R248; 10_state.md R30). -/
def HwState.ackDone (h : HwState) : HwState := { h with done := false }

/-- The issue of a command word, within its `COMMAND` write (30_encoding.md R101, step 2); it too clears `DONE` (R248). -/
def HwState.issue (h : HwState) (w : Word) : HwState :=
  { h with busy := true, done := false, errcode := 0, errDetail := 0, phase := .exec w 0 }

/-! ### Results and the session -/

/-- `RES <- v` (10_state.md R23). -/
def HwState.setRes (h : HwState) (v : U128) : HwState := { h with res := v }

/-- `OUT_VALID <- 0; OUT_LEN <- 0` (42_session.md R190, R196, R210). -/
def HwState.hideOutput (h : HwState) : HwState := { h with outValid := false, outLen := 0 }

/-- `OUT_LEN <- len; OUT_VALID <- 1` (42_session.md R196, R210). -/
def HwState.showOutput (h : HwState) (len : Word) : HwState := { h with outValid := true, outLen := len }

/-- `CLEAR_SESSION()` (42_session.md R190). -/
def HwState.clearSession (h : HwState) : HwState :=
  { h with
    session := .none, skeyb := Vector.replicate 32 0, skl := 0,
    ctr := 0, hsub := 0, eky0 := 0, gacc := 0 }

/-- `SESSION <- USED; OUT_VALID <- 0; OUT_LEN <- 0` (42_session.md R196, R198, R210, R215). -/
def HwState.claimSession (h : HwState) : HwState := { h with session := .used }.hideOutput

/-- `MemWrite` into the buffers. -/
def HwState.store (h : HwState) (addr : Nat) (bytes : List Byte) : HwState :=
  { h with mem := memWrite h.mem addr bytes }

/-- How many provider responses the running command has received: the `k` of `EXEC(cmd, k)` (10_state.md R45). Where no
command runs it is 0 (assumption log 19). -/
def Phase.responses (p : Phase) : Nat :=
  match p with
  | .idle => 0
  | .exec _ k => k

/-- The position after one more response. -/
def Phase.next (p : Phase) : Phase :=
  match p with
  | .idle => .idle
  | .exec w k => .exec w (k + 1)

/-! ### State: the block changed, the rest kept -/

/-- Change the block's state and nothing else. -/
def State.onHw (s : State) (f : HwState → HwState) : State := { s with hw := f s.hw }

/-- The state once its next move has been taken off. -/
def State.popMove (s : State) : State := { s with env := { s.env with moves := s.env.moves.tail } }

/-! ### The provider port (42_session.md R181 to R184) -/

/-- The point at which `E` is asked by a request: `E(keylen, key[0 .. keylen], block)` (R183). -/
def Request.point (r : Request) : CipherPoint :=
  { keylen := r.keylen.toNat, key := r.key.toList.take r.keylen.toNat, block := r.block }

/-- The parameter `E`: the given values where there are any, else the opaque cipher (00_scope.md R8; assumption log 3). -/
def Provider.cipher (p : Provider) (x : CipherPoint) : U128 :=
  match p.known.lookup x with
  | some v => v
  | none => Config.cipher x.keylen x.key x.block

/-- The block that an `ok` response to this request carries (R183). -/
def Provider.value (p : Provider) (r : Request) : U128 := p.cipher r.point

/-- The request that `CipherReq(b)` sends (R181, step 1). -/
def HwState.request (h : HwState) (b : U128) : Request := { key := h.skeyb, keylen := h.skl, block := b }

/-- `CipherReq(b)`, step 1: send the request (R181; 10_state.md R46). -/
def State.sendRequest (s : State) (b : U128) : State :=
  { s with
    hw := { s.hw with pend := some (s.hw.request b) },
    prov := { s.prov with seen := s.prov.seen ++ [s.hw.request b] } }

/-- The block once a response has arrived: no request is outstanding and one more response is counted (R181, step 3;
10_state.md R45). -/
def HwState.received (h : HwState) : HwState := { h with pend := none, phase := h.phase.next }

/-- `CipherReq`, steps 2 and 3, for the outstanding request `r`: wait; on `ok` go on with the block, on `err(code)` raise
`BlockCipherError(code)` (R181, R182). `take k v h` is what the command does with block `v` when it had received `k` responses
before. -/
def State.awaitResponse (s : State) (r : Request) (take : Nat → U128 → HwState → HwState) : State :=
  match s.prov.answers with
  | [] => s
  | .ok :: rest =>
    { s with
      prov := { s.prov with answers := rest },
      hw := take s.hw.phase.responses (s.prov.value r) s.hw.received }
  | .err code :: rest =>
    { s with
      prov := { s.prov with answers := rest },
      hw := s.hw.received.raise .blockCipherError code }

end Sys2Proof.Machine
end

