-- ==== Sys2Proof/Machine/Operands.lean ====
section
/-! DEFINITION. Operand assembly: the marshalling of byte strings, words and 128-bit values (00_scope.md R12; 20_memory.md
R77, R78), and what the commands read from registers and buffers (30_encoding.md R105). -/

namespace Sys2Proof.Machine

/-! ### Bytes, words and 128-bit values -/

/-- `BE128(s)`: byte 0 is the most significant (R12). -/
def be128 (s : List Byte) : U128 :=
  s.foldl (fun acc b => (acc <<< 8) ||| b.setWidth 128) 0

/-- `SER128(v)`: byte k is `v[127-8k : 120-8k]`, for k = 0..15 (R12). -/
def ser128 (v : U128) : List Byte :=
  (List.range 16).map fun k => v.extractLsb' (120 - 8 * k) 8

/-- Byte i of a bus word in window order: byte 0 in bits 31:24 (R78). -/
def wordByte (d : Word) (i : Nat) : Byte := d.extractLsb' (24 - 8 * i) 8

/-- The bus word of four window bytes, the lowest-addressed the most significant (R78). -/
def wordOfBytes (b0 b1 b2 b3 : Byte) : Word := b0 ++ b1 ++ b2 ++ b3

/-- Byte i of a byte window; 0 outside it. -/
def windowByte {n : Nat} (v : Vector Byte n) (i : Nat) : Byte :=
  if h : i < n then v[i] else 0

/-- Word j of a byte window (R78). -/
def windowWord {n : Nat} (v : Vector Byte n) (j : Nat) : Word :=
  wordOfBytes (windowByte v (4 * j)) (windowByte v (4 * j + 1)) (windowByte v (4 * j + 2)) (windowByte v (4 * j + 3))

/-- The byte window with word j replaced (R78). -/
def setWindowWord {n : Nat} (v : Vector Byte n) (j : Nat) (d : Word) : Vector Byte n :=
  Vector.ofFn fun i => if i.val / 4 = j then wordByte d (i.val % 4) else v[i.val]

/-- Word j of a 128-bit register, bits `[127-32j : 96-32j]` (R77). -/
def quadWord (v : U128) (j : Fin 4) : Word := v.extractLsb' (96 - 32 * j.val) 32

/-- A 128-bit register with word j replaced and the other 96 bits kept (R77; 10_state.md R22). -/
def setQuadWord (v : U128) (j : Fin 4) (d : Word) : U128 :=
  let sh := 96 - 32 * j.val
  (v &&& ~~~((0xFFFFFFFF : U128) <<< sh)) ||| (d.setWidth 128 <<< sh)

/-- The word of four buffer bytes from a core address on (R78). -/
def memWord (m : List Host.Cell) (addr : Nat) : Word :=
  wordOfBytes (Memory.read m addr) (Memory.read m (addr + 1)) (Memory.read m (addr + 2)) (Memory.read m (addr + 3))

/-- The four bytes of a bus word in window order (R78). -/
def bytesOfWord (d : Word) : List Byte := [wordByte d 0, wordByte d 1, wordByte d 2, wordByte d 3]

/-! ### Operands of the commands (30_encoding.md R105) -/

/-- The session key copy that INIT takes: `KEYB[0 .. kl] ‖ zeros(32 - kl)` (42_session.md R190). -/
def HwState.keyCopy (h : HwState) (kl : Nat) : Vector Byte 32 :=
  Vector.ofFn fun i => if i.val < kl then h.keyb[i.val] else 0

/-- `counter0 = BE128(NONCEB[0 .. 12] ‖ 00 00 00 01)` (42_session.md R190, R191). -/
def HwState.counter0 (h : HwState) : U128 := be128 (h.nonceb.toList ++ [0, 0, 0, 1])

/-- The AAD: `MemRead(AAD_BASE, AAD_LEN)` (42_session.md R196, R210; 41_galois.md R162). -/
def HwState.aad (h : HwState) : List Byte := memRead h.mem aadBase h.aadLen.toNat

/-- The first n bytes of `DATABUF`: `MemRead(DATA_BASE, n)`. -/
def HwState.data (h : HwState) (n : Nat) : List Byte := memRead h.mem dataBase n

/-- The first n bytes of `OUTBUF`, which the running ENCRYPT has written itself: its local variable `c` (42_session.md R196).
DEDUCED: the spec gives the block no other place to hold it (assumption log 7). -/
def HwState.outBytes (h : HwState) (n : Nat) : List Byte := memRead h.mem outBase n

/-- The given tag of DECRYPT: `BE128(MemRead(DATA_BASE + n, 16))` (42_session.md R210, R211). -/
def HwState.givenTag (h : HwState) (n : Nat) : U128 := be128 (memRead h.mem (dataBase + n) 16)

/-- The length check of ENCRYPT, DECRYPT and GHASH fails (60_exceptions.md R241). -/
def State.lengthsTooLong (s : State) : Bool :=
  decide (s.par.maxAad < s.hw.aadLen.toNat) || decide (s.par.maxData < s.hw.dataLen.toNat)

/-- The keystream block count `m = floor(n / 16) + 1` of a message of n bytes (42_session.md R201). -/
def blockCount (n : Nat) : Nat := n / 16 + 1

end Sys2Proof.Machine
end

