-- ==== Sys2Proof/Machine/Flags.lean ====
section
/-! DEFINITION. The status word, the one condition flag, and the interrupt level (10_state.md R26 to R33;
60_exceptions.md R250). -/

namespace Sys2Proof.Machine

/-- One bit as a bus word. -/
def bitWord (b : Bool) (i : Nat) : Word := (BitVec.ofBool b).setWidth 32 <<< i

/-- The mirror value of `SESSION` (10_state.md R33): 0 = NONE, 1 = FRESH, 2 = USED. -/
def sessionCode (x : Session) : Word :=
  match x with
  | .none => 0
  | .fresh => 1
  | .used => 2

/-- The word that a read of `STATUS` returns (10_state.md R28); reserved bits read 0. -/
def HwState.statusWord (h : HwState) : Word :=
  bitWord h.busy 0 ||| bitWord h.done 1 ||| bitWord h.outValid 2 ||| bitWord h.eq 3
    ||| (sessionCode h.session <<< 4) ||| (h.errcode.setWidth 32 <<< 8)

/-- A host write to `STATUS`: bit 1 clears `DONE`, every other bit is ignored (10_state.md R28, R30). -/
def HwState.writeStatus (h : HwState) (d : Word) : HwState :=
  if d.getLsbD 1 then h.ackDone else h

/-- The word that a read of `CTRL` returns (10_state.md R27). -/
def HwState.ctrlWord (h : HwState) : Word := bitWord h.irqEn 0

/-- A host write to `CTRL`: bit 0 is `IRQ_EN`, reserved bits are ignored (10_state.md R27). -/
def HwState.writeCtrl (h : HwState) (d : Word) : HwState := { h with irqEn := d.getLsbD 0 }

/-- The word that a read of `CONFIG` returns (10_state.md R26). -/
def HwState.configWord (h : HwState) : Word := (0 : BitVec 16) ++ h.nonceLen ++ h.keyLen

/-- A host write to `CONFIG`: `KEY_LEN = d[7:0]`, `NONCE_LEN = d[15:8]`, reserved bits are ignored (10_state.md R26). -/
def HwState.writeConfig (h : HwState) (d : Word) : HwState :=
  { h with keyLen := d.extractLsb' 0 8, nonceLen := d.extractLsb' 8 8 }

/-- `HWCFG`: bit 0 is `MULT_IMPL`, bits 31:1 are 0 (10_state.md R38). -/
def hwcfgWord (p : Params) : Word := bitWord p.multImpl 0

/-- `ID` (10_state.md R38). -/
def idWord : Word := 0x47434D07

/-- `STATUS.EQ <- b` (10_state.md R32; 40_wideint.md R130). -/
def HwState.setEq (h : HwState) (b : Bool) : HwState := { h with eq := b }

/-- The interrupt output: `irq = CTRL.IRQ_EN and STATUS.DONE`, a level (60_exceptions.md R250). -/
def HwState.irq (h : HwState) : Bool := h.irqEn && h.done

end Sys2Proof.Machine
end

