-- ==== Sys2Proof/Machine/WideInt.lean ====
section
/-! DEFINITION. The WideInt128 unit (40_wideint.md). Each command is a pure function of `OPA`, or of `OPA` and `OPB`, and
cannot fail (R120, R121). -/

namespace Sys2Proof.Machine

/-- `SHR1(v) = v >> 1` on 128 bits (R124). -/
def shr1 (v : U128) : U128 := v >>> 1

/-- `INC128(v) = (v + 1) mod 2^128` (R126). -/
def inc128 (v : U128) : U128 := v + 1

/-- `EQ128(a, b)` (R129). -/
def eq128 (a b : U128) : Bool := decide (a = b)

/-- The completed command that wrote `v` to `RES`. -/
def State.resultRes (s : State) (v : U128) : State := s.onHw fun h => (h.setRes v).finish

/-- W_XOR: `RES <- OPA xor OPB; finish()` (R122). -/
def execWXor (s : State) : Host.Outcome State Fault Refusal :=
  .next (s.resultRes (s.hw.opa ^^^ s.hw.opb))

/-- W_AND: `RES <- OPA and OPB; finish()` (R123). -/
def execWAnd (s : State) : Host.Outcome State Fault Refusal :=
  .next (s.resultRes (s.hw.opa &&& s.hw.opb))

/-- W_SHR1: `RES <- SHR1(OPA); finish()` (R124). -/
def execWShr1 (s : State) : Host.Outcome State Fault Refusal :=
  .next (s.resultRes (shr1 s.hw.opa))

/-- W_INC: `RES <- INC128(OPA); finish()` (R126). -/
def execWInc (s : State) : Host.Outcome State Fault Refusal :=
  .next (s.resultRes (inc128 s.hw.opa))

/-- W_EQ: `STATUS.EQ <- EQ128(OPA, OPB); finish()` (R130). -/
def execWEq (s : State) : Host.Outcome State Fault Refusal :=
  .next (s.onHw fun h => (h.setEq (eq128 h.opa h.opb)).finish)

end Sys2Proof.Machine
end

