-- ==== Sys2Proof/Machine/Galois.lean ====
section
/-! DEFINITION. The GF(2^128) multiplier, padding and GHASH, and the commands GF_MUL and GHASH (41_galois.md). -/

namespace Sys2Proof.Machine

/-- `TOPBIT = 1 << 127` (00_scope.md R14). -/
def topbit : U128 := (1 : U128) <<< 127

/-- The reduction constant `R = 0xE1 << 120` (00_scope.md R14; 41_galois.md R151). -/
def gfR : U128 := (0xE1 : U128) <<< 120

/-- The shift and reduction of the running value, done in every round (R151). -/
def gfShift (v : U128) : U128 :=
  if v.getLsbD 0 then shr1 v ^^^ gfR else shr1 v

/-- One round of R151 on the accumulator `z`, the running value `v` and the mask `k`: the conditional XOR uses `v` before its
shift. -/
def gfRound (y : U128) (t : U128 × U128 × U128) : U128 × U128 × U128 :=
  (if y &&& t.2.2 ≠ 0 then t.1 ^^^ t.2.1 else t.1, gfShift t.2.1, shr1 t.2.2)

/-- A number of rounds. -/
def gfRounds : Nat → U128 → U128 × U128 × U128 → U128 × U128 × U128
  | 0, _, t => t
  | n + 1, y, t => gfRounds n y (gfRound y t)

/-- `GFMUL(x, y)`: 128 rounds from `z = 0`, `v = x`, `k = TOPBIT` (R151). The product is the same for both values of
`MULT_IMPL` (R159; assumption log 10). -/
def gfmul (x y : U128) : U128 := (gfRounds 128 y (0, x, topbit)).1

/-- `PAD(s)`: always 1 to 16 zero bytes (R154; 90_conflicts.md C1). -/
def pad (s : List Byte) : List Byte := s ++ List.replicate (16 - s.length % 16) 0

/-- Block i, from 0, of a byte string: `BE128(p[16i .. 16i+16])` (30_encoding.md R105). -/
def blockAt (p : List Byte) (i : Nat) : U128 := be128 ((p.drop (16 * i)).take 16)

/-- The blocks of a byte string in order. -/
def blocksOf (p : List Byte) : List U128 := (List.range (p.length / 16)).map (blockAt p)

/-- The length block `((8*len(a)) << 64) or (8*len(c))` (R156). -/
def lengthBlock (lenA lenC : Nat) : U128 := BitVec.ofNat 64 (8 * lenA) ++ BitVec.ofNat 64 (8 * lenC)

/-- The blocks that GHASH hashes: every AAD block, then every data block, then the length block (R156, R158). -/
def ghashBlocks (a c : List Byte) : List U128 :=
  blocksOf (pad a) ++ blocksOf (pad c) ++ [lengthBlock a.length c.length]

/-- Fold blocks into an accumulator: `x <- GFMUL(x xor blk, h)` for each (R156, R157). -/
def ghashFold (h : U128) (x : U128) (blocks : List U128) : U128 :=
  blocks.foldl (fun acc b => gfmul (acc ^^^ b) h) x

/-- `GHASH(h, a, c)` (R156). -/
def ghash (h : U128) (a c : List Byte) : U128 := ghashFold h 0 (ghashBlocks a c)

/-- The block with `GACC <- GHASH(h, a, c)` (R157; the folds of one command are one controller step, assumption log 10). -/
def HwState.hash (hw : HwState) (h : U128) (a c : List Byte) : HwState := { hw with gacc := ghash h a c }

/-- GF_MUL: `RES <- GFMUL(OPA, OPB); finish()` (R160). -/
def execGfMul (s : State) : Host.Outcome State Fault Refusal :=
  .next (s.resultRes (gfmul s.hw.opa s.hw.opb))

/-- `GACC <- GHASH(OPA, a, c)` of the AAD and data buffers (R162). -/
def HwState.hashData (h : HwState) : HwState := h.hash h.opa h.aad (h.data h.dataLen.toNat)

/-- `RES <- GACC` (R162). -/
def HwState.resFromGacc (h : HwState) : HwState := h.setRes h.gacc

/-- GHASH after its length check: `GACC <- GHASH(OPA, a, c); RES <- GACC; finish()` (R162). -/
def HwState.ghashCommand (h : HwState) : HwState := h.hashData.resFromGacc.finish

/-- GHASH (R162). -/
def execGhash (s : State) : Host.Outcome State Fault Refusal :=
  .next (if s.lengthsTooLong then s.onHw (fun h => h.raise .lengthError 0) else s.onHw HwState.ghashCommand)

end Sys2Proof.Machine
end

