-- ==== Sys2Proof/Machine/Session.lean ====
section
/-! DEFINITION. The counter-mode controller: INIT, ENCRYPT and DECRYPT (42_session.md). ENCRYPT and DECRYPT are not one step:
each call runs one controller step of the command, from the position `EXEC(cmd, k)` with or without an outstanding request
(10_state.md R45, R46; assumption log 6). -/

namespace Sys2Proof.Machine

/-- The legal key lengths (R190). -/
def legalKeyLen (kl : Byte) : Bool := kl == 16 || kl == 24 || kl == 32

/-- INIT once both length checks have passed: the new FRESH session (R190 to R192). -/
def HwState.newSession (h : HwState) : HwState :=
  { h with
    skeyb := h.keyCopy h.keyLen.toNat, skl := h.keyLen.setWidth 6,
    ctr := h.counter0, hsub := 0, eky0 := 0, gacc := 0, session := .fresh }

/-- INIT (R190): the output is hidden in every case; the key length is checked before the nonce length. -/
def HwState.initCommand (h : HwState) : HwState :=
  if legalKeyLen h.keyLen then
    if h.nonceLen = 12 then h.hideOutput.newSession.finish
    else h.hideOutput.clearSession.raise .invalidNonceSize 0
  else h.hideOutput.clearSession.raise .invalidKeySize 0

/-- INIT (R190 to R193). -/
def execInit (s : State) : Host.Outcome State Fault Refusal := .next (s.onHw HwState.initCommand)

/-- `CTR <- INC128(CTR)` and the request for the keystream block of the new counter (R196, R210). -/
def State.requestKeystream (s : State) : State :=
  (s.onHw fun h => { h with ctr := inc128 h.ctr }).sendRequest (inc128 s.hw.ctr)

/-- What an `ok` response does in ENCRYPT and in DECRYPT (R196, R210): response 1 is `HSUB`, response 2 is `EKY0`, response
i + 3 is the keystream block of message block i (from 0), whose first `min(16, n - 16 i)` XORed bytes go to `OUTBUF`.
`msg` is the message of n bytes. -/
def HwState.takeBlock (h : HwState) (msg : List Byte) (k : Nat) (v : U128) : HwState :=
  match k with
  | 0 => { h with hsub := v }
  | 1 => { h with eky0 := v }
  | i + 2 =>
    h.store (outBase + 16 * i)
      ((ser128 (blockAt (pad msg) i ^^^ v)).take (min 16 (msg.length - 16 * i)))

/-! ### ENCRYPT -/

/-- ENCRYPT from its start to its first request (R196, R198; 60_exceptions.md R243). -/
def State.encryptBegin (s : State) : State :=
  match s.hw.session with
  | .none => s.onHw fun h => h.raise .noSession 0
  | .used => s.onHw fun h => h.raise .instanceAlreadyUsed 0
  | .fresh =>
    if s.lengthsTooLong then s.onHw fun h => h.claimSession.raise .lengthError 0
    else (s.onHw HwState.claimSession).sendRequest 0

/-- `GACC <- GHASH(HSUB, a, c)` of the AAD and the ciphertext (R196). -/
def HwState.hashOutput (h : HwState) : HwState := h.hash h.hsub h.aad (h.outBytes h.dataLen.toNat)

/-- `T <- GACC xor EKY0; MemWrite(OUT_BASE + n, 16, SER128(T))` (R196, R197). -/
def HwState.storeTag (h : HwState) : HwState := h.store (outBase + h.dataLen.toNat) (ser128 (h.gacc ^^^ h.eky0))

/-- ENCRYPT after its last keystream block: the tag, the output and completion (R196, R197). -/
def HwState.encryptFinish (h : HwState) : HwState := (h.hashOutput.storeTag.showOutput (h.dataLen + 16)).finish

/-- ENCRYPT with no request outstanding, when k responses have come (R196, R200). -/
def State.encryptAdvance (s : State) (k : Nat) : State :=
  match k with
  | 0 => s.encryptBegin
  | 1 => s.sendRequest s.hw.ctr
  | i + 2 => if i < blockCount s.hw.dataLen.toNat then s.requestKeystream else s.onHw HwState.encryptFinish

/-- ENCRYPT: one controller step (R196). -/
def execEncrypt (s : State) : Host.Outcome State Fault Refusal :=
  .next <|
    match s.hw.pend with
    | some r => s.awaitResponse r fun k v h => h.takeBlock (h.data h.dataLen.toNat) k v
    | none => s.encryptAdvance s.hw.phase.responses

/-! ### DECRYPT -/

/-- The length of the ciphertext of DECRYPT: `n = DATA_LEN - 16` (R210; evaluated where `DATA_LEN >= 16` only,
40_wideint.md R131). -/
def HwState.cipherLen (h : HwState) : Nat := h.dataLen.toNat - 16

/-- `CT_DIFF(te, tg)`: every byte pair XORed, the results ORed; no early end (R214). -/
def ctDiff (te tg : U128) : Byte :=
  (List.zipWith (fun a b => a ^^^ b) (ser128 te) (ser128 tg)).foldl (fun d x => d ||| x) 0

/-- DECRYPT from its start to its first request (R210, R215; 60_exceptions.md R243). -/
def State.decryptBegin (s : State) : State :=
  match s.hw.session with
  | .none => s.onHw fun h => h.raise .noSession 0
  | .used => s.onHw fun h => h.raise .instanceAlreadyUsed 0
  | .fresh =>
    if s.lengthsTooLong then s.onHw fun h => h.claimSession.raise .lengthError 0
    else if s.hw.dataLen.toNat < 16 then s.onHw fun h => h.claimSession.raise .invalidDataSize 0
    else (s.onHw HwState.claimSession).sendRequest 0

/-- DECRYPT once `HSUB` and `EKY0` are there: the expected tag (R210). -/
def HwState.hashForTag (h : HwState) : HwState := h.hash h.hsub h.aad (h.data h.cipherLen)

/-- `CT_DIFF(te, tg)` of the expected tag `GACC xor EKY0` and the given tag (R210, R211, R214). -/
def HwState.tagDiff (h : HwState) : Byte := ctDiff (h.gacc ^^^ h.eky0) (h.givenTag h.cipherLen)

/-- DECRYPT's tag decision: fail closed, before any keystream request (R210, R212, R214). -/
def State.verifyTag (s : State) : State :=
  if s.hw.hashForTag.tagDiff ≠ 0 then (s.onHw HwState.hashForTag).onHw fun h => h.raise .authTagValidation 0
  else (s.onHw HwState.hashForTag).requestKeystream

/-- DECRYPT after its last keystream block (R210). -/
def HwState.decryptFinish (h : HwState) : HwState := (h.showOutput (h.dataLen - 16)).finish

/-- DECRYPT with no request outstanding, when k responses have come (R210, R200). The block count is at least 1, so the tag
decision at k = 2 is always followed by a keystream request or an end. -/
def State.decryptAdvance (s : State) (k : Nat) : State :=
  match k with
  | 0 => s.decryptBegin
  | 1 => s.sendRequest s.hw.ctr
  | 2 => s.verifyTag
  | i + 3 => if i + 1 < blockCount s.hw.cipherLen then s.requestKeystream else s.onHw HwState.decryptFinish

/-- DECRYPT: one controller step (R210). -/
def execDecrypt (s : State) : Host.Outcome State Fault Refusal :=
  .next <|
    match s.hw.pend with
    | some r => s.awaitResponse r fun k v h => h.takeBlock (h.data h.cipherLen) k v
    | none => s.decryptAdvance s.hw.phase.responses

end Sys2Proof.Machine
end

