-- ==== Sys2Proof/Machine/Bus.lean ====
section
/-! DEFINITION. The host bus port (20_memory.md R70 to R81), the BUSY gate (70_reset_and_hazards.md R280) and the reset input
(R270). -/

namespace Sys2Proof.Machine

/-- What a mapped address is: a register of R76 or a buffer word of R80, by its byte offset into the buffer. -/
inductive Loc where
  | id
  | ctrl
  | status
  | command
  | config
  | errDetail
  | aadLen
  | dataLen
  | outLen
  | maxAad
  | maxData
  | hwcfg
  | key (j : Fin 8)
  | nonce (j : Fin 3)
  | opa (j : Fin 4)
  | opb (j : Fin 4)
  | res (j : Fin 4)
  | aad (off : Nat)
  | data (off : Nat)
  | out (off : Nat)
deriving DecidableEq, Repr

/-- The register map (R76). Every offset not listed is no register. -/
def registerAt (addr : Nat) : Option Loc :=
  match addr with
  | 0x000 => some .id
  | 0x004 => some .ctrl
  | 0x008 => some .status
  | 0x00C => some .command
  | 0x010 => some .config
  | 0x014 => some .errDetail
  | 0x018 => some .aadLen
  | 0x01C => some .dataLen
  | 0x020 => some .outLen
  | 0x024 => some .maxAad
  | 0x028 => some .maxData
  | 0x02C => some .hwcfg
  | 0x040 => some (.key 0)
  | 0x044 => some (.key 1)
  | 0x048 => some (.key 2)
  | 0x04C => some (.key 3)
  | 0x050 => some (.key 4)
  | 0x054 => some (.key 5)
  | 0x058 => some (.key 6)
  | 0x05C => some (.key 7)
  | 0x060 => some (.nonce 0)
  | 0x064 => some (.nonce 1)
  | 0x068 => some (.nonce 2)
  | 0x080 => some (.opa 0)
  | 0x084 => some (.opa 1)
  | 0x088 => some (.opa 2)
  | 0x08C => some (.opa 3)
  | 0x090 => some (.opb 0)
  | 0x094 => some (.opb 1)
  | 0x098 => some (.opb 2)
  | 0x09C => some (.opb 3)
  | 0x0A0 => some (.res 0)
  | 0x0A4 => some (.res 1)
  | 0x0A8 => some (.res 2)
  | 0x0AC => some (.res 3)
  | _ => none

/-- The size of `OUTBUF` (R80). -/
def outSize (p : Params) : Nat := p.maxData + 16

/-- What an aligned address is, or nothing where it is unmapped (R79, R80). -/
def locate (p : Params) (addr : Nat) : Option Loc :=
  if addr < aadBase then registerAt addr
  else if addr < dataBase then
    if addr < aadBase + p.maxAad then some (.aad (addr - aadBase)) else none
  else if addr < outBase then
    if addr < dataBase + p.maxData then some (.data (addr - dataBase)) else none
  else if addr < outBase + outSize p then some (.out (addr - outBase)) else none

/-- The gated addresses (R280, R76). -/
def Loc.gated (l : Loc) : Bool :=
  match l with
  | .id | .ctrl | .status | .maxAad | .maxData | .hwcfg => false
  | .command | .config | .errDetail | .aadLen | .dataLen | .outLen => true
  | .key _ | .nonce _ | .opa _ | .opb _ | .res _ => true
  | .aad _ | .data _ | .out _ => true

/-- The three bus-error cases, checked in this order, or where the transaction goes (R71, R72). -/
def State.busCheck (s : State) (addr : Word) : Except Fault Loc :=
  if addr.toNat % 4 ≠ 0 then .error (.misaligned addr)
  else
    match locate s.par addr.toNat with
    | none => .error (.unmapped addr)
    | some l => if l.gated && s.hw.busy then .error (.gated addr) else .ok l

/-- The byte of `OUTBUF` at an offset as the host reads it (R81). -/
def HwState.outByte (h : HwState) (off : Nat) : Byte :=
  if h.outValid && decide (off < h.outLen.toNat) then Memory.read h.mem (outBase + off) else 0

/-- What a read returns (R71, R75 to R81). `COMMAND` and `KEYB` are write-only and read 0. -/
def State.readLoc (s : State) (l : Loc) : Word :=
  match l with
  | .id => idWord
  | .ctrl => s.hw.ctrlWord
  | .status => s.hw.statusWord
  | .command => 0
  | .config => s.hw.configWord
  | .errDetail => s.hw.errDetail
  | .aadLen => s.hw.aadLen
  | .dataLen => s.hw.dataLen
  | .outLen => s.hw.outLen
  | .maxAad => BitVec.ofNat 32 s.par.maxAad
  | .maxData => BitVec.ofNat 32 s.par.maxData
  | .hwcfg => hwcfgWord s.par
  | .key _ => 0
  | .nonce j => windowWord s.hw.nonceb j.val
  | .opa j => quadWord s.hw.opa j
  | .opb j => quadWord s.hw.opb j
  | .res j => quadWord s.hw.res j
  | .aad off => memWord s.hw.mem (aadBase + off)
  | .data off => memWord s.hw.mem (dataBase + off)
  | .out off => wordOfBytes (s.hw.outByte off) (s.hw.outByte (off + 1)) (s.hw.outByte (off + 2)) (s.hw.outByte (off + 3))

/-- What a write does (R72, R75 to R80). A write to a read-only register or to `OUTBUF` is accepted and ignored. -/
def HwState.writeLoc (h : HwState) (l : Loc) (d : Word) : HwState :=
  match l with
  | .id | .errDetail | .outLen | .maxAad | .maxData | .hwcfg => h
  | .res _ | .out _ => h
  | .ctrl => h.writeCtrl d
  | .status => h.writeStatus d
  | .command => h.issue d
  | .config => h.writeConfig d
  | .aadLen => { h with aadLen := d }
  | .dataLen => { h with dataLen := d }
  | .key j => { h with keyb := setWindowWord h.keyb j.val d }
  | .nonce j => { h with nonceb := setWindowWord h.nonceb j.val d }
  | .opa j => { h with opa := setQuadWord h.opa j d }
  | .opb j => { h with opb := setQuadWord h.opb j d }
  | .aad off => h.store (aadBase + off) (bytesOfWord d)
  | .data off => h.store (dataBase + off) (bytesOfWord d)

/-- Put a response on the bus. -/
def State.respond (s : State) (r : Resp) : State := { s with env := { s.env with resp := some r } }

/-- A bus error: the error response, and the host agent's fault, recorded and never cleared; the block's state is unchanged
(R74, R249; assumption log 8). -/
def State.busError (s : State) (f : Fault) : State :=
  { s with env := { s.env with resp := some .busErr, fault := s.env.fault.or (some f) } }

/-- `BusRead(addr)` (R71). A read changes no state of the block. -/
def State.busRead (s : State) (addr : Word) : State :=
  match s.busCheck addr with
  | .error f => s.busError f
  | .ok l => s.respond (.data (s.readLoc l))

/-- `BusWrite(addr, d)` (R72). -/
def State.busWrite (s : State) (addr d : Word) : State :=
  match s.busCheck addr with
  | .error f => s.busError f
  | .ok l => (s.onHw fun h => h.writeLoc l d).respond .written

/-- The reset event: one atomic event whatever the core is doing. Every register and internal item goes to its reset value, a
running command and an outstanding request are abandoned, the buffers are unchanged (R270). -/
def State.resetEvent (s : State) : State := s.onHw fun h => HwState.atReset h.mem

/-- A command word that is no command completes at once with `IllegalCommand` (30_encoding.md R101, R104). -/
def State.illegalCommand (s : State) : State := s.onHw fun h => h.raise .illegalCommand 0

end Sys2Proof.Machine
end

