-- ==== Sys2Proof/Machine/Dispatch.lean ====
section
/-! DEFINITION. One arm per command: `exec i s` is one controller step of command `i`. -/

namespace Sys2Proof.Machine

def exec (i : Instr) (s : State) : Host.Outcome State Fault Refusal :=
  match i with
  | .init => Sys2Proof.Machine.execInit s
  | .encrypt => Sys2Proof.Machine.execEncrypt s
  | .decrypt => Sys2Proof.Machine.execDecrypt s
  | .wXor => Sys2Proof.Machine.execWXor s
  | .wAnd => Sys2Proof.Machine.execWAnd s
  | .wShr1 => Sys2Proof.Machine.execWShr1 s
  | .wInc => Sys2Proof.Machine.execWInc s
  | .wEq => Sys2Proof.Machine.execWEq s
  | .gfMul => Sys2Proof.Machine.execGfMul s
  | .ghash => Sys2Proof.Machine.execGhash s

end Sys2Proof.Machine
end

