-- ==== Sys2Proof/Machine/Step.lean ====
section
/-! DEFINITION. One step of the machine: the next move is taken off the list and made. With no move left, the turn is the
controller's (assumption log 5). -/

namespace Sys2Proof.Machine

/-- The controller's turn. In IDLE it waits for a command (70_reset_and_hazards.md R271); in `EXEC(w, k)` it runs one step of
the command that `w` selects, or completes an illegal word (10_state.md R45; 30_encoding.md R101). -/
def coreTurn (s : State) : Host.Outcome State Fault Refusal :=
  match s.hw.phase with
  | .idle => .next s
  | .exec w _ =>
    match decode w with
    | .ok i => exec i s
    | .error _ => .next s.illegalCommand

/-- One step. -/
def step (s : State) : Host.Outcome State Fault Refusal :=
  match s.env.moves with
  | [] => coreTurn s
  | .core :: _ => coreTurn s.popMove
  | .read a :: _ => .next (s.popMove.busRead a)
  | .write a d :: _ => .next (s.popMove.busWrite a d)
  | .reset :: _ => .next s.popMove.resetEvent

/-- `s` with a table row's command word issued and the next turn the controller's, so that the next step runs it. The block
fetches no instructions (10_state.md R45, R47): its command is the word in `PHASE`, put there by the issue of
30_encoding.md R101 (assumption log 9). -/
def State.withFetchWord (s : State) (nbits w : Nat) : State :=
  { s with
    hw := { s.hw.issue (tableWord nbits w) with pend := none },
    env := { s.env with moves := .core :: s.env.moves } }

end Sys2Proof.Machine
end

