-- ==== Sys2Proof/Safety.lean ====
section
/-! DEFINITION. What claims about the machine are stated in: the invariant of every step, a completed command, the running
command, the provider's liveness, the correct host, and what the bus must not show. -/

namespace Sys2Proof.Machine

/-! ### The host and the provider -/

/-- The host has provoked no bus error so far (70_reset_and_hazards.md R281; 20_memory.md R74). -/
def State.hostCorrect (s : State) : Prop := s.env.fault = none

/-- `PROVIDER_LIVE` for the next n requests: the provider answers each (00_scope.md R8; 42_session.md R182). -/
def State.providerLive (s : State) (n : Nat) : Prop := n ≤ s.prov.answers.length

/-- The next n answers are all `ok`. -/
def State.providerOk (s : State) (n : Nat) : Prop :=
  s.providerLive n ∧ s.prov.answers.take n = List.replicate n .ok

/-! ### Commands running and completed -/

/-- Command `i` runs and has received k responses: `PHASE = EXEC(cmd, k)` (10_state.md R45). -/
def HwState.runs (h : HwState) (i : Instr) (k : Nat) : Prop :=
  ∃ w, h.phase = .exec w k ∧ decode w = .ok i

/-- Command `i` has been issued and has not acted yet. -/
def State.issued (s : State) (i : Instr) : Prop := s.hw.runs i 0 ∧ s.hw.pend = none

/-- The state once a command has ended with this code and detail, its own writes having made the block `h`: what
60_exceptions.md R245 writes, and nothing else. -/
def State.completedAs (s : State) (h : HwState) (code : Byte) (detail : Word) : State :=
  { s with hw := { h with errcode := code, errDetail := detail, busy := false, done := true, phase := .idle } }

/-- The state once `CipherReq(b)` has sent its request, the block being `h` (42_session.md R181, step 1). -/
def State.requested (s : State) (h : HwState) (b : U128) : State :=
  { s with
    hw := { h with pend := some { key := h.skeyb, keylen := h.skl, block := b } },
    prov := { s.prov with seen := s.prov.seen ++ [{ key := h.skeyb, keylen := h.skl, block := b }] } }

/-- The block of a `FRESH` session that ENCRYPT or DECRYPT has marked `USED` (42_session.md R196, R210). -/
def HwState.claimed (h : HwState) : HwState := { h with session := .used, outValid := false, outLen := 0 }

/-- `E` of the session's key at a block (42_session.md R183). -/
def State.sessionCipher (s : State) (b : U128) : U128 := s.prov.value (s.hw.request b)

/-- Both lengths are within their buffers (60_exceptions.md R241). -/
def State.lengthsFit (s : State) : Prop :=
  s.hw.aadLen.toNat ≤ s.par.maxAad ∧ s.hw.dataLen.toNat ≤ s.par.maxData

/-- The message length of ENCRYPT or DECRYPT (42_session.md R196, R210). -/
def HwState.messageLen (h : HwState) (i : Instr) : Nat :=
  if i = .decrypt then h.cipherLen else h.dataLen.toNat

/-- The counter a number of increments after `c` (42_session.md R200). -/
def counterAfter (c : U128) (n : Nat) : U128 := c + BitVec.ofNat 128 n

/-- The request blocks of a successful ENCRYPT or DECRYPT with m keystream blocks, in order (42_session.md R200). -/
def requestBlocks (c0 : U128) (m : Nat) : List U128 :=
  0 :: (List.range (m + 1)).map (counterAfter c0)

/-! ### Whole commands -/

/-- The keystream block of message block i, from 0: `E(key, INC128^(i+1)(c0))` (42_session.md R202, R213). -/
def State.keystream (s : State) (i : Nat) : U128 := s.sessionCipher (counterAfter s.hw.ctr (i + 1))

/-- Byte j of the keystream (42_session.md R197, R213). -/
def State.keystreamByte (s : State) (j : Nat) : Byte := (ser128 (s.keystream (j / 16))).getD (j % 16) 0

/-- The hash subkey H of the session: `E(key, 0^128)` (10_state.md R42). -/
def State.subkey (s : State) : U128 := s.sessionCipher 0

/-- The tag mask Eky0 of the session whose counter is still `counter0`: `E(key, counter0)` (10_state.md R42). -/
def State.tagMask (s : State) : U128 := s.sessionCipher s.hw.ctr

/-- The tag of a ciphertext under the session at its start: `GHASH(H, a, c) xor Eky0` (42_session.md R196, R210). -/
def State.tagOf (s : State) (c : List Byte) : U128 := ghash s.subkey s.hw.aad c ^^^ s.tagMask

/-- ENCRYPT or DECRYPT `i`, with a message of n bytes, is issued in a FRESH session, the lengths fit, the buffer memory is
canonical. -/
structure State.ReadyFor (s : State) (i : Instr) (n : Nat) : Prop where
  issued    : s.issued i
  fresh     : s.hw.session = .fresh
  lengths   : s.lengthsFit
  short     : i = .decrypt → 16 ≤ s.hw.dataLen.toNat
  message   : n = s.hw.messageLen i
  canonical : Memory.wf s.hw.mem

/-- What ENCRYPT or DECRYPT leaves alone in every outcome (30_encoding.md R102), but for what the host may change meanwhile:
between start `s` and end `t`. -/
structure CommandFrame (s t : State) : Prop where
  eq       : t.hw.eq = s.hw.eq
  keyLen   : t.hw.keyLen = s.hw.keyLen
  nonceLen : t.hw.nonceLen = s.hw.nonceLen
  aadLen   : t.hw.aadLen = s.hw.aadLen
  dataLen  : t.hw.dataLen = s.hw.dataLen
  keyb     : t.hw.keyb = s.hw.keyb
  nonceb   : t.hw.nonceb = s.hw.nonceb
  opa      : t.hw.opa = s.hw.opa
  opb      : t.hw.opb = s.hw.opb
  res      : t.hw.res = s.hw.res
  skeyb    : t.hw.skeyb = s.hw.skeyb
  skl      : t.hw.skl = s.hw.skl
  par      : t.par = s.par
  known    : t.prov.known = s.prov.known

/-- What one controller step of ENCRYPT or DECRYPT leaves alone (30_encoding.md R102): `CTRL` and the outside too. -/
structure SessionFrame (s t : State) : Prop extends CommandFrame s t where
  irqEn : t.hw.irqEn = s.hw.irqEn
  env   : t.env = s.env

/-- The command has ended with this code and detail, and left the session USED with no request outstanding
(60_exceptions.md R245; 42_session.md R198, R215). -/
structure EndedUsed (t : State) (code : Byte) (detail : Word) : Prop where
  busy      : t.hw.busy = false
  done      : t.hw.done = true
  phase     : t.hw.phase = .idle
  pend      : t.hw.pend = none
  errcode   : t.hw.errcode = code
  errDetail : t.hw.errDetail = detail
  session   : t.hw.session = .used

/-- A whole successful ENCRYPT from `s` to `t`, of n bytes (42_session.md R196, R197, R200). -/
structure EncryptResult (s t : State) (n : Nat) : Prop where
  ended      : EndedUsed t 0 0
  frame      : CommandFrame s t
  outValid   : t.hw.outValid = true
  outLen     : t.hw.outLen.toNat = n + 16
  ciphertext : ∀ j, j < n → Memory.read t.hw.mem (outBase + j) = Memory.read s.hw.mem (dataBase + j) ^^^ s.keystreamByte j
  tag        : memRead t.hw.mem (outBase + n) 16 = ser128 (s.tagOf (memRead t.hw.mem outBase n))
  otherBytes : ∀ a, a < outBase ∨ outBase + n + 16 ≤ a → Memory.read t.hw.mem a = Memory.read s.hw.mem a
  canonical  : Memory.wf t.hw.mem
  hsub       : t.hw.hsub = s.subkey
  eky0       : t.hw.eky0 = s.tagMask
  ctr        : t.hw.ctr = counterAfter s.hw.ctr (blockCount n)
  requests   : t.prov.seen = s.prov.seen ++ (requestBlocks s.hw.ctr (blockCount n)).map s.hw.request
  answers    : t.prov.answers = s.prov.answers.drop (blockCount n + 2)

/-- A whole successful DECRYPT from `s` to `t`, of a ciphertext of n bytes (42_session.md R210, R213, R200). -/
structure DecryptResult (s t : State) (n : Nat) : Prop where
  ended      : EndedUsed t 0 0
  frame      : CommandFrame s t
  outValid   : t.hw.outValid = true
  outLen     : t.hw.outLen.toNat = n
  plaintext  : ∀ j, j < n → Memory.read t.hw.mem (outBase + j) = Memory.read s.hw.mem (dataBase + j) ^^^ s.keystreamByte j
  otherBytes : ∀ a, a < outBase ∨ outBase + n ≤ a → Memory.read t.hw.mem a = Memory.read s.hw.mem a
  canonical  : Memory.wf t.hw.mem
  hsub       : t.hw.hsub = s.subkey
  eky0       : t.hw.eky0 = s.tagMask
  ctr        : t.hw.ctr = counterAfter s.hw.ctr (blockCount n)
  requests   : t.prov.seen = s.prov.seen ++ (requestBlocks s.hw.ctr (blockCount n)).map s.hw.request
  answers    : t.prov.answers = s.prov.answers.drop (blockCount n + 2)

/-- A DECRYPT from `s` to `t` that ended with `AuthTagValidation`: no keystream request, no output (42_session.md R212,
R200, R215). -/
structure TagRejected (s t : State) : Prop where
  ended    : EndedUsed t 6 0
  frame    : CommandFrame s t
  outValid : t.hw.outValid = false
  outLen   : t.hw.outLen = 0
  mem      : t.hw.mem = s.hw.mem
  ctr      : t.hw.ctr = s.hw.ctr
  requests : t.prov.seen = s.prov.seen ++ [s.hw.request 0, s.hw.request s.hw.ctr]

/-- An ENCRYPT or DECRYPT from `s` to `t` whose request number j + 1 the provider failed with `code`: the first j + 1
requests and nothing after, no output (42_session.md R198, R200, R215). -/
structure ProviderFailed (s t : State) (n j : Nat) (code : Word) : Prop where
  ended    : EndedUsed t 5 code
  frame    : CommandFrame s t
  outValid : t.hw.outValid = false
  outLen   : t.hw.outLen = 0
  ctr      : t.hw.ctr = counterAfter s.hw.ctr (j - 1)
  requests : t.prov.seen = s.prov.seen ++ ((requestBlocks s.hw.ctr (blockCount n)).take (j + 1)).map s.hw.request
  otherBytes : ∀ a, a < outBase ∨ outBase + n ≤ a → Memory.read t.hw.mem a = Memory.read s.hw.mem a

/-- Two blocks hold the same session: its key, its key length, its counter and its state (10_state.md R40, R41). -/
structure SameSession (g h : HwState) : Prop where
  skeyb   : g.skeyb = h.skeyb
  skl     : g.skl = h.skl
  ctr     : g.ctr = h.ctr
  session : g.session = h.session

/-- ENCRYPT or DECRYPT. -/
abbrev sessionOperation (i : Instr) : Prop := i = .encrypt ∨ i = .decrypt

/-- The bytes of `OUTBUF` that one controller step of ENCRYPT or DECRYPT `i` stores to, as address and length
(42_session.md R196, R210). -/
def State.storesTo (s : State) (i : Instr) : Nat × Nat :=
  let n := s.hw.messageLen i
  match s.hw.pend, s.prov.answers, s.hw.phase.responses with
  | some _, .ok :: _, j + 2 => (outBase + 16 * j, min 16 (n - 16 * j))
  | none, _, k => if i = .encrypt ∧ blockCount n + 2 ≤ k then (outBase + n, 16) else (outBase, 0)
  | _, _, _ => (outBase, 0)

/-! ### Addresses -/

/-- An address is a byte of a mapped buffer (20_memory.md R80). -/
def inBuffer (p : Params) (a : Nat) : Prop :=
  (aadBase ≤ a ∧ a < aadBase + p.maxAad) ∨ (dataBase ≤ a ∧ a < dataBase + p.maxData) ∨
    (outBase ≤ a ∧ a < outBase + outSize p)

/-- An aligned offset is one of a register of the map (20_memory.md R76). -/
def registerOffset (a : Nat) : Prop := a ≤ 0x02C ∨ (0x040 ≤ a ∧ a ≤ 0x068) ∨ (0x080 ≤ a ∧ a ≤ 0x0AC)

/-- An aligned offset is mapped (20_memory.md R79). -/
def mappedOffset (p : Params) (a : Nat) : Prop := registerOffset a ∨ inBuffer p a

/-- The mapped offsets that are not gated: `ID`, `CTRL`, `STATUS`, `MAX_AAD`, `MAX_DATA`, `HWCFG`
(70_reset_and_hazards.md R280). -/
def ungatedOffset (a : Nat) : Prop :=
  a = 0x000 ∨ a = 0x004 ∨ a = 0x008 ∨ a = 0x024 ∨ a = 0x028 ∨ a = 0x02C

/-- The bus errors in the order they are checked; nothing where the transaction is accepted (20_memory.md R71, R72). -/
def State.busFault (s : State) (a : Word) (f : Fault) : Prop :=
  (a.toNat % 4 ≠ 0 ∧ f = .misaligned a) ∨
  (a.toNat % 4 = 0 ∧ ¬ mappedOffset s.par a.toNat ∧ f = .unmapped a) ∨
  (a.toNat % 4 = 0 ∧ mappedOffset s.par a.toNat ∧ ¬ ungatedOffset a.toNat ∧ s.hw.busy = true ∧ f = .gated a)

/-- A transaction to this address is accepted (20_memory.md R71, R72). -/
def State.accepts (s : State) (a : Word) : Prop :=
  a.toNat % 4 = 0 ∧ mappedOffset s.par a.toNat ∧ (ungatedOffset a.toNat ∨ s.hw.busy = false)

/-- The response of a host read at a byte offset. -/
def State.readResp (s : State) (a : Nat) : Option Resp := (s.busRead (BitVec.ofNat 32 a)).env.resp

/-- The state after a host write at a byte offset. -/
def State.afterWrite (s : State) (a : Nat) (d : Word) : State := s.busWrite (BitVec.ofNat 32 a) d

/-- An offset into `OUTBUF` may be read (20_memory.md R81). -/
def HwState.readable (h : HwState) (off : Nat) : Prop := h.outValid = true ∧ off < h.outLen.toNat

/-! ### A host that waits -/

/-- A move that may stand between the steps of a running command without a bus error: the controller's turn, or a host
transaction at an address that is not gated (70_reset_and_hazards.md R280, R281). The polls of `wait` are such
(30_encoding.md R108). -/
def Move.whileBusy : Move → Prop
  | .core => True
  | .read a => ungatedOffset a.toNat
  | .write a _ => ungatedOffset a.toNat
  | .reset => False

/-- The controller's turns among the first N moves; past the end of the list every turn is one (assumption log 5). -/
def coreTurnsIn (ms : List Move) (N : Nat) : Nat := (ms.take N).count .core + (N - ms.length)

/-- Of the next N moves, `c` are the controller's turns, the last of them among these, and the others are host transactions at
addresses that are not gated. -/
structure State.Waits (s : State) (N c : Nat) : Prop where
  moves : ∀ m ∈ s.env.moves.take N, m.whileBusy
  turns : coreTurnsIn s.env.moves N = c
  last  : coreTurnsIn s.env.moves (N - 1) < c

/-- `CTRL.IRQ_EN` after a move, where it was `b` before (10_state.md R27). -/
def irqEnAfter (b : Bool) : Move → Bool
  | .write a d => if a = 0x004 then d.getLsbD 0 else b
  | .core | .read _ | .reset => b

/-- What N such moves have made of the outside, and of the one register that the host may write meanwhile. -/
structure HostWaited (s t : State) (N : Nat) : Prop where
  moves : t.env.moves = s.env.moves.drop N
  fault : t.env.fault = s.env.fault
  resp  : (∀ m ∈ s.env.moves.take N, m = .core) → t.env.resp = s.env.resp
  irqEn : t.hw.irqEn = (s.env.moves.take N).foldl irqEnAfter s.hw.irqEn

/-! ### Secrecy -/

/-- The state with everything blanked that no bus address reads: `SKEYB`, `SKL`, `CTR`, `HSUB`, `EKY0`, `GACC`, `PHASE`,
`PEND` (10_state.md R44), the write-only `KEYB` (R24), and the provider. -/
def State.blankSecrets (s : State) : State :=
  { s with
    hw := { s.hw with
      keyb := Vector.replicate 32 0, skeyb := Vector.replicate 32 0, skl := 0, ctr := 0, hsub := 0, eky0 := 0,
      gacc := 0, phase := .idle, pend := none },
    prov := { known := [], answers := [], seen := [] } }

/-! ### The invariant -/

/-- How often the running ENCRYPT or DECRYPT has incremented `CTR`, at position k with or without a request out. -/
def incrementsMade (k : Nat) (waiting : Bool) : Nat := if waiting then k - 1 else k - 2

/-- What holds of every step's next state if it holds before. Each field is a whole-machine rule of the spec. -/
structure State.Inv (s : State) : Prop where
  /-- The buffer bytes are in canonical form. -/
  memCanonical : Memory.wf s.hw.mem
  /-- Only mapped buffer bytes are listed (20_memory.md R80, R82). -/
  memMapped : ∀ c ∈ s.hw.mem, inBuffer s.par c.1
  /-- "`PHASE = IDLE` exactly when `STATUS.BUSY = 0`" (10_state.md R45). -/
  busyIffRunning : s.hw.busy = true ↔ s.hw.phase ≠ .idle
  /-- `DONE = 1` means that nothing has been issued since the completion (10_state.md R30). -/
  doneNotBusy : s.hw.done = true → s.hw.busy = false
  /-- "No other code is ever written" (60_exceptions.md R240). -/
  errcodeKnown : s.hw.errcode.toNat ≤ 9
  /-- Issue clears `ERRCODE` and `ERR_DETAIL`, and completion writes them (10_state.md R34, R35). -/
  errcodeRunning : s.hw.busy = true → s.hw.errcode = 0 ∧ s.hw.errDetail = 0
  /-- `ERR_DETAIL` is 0 but after `BlockCipherError` (10_state.md R35). -/
  errDetailOnly : s.hw.errDetail ≠ 0 → s.hw.errcode = 5
  /-- `SKL` has a value in {0, 16, 24, 32} (10_state.md R20). -/
  sklLegal : s.hw.skl = 0 ∨ s.hw.skl = 16 ∨ s.hw.skl = 24 ∨ s.hw.skl = 32
  /-- "Key bytes past `SKL` are 0" (42_session.md R181). -/
  keyPadding : ∀ i, s.hw.skl.toNat ≤ i → windowByte s.hw.skeyb i = 0
  /-- Where there is no session, the session registers are cleared (42_session.md R192; 70_reset_and_hazards.md R270). -/
  noSession : s.hw.session = .none →
    s.hw.skeyb = Vector.replicate 32 0 ∧ s.hw.skl = 0 ∧ s.hw.ctr = 0 ∧ s.hw.hsub = 0 ∧ s.hw.eky0 = 0
  /-- A session has a key. -/
  sessionKey : s.hw.session ≠ .none → s.hw.skl ≠ 0
  /-- In FRESH, `CTR[31:0] = 1` as in every `counter0` (10_state.md R41; 42_session.md R191), and `HSUB` and `EKY0` are clear. -/
  freshSession : s.hw.session = .fresh →
    s.hw.ctr.extractLsb' 0 32 = 1 ∧ s.hw.hsub = 0 ∧ s.hw.eky0 = 0
  /-- In USED, `CTR[31:0]` is between 1 and `1 + 2^26` (42_session.md R203). -/
  usedCounter : s.hw.session = .used →
    1 ≤ (s.hw.ctr.extractLsb' 0 32).toNat ∧ (s.hw.ctr.extractLsb' 0 32).toNat ≤ 1 + 2 ^ 26
  /-- Hidden output has length 0 (10_state.md R31, R37). -/
  hiddenOutput : s.hw.outValid = false → s.hw.outLen = 0
  /-- Only ENCRYPT and DECRYPT show output, and both leave USED (10_state.md R31; 42_session.md R216). -/
  shownOutput : s.hw.outValid = true → s.hw.session = .used
  /-- `OUT_LEN` is within `OUTBUF` (20_memory.md R80). -/
  outLenFits : s.hw.outLen.toNat ≤ outSize s.par
  /-- The outstanding request is the running ENCRYPT's or DECRYPT's and carries the session key (42_session.md R181). -/
  pendOwner : ∀ r, s.hw.pend = some r →
    (∃ k, s.hw.runs .encrypt k ∨ s.hw.runs .decrypt k) ∧ r.key = s.hw.skeyb ∧ r.keylen = s.hw.skl
  /-- Only ENCRYPT and DECRYPT receive responses (42_session.md R181, R200). -/
  noResponses : ∀ w k, s.hw.phase = .exec w k → decode w ≠ .ok .encrypt → decode w ≠ .ok .decrypt → k = 0
  /-- An ENCRYPT or DECRYPT that has sent a request: the session is USED, the output is hidden, the lengths fit, and the
  position, the counter and the outstanding block are those of the request sequence (42_session.md R198, R200, R203, R215). -/
  progress : ∀ i k, (i = .encrypt ∨ i = .decrypt) → s.hw.runs i k → k ≠ 0 ∨ s.hw.pend ≠ none →
    s.hw.session = .used ∧ s.hw.outValid = false ∧ s.lengthsFit ∧ (i = .decrypt → 16 ≤ s.hw.dataLen.toNat) ∧
      (s.hw.ctr.extractLsb' 0 32).toNat = 1 + incrementsMade k s.hw.pend.isSome ∧
      k + s.hw.pend.isSome.toNat ≤ blockCount (s.hw.messageLen i) + 2 ∧
      ∀ r, s.hw.pend = some r → r.block = if k = 0 then 0 else s.hw.ctr

end Sys2Proof.Machine
end

