-- ==== Sys2Proof/Certificates/Slice0/Obligations.lean ====
section
/-! DEFINITION. The statements for the provers. Each formalises what the docstring cites; those that rest on a decision of
this model say so. -/

section Statements

open Sys2Proof Sys2Proof.Machine

/-! ### Command words -/

/-- The ten words of the opcode map, written out bit by bit from the table, decode to their commands (30_encoding.md,
section 2). -/
def Obligations.SpecWordsDecode : Prop :=
  decode 0b00000000000000000000000000000001 = .ok .init ∧
  decode 0b00000000000000000000000000000010 = .ok .encrypt ∧
  decode 0b00000000000000000000000000000011 = .ok .decrypt ∧
  decode 0b00000000000000000000000000010000 = .ok .wXor ∧
  decode 0b00000000000000000000000000010001 = .ok .wAnd ∧
  decode 0b00000000000000000000000000010010 = .ok .wShr1 ∧
  decode 0b00000000000000000000000000010011 = .ok .wInc ∧
  decode 0b00000000000000000000000000010100 = .ok .wEq ∧
  decode 0b00000000000000000000000000100000 = .ok .gfMul ∧
  decode 0b00000000000000000000000000100001 = .ok .ghash

/-- A word decodes to a command exactly when it is the command's encoding: no two words mean one command, and no bit of a word
is dropped (30_encoding.md, sections 1 and 2). -/
def Obligations.WordMeansOneCommand : Prop :=
  ∀ (w : Word) (i : Instr), decode w = .ok i ↔ w = encode i

/-- R100: a word is legal exactly when `MBZ = 0` and `OPCODE` is one of the ten values; a read of `COMMAND` returns 0. -/
def Obligations.LegalWords : Prop :=
  (∀ w : Word, (∃ i, decode w = .ok i) ↔
    w.extractLsb' 8 24 = 0 ∧
      w.extractLsb' 0 8 ∈ ([0x01, 0x02, 0x03, 0x10, 0x11, 0x12, 0x13, 0x14, 0x20, 0x21] : List (BitVec 8))) ∧
  ∀ s : State, s.hw.busy = false → s.readResp 0x00C = some (.data 0)

/-- R104: at the controller's turn every word with `MBZ ≠ 0`, and every unlisted opcode, completes at once with `IllegalCommand`
and changes nothing but `BUSY`, `DONE`, `ERRCODE` and `ERR_DETAIL`, whatever moves are still to come. -/
def Obligations.IllegalWordCompletes : Prop :=
  ∀ (s : State) (w : Word) (k : Nat), s.hw.phase = .exec w k →
    (let op := (w.extractLsb' 0 8).toNat
     w.extractLsb' 8 24 ≠ 0 ∨ op = 0x00 ∨ (0x04 ≤ op ∧ op ≤ 0x0F) ∨ (0x15 ≤ op ∧ op ≤ 0x1F) ∨ 0x22 ≤ op) →
    coreTurn s = .next (s.completedAs s.hw 0x09 0)

/-! ### Steps -/

/-- R101: the write of `COMMAND`. While `BUSY = 1` it is a bus error and nothing changes in the block; otherwise the write
itself sets `BUSY`, clears `DONE`, `ERRCODE` and `ERR_DETAIL` and sets `PHASE`; then, at its turn, the controller runs the
command of a legal word, and completes an illegal one with `IllegalCommand`. -/
def Obligations.CommandIssue : Prop :=
  ∀ (s : State) (w : Word),
    (s.hw.busy = true → (s.afterWrite 0x00C w).hw = s.hw ∧ (s.afterWrite 0x00C w).env.resp = some .busErr) ∧
    (s.hw.busy = false →
      (s.afterWrite 0x00C w).hw =
        { s.hw with busy := true, done := false, errcode := 0, errDetail := 0, phase := .exec w 0 } ∧
      (s.afterWrite 0x00C w).env.resp = some .written) ∧
    (s.hw.phase = .exec w 0 →
      (∀ i, decode w = .ok i → coreTurn s = exec i s) ∧
      ((∀ i, decode w ≠ .ok i) → coreTurn s = .next (s.completedAs s.hw 0x09 0)))

/-- A step makes the next move. At the controller's turn, with that move taken off, it is `exec` of the command that the word in
`PHASE` decodes to; a word that is no command completes with `IllegalCommand`; in IDLE nothing changes. A host move is its bus
transaction. That moves come from a list, and that an empty list means the controller's turn, is the model's choice (assumption
log 5, DESIGN CHOICE). -/
def Obligations.StepMakesTheNextMove : Prop :=
  ∀ (s : State) (ms : List Move),
    (s.env.moves = [] →
      step s = coreTurn s ∧
      (∀ w k i, s.hw.phase = .exec w k → decode w = .ok i → step s = exec i s) ∧
      (∀ w k, s.hw.phase = .exec w k → (∀ i, decode w ≠ .ok i) → step s = .next (s.completedAs s.hw 0x09 0)) ∧
      (s.hw.phase = .idle → step s = .next s)) ∧
    (s.env.moves = .core :: ms →
      let u : State := { s with env := { s.env with moves := ms } }
      step s = coreTurn u ∧
      (∀ w k i, s.hw.phase = .exec w k → decode w = .ok i → step s = exec i u) ∧
      (∀ w k, s.hw.phase = .exec w k → (∀ i, decode w ≠ .ok i) → step s = .next (u.completedAs s.hw 0x09 0)) ∧
      (s.hw.phase = .idle → step s = .next u)) ∧
    (∀ a, s.env.moves = .read a :: ms →
      step s = .next ({ s with env := { s.env with moves := ms } }.busRead a)) ∧
    (∀ a d, s.env.moves = .write a d :: ms →
      step s = .next ({ s with env := { s.env with moves := ms } }.busWrite a d))

/-! ### WideInt128 commands -/

/-- R122: `RES = OPA xor OPB`, half by half, and nothing else changes but by the completion. -/
def Obligations.WXorResult : Prop :=
  decode 0x00000010 = .ok .wXor ∧
  ∀ s : State, ∃ t, exec .wXor s = .next t ∧
    t.hw.res.extractLsb' 64 64 = s.hw.opa.extractLsb' 64 64 ^^^ s.hw.opb.extractLsb' 64 64 ∧
    t.hw.res.extractLsb' 0 64 = s.hw.opa.extractLsb' 0 64 ^^^ s.hw.opb.extractLsb' 0 64 ∧
    t = s.completedAs { s.hw with res := t.hw.res } 0 0

/-- R123: `RES = OPA and OPB`, half by half, and nothing else changes but by the completion. -/
def Obligations.WAndResult : Prop :=
  decode 0x00000011 = .ok .wAnd ∧
  ∀ s : State, ∃ t, exec .wAnd s = .next t ∧
    t.hw.res.extractLsb' 64 64 = s.hw.opa.extractLsb' 64 64 &&& s.hw.opb.extractLsb' 64 64 ∧
    t.hw.res.extractLsb' 0 64 = s.hw.opa.extractLsb' 0 64 &&& s.hw.opb.extractLsb' 0 64 ∧
    t = s.completedAs { s.hw with res := t.hw.res } 0 0

/-- R124, R125: bit 127 of `RES` is 0 and bit i is bit i + 1 of `OPA`; in halves, the low bit of the high half moves into the
top of the low half. Nothing else changes but by the completion. -/
def Obligations.WShr1Result : Prop :=
  decode 0x00000012 = .ok .wShr1 ∧
  ∀ s : State, ∃ t, exec .wShr1 s = .next t ∧
    t.hw.res.getLsbD 127 = false ∧
    (∀ i, i < 127 → t.hw.res.getLsbD i = s.hw.opa.getLsbD (i + 1)) ∧
    t.hw.res.extractLsb' 64 64 = s.hw.opa.extractLsb' 64 64 >>> 1 ∧
    t.hw.res.extractLsb' 0 64 =
      (s.hw.opa.extractLsb' 0 64 >>> 1) ||| ((BitVec.ofBool (s.hw.opa.getLsbD 64)).setWidth 64 <<< 63) ∧
    t = s.completedAs { s.hw with res := t.hw.res } 0 0

/-- R126, R127: `RES = (OPA + 1) mod 2^128`; in halves, the high half takes a carry exactly when the low half wraps to 0. Nothing
else changes but by the completion. -/
def Obligations.WIncResult : Prop :=
  decode 0x00000013 = .ok .wInc ∧
  ∀ s : State, ∃ t, exec .wInc s = .next t ∧
    t.hw.res.toNat = (s.hw.opa.toNat + 1) % 2 ^ 128 ∧
    t.hw.res.extractLsb' 0 64 = s.hw.opa.extractLsb' 0 64 + 1 ∧
    t.hw.res.extractLsb' 64 64 =
      (if s.hw.opa.extractLsb' 0 64 + 1 = 0 then s.hw.opa.extractLsb' 64 64 + 1 else s.hw.opa.extractLsb' 64 64) ∧
    t = s.completedAs { s.hw with res := t.hw.res } 0 0

/-- R130: `STATUS.EQ` says whether `OPA = OPB`; `RES` is not written, and nothing else changes but by the completion. -/
def Obligations.WEqResult : Prop :=
  decode 0x00000014 = .ok .wEq ∧
  ∀ s : State, ∃ t, exec .wEq s = .next t ∧
    (t.hw.eq = true ↔ ∀ i, i < 128 → s.hw.opa.getLsbD i = s.hw.opb.getLsbD i) ∧
    t = s.completedAs { s.hw with eq := t.hw.eq } 0 0

/-- R120, R121: a WideInt128 command always completes with code 0; its result depends on `OPA` and `OPB` alone, and it changes
neither them nor the session, a buffer or the provider port. -/
def Obligations.WideIntIsPure : Prop :=
  ∀ (i : Instr), i ∈ ([.wXor, .wAnd, .wShr1, .wInc, .wEq] : List Instr) → ∀ s u : State,
    s.hw.opa = u.hw.opa → s.hw.opb = u.hw.opb →
    ∃ t v, exec i s = .next t ∧ exec i u = .next v ∧
      (i ≠ .wEq → t.hw.res = v.hw.res ∧ t.hw.eq = s.hw.eq) ∧
      (i = .wEq → t.hw.eq = v.hw.eq ∧ t.hw.res = s.hw.res) ∧
      t.hw.errcode = 0 ∧ t.hw.errDetail = 0 ∧ t.hw.busy = false ∧ t.hw.done = true ∧ t.hw.phase = .idle ∧
      t.hw.opa = s.hw.opa ∧ t.hw.opb = s.hw.opb ∧
      t.hw.session = s.hw.session ∧ t.hw.skeyb = s.hw.skeyb ∧ t.hw.skl = s.hw.skl ∧ t.hw.ctr = s.hw.ctr ∧
      t.hw.hsub = s.hw.hsub ∧ t.hw.eky0 = s.hw.eky0 ∧ t.hw.gacc = s.hw.gacc ∧ t.hw.pend = s.hw.pend ∧
      (∀ a, Memory.read t.hw.mem a = Memory.read s.hw.mem a) ∧ t.prov = s.prov

/-! ### Multiplier, padding and GHASH -/

/-- R151: the product is the XOR of the running values at the rounds whose bit of `y` is set; round r tests `y[127-r]`, and the
running value is shifted and reduced in every round. -/
def Obligations.GfMulRounds : Prop :=
  (∀ v : U128, gfShift v = if v.getLsbD 0 then (v >>> 1) ^^^ ((0xE1 : U128) <<< 120) else v >>> 1) ∧
  ∀ x y : U128, gfmul x y =
    (List.range 128).foldl (fun z r => if y.getLsbD (127 - r) then z ^^^ Nat.iterate gfShift r x else z) 0

/-- R152, R153: `TOPBIT` is the identity, 0 annihilates, the integer 1 is not the identity, and the product is commutative and
distributes over XOR, for all values. -/
def Obligations.GfMulAlgebra : Prop :=
  (∀ x : U128, gfmul x ((1 : U128) <<< 127) = x ∧ gfmul ((1 : U128) <<< 127) x = x) ∧
  (∀ x : U128, gfmul x 0 = 0 ∧ gfmul 0 x = 0) ∧
  gfmul 1 1 = 0xE6080000000000000000000000000003 ∧
  (∀ a b : U128, gfmul a b = gfmul b a) ∧
  ∀ a b c : U128, gfmul (a ^^^ b) c = gfmul a c ^^^ gfmul b c

/-- R160: `RES = GFMUL(OPA, OPB)`, in every session state, and nothing else changes but by the completion; with `TOPBIT` in `OPB`
the result is `OPA`, with 0 in either it is 0, and the reduction case of the rule comes out as stated. -/
def Obligations.GfMulResult : Prop :=
  decode 0x00000020 = .ok .gfMul ∧
  ∀ s : State, ∃ t, exec .gfMul s = .next t ∧
    t = s.completedAs { s.hw with res := gfmul s.hw.opa s.hw.opb } 0 0 ∧
    (s.hw.opa = 0 ∨ s.hw.opb = 0 → t.hw.res = 0) ∧
    (s.hw.opb = (1 : U128) <<< 127 → t.hw.res = s.hw.opa) ∧
    (s.hw.opa = 1 → s.hw.opb = (1 : U128) <<< 126 → t.hw.res = (0xE1 : U128) <<< 120)

/-- R154: PAD appends `16 - (len mod 16)` zero bytes, always 1 to 16 of them, and the padded length is
`16 * (floor(len / 16) + 1)`. -/
def Obligations.PadAlwaysAppends : Prop :=
  ∀ s : List Byte,
    pad s = s ++ List.replicate (16 - s.length % 16) 0 ∧
    1 ≤ 16 - s.length % 16 ∧ 16 - s.length % 16 ≤ 16 ∧
    (pad s).length = 16 * (s.length / 16 + 1)

/-- R156, R158: GHASH folds every AAD block, then every data block, then the length block with the two bit lengths, in this
order and nothing else. -/
def Obligations.GhashBlockOrder : Prop :=
  ∀ (h : U128) (a c : List Byte), a.length < 2 ^ 32 → c.length < 2 ^ 32 →
    ∃ bs : List U128,
      ghash h a c = bs.foldl (fun x b => gfmul (x ^^^ b) h) 0 ∧
      bs.length = (a.length / 16 + 1) + (c.length / 16 + 1) + 1 ∧
      (∀ i, i < a.length / 16 + 1 → bs.getD i 0 = be128 (((pad a).drop (16 * i)).take 16)) ∧
      (∀ i, i < c.length / 16 + 1 →
        bs.getD (a.length / 16 + 1 + i) 0 = be128 (((pad c).drop (16 * i)).take 16)) ∧
      (bs.getD ((a.length / 16 + 1) + (c.length / 16 + 1)) 0).toNat =
        (8 * a.length) * 2 ^ 64 + 8 * c.length

/-- R162: GHASH of the AAD and data bytes under `OPA` goes to `RES`, or `LengthError` with `RES` unchanged; the corner cases of
the rule come out as stated: no bytes and zero key give 0, and the key `TOPBIT` gives the XOR of all blocks. -/
def Obligations.GhashResult : Prop :=
  decode 0x00000021 = .ok .ghash ∧
  ∀ s : State,
    (¬ s.lengthsFit → exec .ghash s = .next (s.completedAs s.hw 0x08 0)) ∧
    (s.lengthsFit →
      ∃ t, exec .ghash s = .next t ∧
        t.hw.res =
          ghash s.hw.opa (memRead s.hw.mem 0x40000000 s.hw.aadLen.toNat)
            (memRead s.hw.mem 0x80000000 s.hw.dataLen.toNat) ∧
        t = s.completedAs { s.hw with gacc := t.hw.res, res := t.hw.res } 0 0 ∧
        (s.hw.aadLen = 0 → s.hw.dataLen = 0 → t.hw.res = 0) ∧
        (s.hw.opa = 0 → t.hw.res = 0) ∧
        (s.hw.opa = (1 : U128) <<< 127 →
          t.hw.res = (ghashBlocks s.hw.aad (s.hw.data s.hw.dataLen.toNat)).foldl (fun x b => x ^^^ b) 0))

/-- The multiplier form changes no result, no status bit and no request: with the other form a controller step of a command does
the same (41_galois.md R159). R159 gives a product 128 controller steps under the bit-serial form and one under the parallel
one; that it is part of one step under either form, so that the two can be compared step for step, is the model's reading
(assumption log 10, DEDUCED). -/
def Obligations.MultImplHasNoEffect : Prop :=
  ∀ (i : Instr) (s : State) (b : Bool),
    ∃ t, exec i s = .next t ∧
      exec i { s with par := { s.par with multImpl := b } } = .next { t with par := { s.par with multImpl := b } }

/-! ### INIT -/

/-- R190, R191, R193: INIT checks the key length, then the nonce length; on success it makes a FRESH session with a copy of the key
and of the nonce, the counter being the big-endian nonce above a 32-bit 1, on failure it clears the session; in every case it
hides the output and sends no request. -/
def Obligations.InitResult : Prop :=
  decode 0x00000001 = .ok .init ∧
  ∀ s : State,
    (s.hw.keyLen = 16 ∨ s.hw.keyLen = 24 ∨ s.hw.keyLen = 32 → s.hw.nonceLen = 12 →
      ∃ t, exec .init s = .next t ∧
        (∀ i, i < 32 →
          windowByte t.hw.skeyb i = if i < s.hw.keyLen.toNat then windowByte s.hw.keyb i else 0) ∧
        t.hw.skl.toNat = s.hw.keyLen.toNat ∧
        t.hw.ctr = be128 (s.hw.nonceb.toList ++ [0x00, 0x00, 0x00, 0x01]) ∧
        t.hw.ctr.extractLsb' 0 32 = 1 ∧
        t.hw.ctr.toNat = s.hw.nonceb.toList.foldl (fun n b => 256 * n + b.toNat) 0 * 2 ^ 32 + 1 ∧
        t = s.completedAs
          { s.hw with
            outValid := false, outLen := 0, skeyb := t.hw.skeyb, skl := t.hw.skl, ctr := t.hw.ctr,
            hsub := 0, eky0 := 0, gacc := 0, session := .fresh } 0 0) ∧
    (let cleared : HwState :=
      { s.hw with
        outValid := false, outLen := 0, session := .none, skeyb := Vector.replicate 32 0, skl := 0, ctr := 0,
        hsub := 0, eky0 := 0, gacc := 0 }
     (s.hw.keyLen ≠ 16 → s.hw.keyLen ≠ 24 → s.hw.keyLen ≠ 32 →
       exec .init s = .next (s.completedAs cleared 0x01 0)) ∧
     (s.hw.keyLen = 16 ∨ s.hw.keyLen = 24 ∨ s.hw.keyLen = 32 → s.hw.nonceLen ≠ 12 →
       exec .init s = .next (s.completedAs cleared 0x02 0)))

/-! ### ENCRYPT and DECRYPT: rejections -/

/-- ENCRYPT and DECRYPT check the session first: without one they end with `NoSession`, in a used one with
`InstanceAlreadyUsed`, and change nothing but `STATUS` and `ERR_DETAIL`. A DECRYPT of fewer than 16 bytes in a FRESH session ends
with `InvalidDataSize`, after the length check and before any request, and the session is USED (42_session.md, sections 3, 5
and 6). -/
def Obligations.RejectedSessionOperations : Prop :=
  (∀ (i : Instr) (s : State), sessionOperation i → s.issued i →
    (s.hw.session = .none → exec i s = .next (s.completedAs s.hw 0x07 0)) ∧
    (s.hw.session = .used → exec i s = .next (s.completedAs s.hw 0x04 0))) ∧
  ∀ s : State, s.issued .decrypt → s.hw.session = .fresh → s.lengthsFit → s.hw.dataLen.toNat < 16 →
    exec .decrypt s =
      .next (s.completedAs { s.hw with session := .used, outValid := false, outLen := 0 } 0x03 0)

/-- R241: ENCRYPT, DECRYPT and GHASH end with `LengthError` when a length exceeds its buffer, before any request; ENCRYPT and
DECRYPT, which check the session first, then leave it USED. -/
def Obligations.LengthCheck : Prop :=
  ∀ s : State, s.par.maxAad < s.hw.aadLen.toNat ∨ s.par.maxData < s.hw.dataLen.toNat →
    exec .ghash s = .next (s.completedAs s.hw 0x08 0) ∧
    ∀ i, sessionOperation i → s.issued i → s.hw.session = .fresh →
      exec i s =
        .next (s.completedAs { s.hw with session := .used, outValid := false, outLen := 0 } 0x08 0)

/-! ### ENCRYPT and DECRYPT: one controller step each -/

/-- ENCRYPT with no request out: from FRESH it marks the session USED and asks for `E(0^128)`; then it asks for `E(CTR)`; then,
for each keystream block, it increments `CTR` and asks for `E(CTR)`; after the last it hashes AAD and ciphertext, stores the
tag behind the ciphertext, shows the output and completes with code 0 (42_session.md, sections 3 and 4). The cut into steps is
the model's (assumption log 6, DEDUCED), and so is that the ciphertext to be hashed, R196's local variable `c`, is read again
from `OUTBUF`, where the command has just written it (assumption log 7, DEDUCED). -/
def Obligations.EncryptController : Prop :=
  ∀ (s : State) (k : Nat), s.hw.runs .encrypt k → s.hw.pend = none →
    let n := s.hw.dataLen.toNat
    let g := ghash s.hw.hsub s.hw.aad (memRead s.hw.mem outBase n)
    (k = 0 → s.hw.session = .fresh → s.lengthsFit →
      exec .encrypt s =
        .next (s.requested { s.hw with session := .used, outValid := false, outLen := 0 } 0)) ∧
    (k = 1 → exec .encrypt s = .next (s.requested s.hw s.hw.ctr)) ∧
    (2 ≤ k → k < n / 16 + 3 →
      exec .encrypt s = .next (s.requested { s.hw with ctr := s.hw.ctr + 1 } (s.hw.ctr + 1))) ∧
    (k = n / 16 + 3 →
      exec .encrypt s =
        .next (s.completedAs
          { s.hw with
            gacc := g, mem := memWrite s.hw.mem (outBase + n) (ser128 (g ^^^ s.hw.eky0)),
            outLen := s.hw.dataLen + 16, outValid := true } 0 0))

/-- DECRYPT with no request out: it asks as ENCRYPT does, but decides on the tag before its first keystream request, and ends
with `AuthTagValidation` exactly when the expected tag differs from the given one; after the last keystream block it shows the
output and completes with code 0 (42_session.md, section 5). The cut into steps is the model's (assumption log 6, DEDUCED), and so
is that AAD and ciphertext are read from their buffers at the step that hashes them (assumption log 7, DEDUCED). -/
def Obligations.DecryptController : Prop :=
  ∀ (s : State) (k : Nat), s.hw.runs .decrypt k → s.hw.pend = none →
    let n := s.hw.dataLen.toNat - 16
    let g := ghash s.hw.hsub s.hw.aad (memRead s.hw.mem dataBase n)
    let given := be128 (memRead s.hw.mem (dataBase + n) 16)
    (k = 0 → s.hw.session = .fresh → s.lengthsFit → 16 ≤ s.hw.dataLen.toNat →
      exec .decrypt s =
        .next (s.requested { s.hw with session := .used, outValid := false, outLen := 0 } 0)) ∧
    (k = 1 → exec .decrypt s = .next (s.requested s.hw s.hw.ctr)) ∧
    (k = 2 → g ^^^ s.hw.eky0 ≠ given →
      exec .decrypt s = .next (s.completedAs { s.hw with gacc := g } 0x06 0)) ∧
    (k = 2 → g ^^^ s.hw.eky0 = given →
      exec .decrypt s = .next (s.requested { s.hw with gacc := g, ctr := s.hw.ctr + 1 } (s.hw.ctr + 1))) ∧
    (3 ≤ k → k < n / 16 + 3 →
      exec .decrypt s = .next (s.requested { s.hw with ctr := s.hw.ctr + 1 } (s.hw.ctr + 1))) ∧
    (k = n / 16 + 3 →
      exec .decrypt s =
        .next (s.completedAs { s.hw with outLen := s.hw.dataLen - 16, outValid := true } 0 0))

/-- ENCRYPT and DECRYPT with a request out: on `ok` the block `E(keylen, key[0 .. keylen], block)` becomes `HSUB`, then `EKY0`,
then the XORed message bytes of each block in `OUTBUF`; on `err(code)` the command ends with `BlockCipherError` and the code in
`ERR_DETAIL`; without a response nothing changes (42_session.md, section 1 and R202). That the receipt of one response is a step
of its own is the model's cut (assumption log 6, DEDUCED); that the answers come from a list, and that with none left the
provider is silent and the step changes nothing, is its choice (assumption log 4, DESIGN CHOICE). -/
def Obligations.ProviderResponse : Prop :=
  ∀ (i : Instr) (s : State) (w : Word) (k : Nat) (r : Request) (rest : List Answer), sessionOperation i →
    s.hw.phase = .exec w k → decode w = .ok i → s.hw.pend = some r →
    let v := s.prov.cipher
      { keylen := r.keylen.toNat, key := r.key.toList.take r.keylen.toNat, block := r.block }
    let received : HwState := { s.hw with pend := none, phase := .exec w (k + 1) }
    let msg := memRead s.hw.mem dataBase (s.hw.messageLen i)
    (s.prov.answers = [] → exec i s = .next s) ∧
    (s.prov.answers = .ok :: rest →
      exec i s =
        .next { s with
          prov := { s.prov with answers := rest },
          hw :=
            if k = 0 then { received with hsub := v }
            else if k = 1 then { received with eky0 := v }
            else
              { received with
                mem := memWrite s.hw.mem (outBase + 16 * (k - 2))
                  ((ser128 (be128 (((pad msg).drop (16 * (k - 2))).take 16) ^^^ v)).take
                    (min 16 (s.hw.messageLen i - 16 * (k - 2)))) } }) ∧
    (∀ code, s.prov.answers = .err code :: rest →
      exec i s =
        .next ({ s with prov := { s.prov with answers := rest } }.completedAs { s.hw with pend := none } 0x05 code))

/-- R214: `CT_DIFF` is the OR of all sixteen XORed byte pairs, and it is 0 exactly when the tags are equal. -/
def Obligations.TagComparison : Prop :=
  ∀ te tg : U128,
    ctDiff te tg =
      (List.range 16).foldl (fun d k => d ||| ((ser128 te).getD k 0 ^^^ (ser128 tg).getD k 0)) 0 ∧
    (ctDiff te tg = 0 ↔ te = tg)

/-! ### ENCRYPT and DECRYPT: whole commands -/

/-- A whole ENCRYPT whose requests are all answered `ok`, the host making none but ungated transactions meanwhile (as `wait` does,
or none at all): its `2 (m + 2) + 1`-th controller turn completes it with the ciphertext and the tag in `OUTBUF`,
`OUT_LEN = n + 16`, after exactly the requests of the sequence; every other byte and register is left alone, but for `IRQ_EN`,
which the host may write (42_session.md R196, R197, R200). The number of turns is the model's cut into steps (assumption log 6,
DEDUCED), and the order of moves is a list that goes on with the controller's turns (assumption log 5, DESIGN CHOICE). -/
def Obligations.EncryptRunsToCompletion : Prop :=
  ∀ (s : State) (n N : Nat), s.ReadyFor .encrypt n → s.providerOk (blockCount n + 2) →
    s.Waits N (2 * (blockCount n + 2) + 1) →
    ∃ t : State, core.run N s = .next t ∧ EncryptResult s t n ∧ HostWaited s t N

/-- A whole DECRYPT of a message with a valid tag, whose requests are all answered `ok`, the host making none but ungated
transactions meanwhile: its `2 (m + 2) + 1`-th controller turn completes it with the plaintext in `OUTBUF`, `OUT_LEN = n`, after
exactly the requests of the sequence (42_session.md R210, R213, R200). The number of turns is the model's cut into steps
(assumption log 6, DEDUCED), and the order of moves is a list that goes on with the controller's turns (assumption log 5, DESIGN
CHOICE). -/
def Obligations.DecryptRunsToCompletion : Prop :=
  ∀ (s : State) (n N : Nat), s.ReadyFor .decrypt n → s.providerOk (blockCount n + 2) →
    s.hw.givenTag n = s.tagOf (s.hw.data n) → s.Waits N (2 * (blockCount n + 2) + 1) →
    ∃ t : State, core.run N s = .next t ∧ DecryptResult s t n ∧ HostWaited s t N

/-- A DECRYPT whose given tag differs from the expected one, the host making none but ungated transactions meanwhile: its fifth
controller turn ends it with `AuthTagValidation`, after the requests for H and Eky0 only, with no byte of any buffer written and no
output shown (42_session.md R210, R212, R215). That it is the fifth turn is the model's cut into steps (assumption log 6,
DEDUCED), and the order of moves is a list that goes on with the controller's turns (assumption log 5, DESIGN CHOICE). -/
def Obligations.DecryptFailsClosed : Prop :=
  ∀ (s : State) (n N : Nat), s.ReadyFor .decrypt n → s.providerOk 2 →
    s.hw.givenTag n ≠ s.tagOf (s.hw.data n) → s.Waits N 5 →
    ∃ t : State, core.run N s = .next t ∧ TagRejected s t ∧ HostWaited s t N

/-- A provider failure at request j + 1, the earlier ones answered `ok`, the host making none but ungated transactions meanwhile:
it ends ENCRYPT, and DECRYPT of a message with a valid tag, with `BlockCipherError` and the provider's code, after the first j + 1
requests and none after, the session USED, `CTR` advanced by the increments made, no output (42_session.md, sections 3 to 5). The
number of turns is the model's cut into steps (assumption log 6, DEDUCED), the answers are a list (assumption log 4, DESIGN
CHOICE), and so is the order of moves, which goes on with the controller's turns (assumption log 5, DESIGN CHOICE). -/
def Obligations.ProviderFailureEndsTheCommand : Prop :=
  ∀ (i : Instr) (s : State) (n j N : Nat) (code : Word) (rest : List Answer), sessionOperation i →
    s.ReadyFor i n → j < blockCount n + 2 →
    s.prov.answers = List.replicate j .ok ++ .err code :: rest →
    (i = .decrypt → 2 ≤ j → s.hw.givenTag n = s.tagOf (s.hw.data n)) → s.Waits N (2 * (j + 1)) →
    ∃ t : State, core.run N s = .next t ∧ ProviderFailed s t n j code ∧ HostWaited s t N

/-- Two sessions made by INIT from the same key length, key bytes and nonce, each host making none but ungated transactions while
its command runs. What ENCRYPT in one makes of an AAD and a plaintext, DECRYPT in the other, with the same AAD and the output as
its input, turns back into the plaintext (42_session.md R217). The numbers of turns are the model's cut into steps (assumption
log 6, DEDUCED), and the order of moves is a list that goes on with the controller's turns (assumption log 5, DESIGN CHOICE). -/
def Obligations.RoundTrip : Prop :=
  ∀ (s₀ u₀ s₁ u₁ s t u : State) (n N M : Nat),
    s₀.hw.keyLen = u₀.hw.keyLen → s₀.hw.nonceb = u₀.hw.nonceb →
    (∀ i, i < s₀.hw.keyLen.toNat → windowByte s₀.hw.keyb i = windowByte u₀.hw.keyb i) →
    exec .init s₀ = .next s₁ → exec .init u₀ = .next u₁ →
    SameSession s.hw s₁.hw → SameSession u.hw u₁.hw →
    s.ReadyFor .encrypt n → s.providerOk (blockCount n + 2) → s.Waits N (2 * (blockCount n + 2) + 1) →
    core.run N s = .next t →
    u.ReadyFor .decrypt n → u.providerOk (blockCount n + 2) → u.Waits M (2 * (blockCount n + 2) + 1) →
    u.prov.known = s.prov.known →
    u.hw.aad = s.hw.aad → u.hw.data (n + 16) = t.hw.outBytes t.hw.outLen.toNat →
    ∃ v : State, core.run M u = .next v ∧
      v.hw.errcode = 0 ∧ v.hw.done = true ∧ v.hw.outValid = true ∧
      v.hw.outBytes v.hw.outLen.toNat = s.hw.data n

/-! ### Provider and session over many steps -/

/-- R182: a request that the provider never answers leaves the command running for ever, whatever the host does: `BUSY` stays 1
and `DONE` stays 0, and only reset ends it. -/
def Obligations.SilentProviderHangs : Prop :=
  (∀ (s : State) (i : Instr) (k : Nat) (r : Request), sessionOperation i → s.hw.runs i k →
    s.hw.pend = some r → s.hw.busy = true → s.hw.done = false → s.prov.answers = [] →
    Move.reset ∉ s.env.moves →
    ∀ m, ∃ t : State, core.run m s = .next t ∧
      t.hw.busy = true ∧ t.hw.done = false ∧ t.hw.phase = s.hw.phase ∧ t.hw.pend = some r) ∧
  ∀ (s : State) (ms : List Move), s.env.moves = .reset :: ms →
    ∃ t, step s = .next t ∧ t.hw.busy = false ∧ t.hw.phase = .idle ∧ t.hw.pend = none

/-- R218: once a session is USED it stays USED, whatever the host, the provider and the controller do, as long as no INIT is
issued and no reset comes; and every ENCRYPT or DECRYPT issued then ends with `InstanceAlreadyUsed` and touches nothing. -/
def Obligations.UsedSessionStaysUsed : Prop :=
  ∀ s : State, s.hw.session = .used → (∀ w k, s.hw.phase = .exec w k → decode w ≠ .ok .init) →
    Move.reset ∉ s.env.moves → (∀ w, Move.write 0x00C w ∈ s.env.moves → decode w ≠ .ok .init) →
    ∀ (m : Nat), ∃ t : State, core.run m s = .next t ∧ t.hw.session = .used ∧
      ∀ i, sessionOperation i → t.issued i → exec i t = .next (t.completedAs t.hw 0x04 0)

/-- R216: the session transitions, command by command, from every state that meets the invariant. A rejected ENCRYPT or DECRYPT
changes nothing but `STATUS` and `ERR_DETAIL`. -/
def Obligations.SessionTransitions : Prop :=
  ∀ (s t : State) (w : Word) (k : Nat), s.Inv → s.hw.phase = .exec w k → coreTurn s = .next t →
    (decode w = .ok .init →
      t.hw.session = if (s.hw.keyLen = 16 ∨ s.hw.keyLen = 24 ∨ s.hw.keyLen = 32) ∧ s.hw.nonceLen = 12
        then .fresh else .none) ∧
    (decode w = .ok .encrypt ∨ decode w = .ok .decrypt →
      (s.hw.session = .none → t = s.completedAs s.hw 0x07 0) ∧
      (s.hw.session = .fresh → t.hw.session = .used) ∧
      (s.hw.session = .used → t.hw.session = .used) ∧
      (s.hw.session = .used → k = 0 → s.hw.pend = none → t = s.completedAs s.hw 0x04 0)) ∧
    (decode w ≠ .ok .init → decode w ≠ .ok .encrypt → decode w ≠ .ok .decrypt → t.hw.session = s.hw.session)

/-- Every request on the provider port is sent by a running ENCRYPT or DECRYPT with no other request out, and carries the
session key; every response taken is for the one outstanding request (42_session.md, section 1). -/
def Obligations.RequestsCarryTheSessionKey : Prop :=
  ∀ s t : State, step s = .next t →
    (t.prov.seen = s.prov.seen ∨
      ∃ i k b, sessionOperation i ∧ s.hw.runs i k ∧ s.hw.pend = none ∧
        t.hw.pend = some { key := s.hw.skeyb, keylen := s.hw.skl, block := b } ∧
        t.prov.seen = s.prov.seen ++ [{ key := s.hw.skeyb, keylen := s.hw.skl, block := b }]) ∧
    (t.prov.answers = s.prov.answers ∨
      ∃ r a, s.hw.pend = some r ∧ s.prov.answers = a :: t.prov.answers ∧ t.hw.pend = none) ∧
    t.prov.known = s.prov.known

/-- No step of ENCRYPT or DECRYPT changes `CTR[127:32]`: the increment never carries out of bit 31, and `CTR[31:0]` stays at most
`1 + 2^26`, in every state that meets the invariant (42_session.md R203). -/
def Obligations.CounterNeverCarries : Prop :=
  ∀ (s t : State) (i : Instr) (k : Nat), s.Inv → sessionOperation i → s.hw.runs i k → exec i s = .next t →
    t.hw.ctr.extractLsb' 32 96 = s.hw.ctr.extractLsb' 32 96 ∧
    (s.hw.ctr.extractLsb' 0 32).toNat ≤ (t.hw.ctr.extractLsb' 0 32).toNat ∧
    (t.hw.ctr.extractLsb' 0 32).toNat ≤ 1 + 2 ^ 26

/-- R246: a command that ends with an error writes no result a host could read. -/
def Obligations.NoPartialResults : Prop :=
  ∀ (s t : State) (i : Instr) (k : Nat), s.Inv → s.hw.runs i k → exec i s = .next t →
    t.hw.phase = .idle → t.hw.errcode ≠ 0 →
    t.hw.res = s.hw.res ∧ t.hw.eq = s.hw.eq ∧
    (i = .init → t.hw.outValid = false ∧ t.hw.outLen = 0) ∧
    (sessionOperation i → t.hw.errcode ≠ 0x07 → t.hw.errcode ≠ 0x04 → t.hw.outValid = false ∧ t.hw.outLen = 0) ∧
    (sessionOperation i → t.hw.errcode = 0x07 ∨ t.hw.errcode = 0x04 →
      t.hw.outValid = s.hw.outValid ∧ t.hw.outLen = s.hw.outLen ∧
      ∀ a, Memory.read t.hw.mem a = Memory.read s.hw.mem a)

/-! ### Frames -/

/-- What a command other than ENCRYPT and DECRYPT leaves alone: every byte of memory, every host-written register, the provider,
and every register but those that 30_encoding.md R102 lists for it. -/
def Obligations.FrameOfCommandsThatStoreNothing : Prop :=
  ∀ (i : Instr) (s t : State), ¬ sessionOperation i → exec i s = .next t →
    (∀ a, Memory.read t.hw.mem a = Memory.read s.hw.mem a) ∧
    t.hw.opa = s.hw.opa ∧ t.hw.opb = s.hw.opb ∧ t.hw.keyb = s.hw.keyb ∧ t.hw.nonceb = s.hw.nonceb ∧
    t.hw.keyLen = s.hw.keyLen ∧ t.hw.nonceLen = s.hw.nonceLen ∧ t.hw.aadLen = s.hw.aadLen ∧
    t.hw.dataLen = s.hw.dataLen ∧ t.hw.irqEn = s.hw.irqEn ∧ t.hw.pend = s.hw.pend ∧
    (i = .init ∨ i = .wEq → t.hw.res = s.hw.res) ∧
    (i ≠ .wEq → t.hw.eq = s.hw.eq) ∧
    (i ≠ .init → t.hw.session = s.hw.session ∧ t.hw.skeyb = s.hw.skeyb ∧ t.hw.skl = s.hw.skl ∧
      t.hw.ctr = s.hw.ctr ∧ t.hw.hsub = s.hw.hsub ∧ t.hw.eky0 = s.hw.eky0 ∧
      t.hw.outValid = s.hw.outValid ∧ t.hw.outLen = s.hw.outLen) ∧
    (i ≠ .init → i ≠ .ghash → t.hw.gacc = s.hw.gacc) ∧
    t.par = s.par ∧ t.prov = s.prov ∧ t.env = s.env

/-- What one step of ENCRYPT or DECRYPT leaves alone: every byte outside the stored bytes, whose address and number are those of
`State.storesTo`, and every register but those that 30_encoding.md R102 lists. -/
def Obligations.FrameOfSessionOperations : Prop :=
  ∀ (i : Instr) (s t : State), sessionOperation i → exec i s = .next t →
    SessionFrame s t ∧
    ∀ a, a < (s.storesTo i).1 ∨ (s.storesTo i).1 + (s.storesTo i).2 ≤ a →
      Memory.read t.hw.mem a = Memory.read s.hw.mem a

/-! ### Whole-machine rules over the registers -/

/-- R23: `RES` changes only at the successful completion of W_XOR, W_AND, W_SHR1, W_INC, GF_MUL or GHASH, and by reset; a host
write to it is ignored. -/
def Obligations.ResChangesOnlyByItsCommands : Prop :=
  (∀ s t : State, step s = .next t → t.hw.res ≠ s.hw.res →
    (∃ ms, s.env.moves = .reset :: ms) ∨
    ∃ i k, i ∈ ([.wXor, .wAnd, .wShr1, .wInc, .gfMul, .ghash] : List Instr) ∧ s.hw.runs i k ∧
      t.hw.errcode = 0 ∧ t.hw.done = true) ∧
  ∀ (s : State) (j : Fin 4) (d : Word), (s.afterWrite (0x0A0 + 4 * j.val) d).hw = s.hw

/-- R32: `STATUS.EQ` changes only at the completion of W_EQ, and by reset; and no command reads it. -/
def Obligations.EqChangesOnlyByWEq : Prop :=
  (∀ s t : State, step s = .next t → t.hw.eq ≠ s.hw.eq →
    (∃ ms, s.env.moves = .reset :: ms) ∨
    ∃ k, s.hw.runs .wEq k ∧ t.hw.errcode = 0 ∧ t.hw.done = true) ∧
  ∀ (i : Instr) (s : State) (b : Bool), ∃ t, exec i s = .next t ∧
    exec i (s.onHw fun h => { h with eq := b }) =
      .next (if i = .wEq then t else t.onHw fun h => { h with eq := b })

/-- The controller never writes a host-written register, nor a byte of `AADBUF` or `DATABUF`; and bytes past the message lengths
are never read: two states that differ only in `AADBUF` past `AAD_LEN` and in `DATABUF` past `DATA_LEN` go to states that differ
only there (10_state.md, section 1; 20_memory.md R82). -/
def Obligations.CoreAndItsInputs : Prop :=
  (∀ s t : State, coreTurn s = .next t →
    t.hw.irqEn = s.hw.irqEn ∧ t.hw.keyLen = s.hw.keyLen ∧ t.hw.nonceLen = s.hw.nonceLen ∧
    t.hw.aadLen = s.hw.aadLen ∧ t.hw.dataLen = s.hw.dataLen ∧ t.hw.keyb = s.hw.keyb ∧
    t.hw.nonceb = s.hw.nonceb ∧ t.hw.opa = s.hw.opa ∧ t.hw.opb = s.hw.opb ∧
    ∀ a, a < outBase → Memory.read t.hw.mem a = Memory.read s.hw.mem a) ∧
  ∀ (i : Instr) (s : State) (k : Nat) (m : List Host.Cell), s.Inv → s.hw.runs i k → Memory.wf m → s.lengthsFit →
    (∀ j, j < s.hw.aadLen.toNat → Memory.read m (aadBase + j) = Memory.read s.hw.mem (aadBase + j)) →
    (∀ j, j < s.hw.dataLen.toNat → Memory.read m (dataBase + j) = Memory.read s.hw.mem (dataBase + j)) →
    (∀ a, outBase ≤ a → Memory.read m a = Memory.read s.hw.mem a) →
    ∃ t v, exec i s = .next t ∧ exec i (s.onHw fun h => { h with mem := m }) = .next v ∧
      v = t.onHw (fun h => { h with mem := v.hw.mem }) ∧
      (∀ a, outBase ≤ a → Memory.read v.hw.mem a = Memory.read t.hw.mem a) ∧
      ∀ a, a < outBase → Memory.read v.hw.mem a = Memory.read m a

/-! ### The host bus -/

/-- The bus errors, in the order they are checked, against the register map and the buffer ranges. A failing transaction changes
nothing in the block; an accepted read changes nothing in the block (20_memory.md R71, R72, R74; 60_exceptions.md R249). R74 has
the fault of the host agent recorded and never cleared; that the record keeps the first fault and not later ones, and that the
machine goes on, is the model's choice (assumption log 8, DESIGN CHOICE). -/
def Obligations.BusErrors : Prop :=
  (∀ (s : State) (a : Word),
    (∀ f, s.busFault a f →
      (s.busRead a).env.resp = some .busErr ∧ (s.busRead a).hw = s.hw ∧
      (s.busRead a).env.fault = s.env.fault.or (some f) ∧
      ∀ d, (s.busWrite a d).env.resp = some .busErr ∧ (s.busWrite a d).hw = s.hw ∧
        (s.busWrite a d).env.fault = s.env.fault.or (some f)) ∧
    (s.accepts a →
      (∃ d, (s.busRead a).env.resp = some (.data d)) ∧ (s.busRead a).hw = s.hw ∧
      (s.busRead a).env.fault = s.env.fault ∧
      ∀ d, (s.busWrite a d).env.resp = some .written ∧ (s.busWrite a d).env.fault = s.env.fault)) ∧
  ∀ (s t : State) (f : Fault), s.env.fault = some f → step s = .next t → t.env.fault = some f

/-- R280: while `BUSY = 1`, every transaction to a gated address is a bus error with no effect, and the six other registers still
answer. -/
def Obligations.BusyGate : Prop :=
  ∀ (s : State) (a : Word), s.hw.busy = true → a.toNat % 4 = 0 → mappedOffset s.par a.toNat →
    (¬ ungatedOffset a.toNat →
      (s.busRead a).env.resp = some .busErr ∧ (s.busRead a).hw = s.hw ∧
      ∀ d, (s.busWrite a d).env.resp = some .busErr ∧ (s.busWrite a d).hw = s.hw) ∧
    (ungatedOffset a.toNat →
      (∃ d, (s.busRead a).env.resp = some (.data d)) ∧ ∀ d, (s.busWrite a d).env.resp = some .written)

/-- R22, R77: `OPA` and `OPB` are written one word at a time, the other 96 bits kept, and read back; word j of a 128-bit register
is its bits `[127-32j : 96-32j]`, and the bytes of the four words, most significant first, are `SER128` of the value; the core
never writes the operands; they are 0 at reset. -/
def Obligations.OperandRegisters : Prop :=
  (∀ (s : State) (j k : Fin 4) (d : Word), s.hw.busy = false →
    (s.afterWrite (0x080 + 4 * j.val) d).readResp (0x080 + 4 * k.val) =
      some (.data (if k = j then d else s.hw.opa.extractLsb' (96 - 32 * k.val) 32)) ∧
    (s.afterWrite (0x080 + 4 * j.val) d).hw.opb = s.hw.opb ∧
    (s.afterWrite (0x090 + 4 * j.val) d).readResp (0x090 + 4 * k.val) =
      some (.data (if k = j then d else s.hw.opb.extractLsb' (96 - 32 * k.val) 32)) ∧
    (s.afterWrite (0x090 + 4 * j.val) d).hw.opa = s.hw.opa ∧
    s.readResp (0x080 + 4 * j.val) = some (.data (s.hw.opa.extractLsb' (96 - 32 * j.val) 32)) ∧
    s.readResp (0x090 + 4 * j.val) = some (.data (s.hw.opb.extractLsb' (96 - 32 * j.val) 32)) ∧
    s.readResp (0x0A0 + 4 * j.val) = some (.data (s.hw.res.extractLsb' (96 - 32 * j.val) 32))) ∧
  (∀ v : U128,
    ser128 v =
      (List.range 4).flatMap fun j =>
        (List.range 4).map fun b => (v.extractLsb' (96 - 32 * j) 32).extractLsb' (24 - 8 * b) 8) ∧
  (∀ s t : State, coreTurn s = .next t → t.hw.opa = s.hw.opa ∧ t.hw.opb = s.hw.opb) ∧
  State.reset.hw.opa = 0 ∧ State.reset.hw.opb = 0

/-- R24, R25: `KEYB` is written as eight big-endian words and always reads 0, and the core reads only its first `KEY_LEN` bytes, in
an INIT with a legal length; `NONCEB` is written and read as three big-endian words, and only INIT reads it. -/
def Obligations.KeyAndNonceWindows : Prop :=
  (∀ (s : State) (j : Fin 8) (d : Word), s.hw.busy = false →
    s.readResp (0x040 + 4 * j.val) = some (.data 0) ∧
    ∀ x, x < 32 → windowByte (s.afterWrite (0x040 + 4 * j.val) d).hw.keyb x =
      if x / 4 = j.val then d.extractLsb' (24 - 8 * (x % 4)) 8 else windowByte s.hw.keyb x) ∧
  (∀ (i : Instr) (s : State) (key : Vector Byte 32),
    (i = .init → s.hw.keyLen = 16 ∨ s.hw.keyLen = 24 ∨ s.hw.keyLen = 32 →
      ∀ x, x < s.hw.keyLen.toNat → windowByte key x = windowByte s.hw.keyb x) →
    ∃ t, exec i s = .next t ∧
      exec i (s.onHw fun h => { h with keyb := key }) = .next (t.onHw fun h => { h with keyb := key })) ∧
  (∀ (s : State) (j k : Fin 3) (d : Word), s.hw.busy = false →
    (s.afterWrite (0x060 + 4 * j.val) d).readResp (0x060 + 4 * k.val) =
      (if k = j then some (.data d) else s.readResp (0x060 + 4 * k.val)) ∧
    ∀ x, x < 12 → windowByte (s.afterWrite (0x060 + 4 * j.val) d).hw.nonceb x =
      if x / 4 = j.val then d.extractLsb' (24 - 8 * (x % 4)) 8 else windowByte s.hw.nonceb x) ∧
  ∀ (i : Instr) (s : State) (nonce : Vector Byte 12), i ≠ .init →
    ∃ t, exec i s = .next t ∧
      exec i (s.onHw fun h => { h with nonceb := nonce }) = .next (t.onHw fun h => { h with nonceb := nonce })

/-- A word written to `AADBUF` or `DATABUF` puts its bytes at the four offsets, the most significant lowest, changes no other
byte, and reads back (20_memory.md, sections 2 and 3). -/
def Obligations.BufferWords : Prop :=
  ∀ (s : State) (base size off : Nat) (d : Word),
    (base = 0x40000000 ∧ size = s.par.maxAad) ∨ (base = 0x80000000 ∧ size = s.par.maxData) →
    s.hw.busy = false → Memory.wf s.hw.mem → off % 4 = 0 → off < size →
    (∀ b, b < 4 →
      Memory.read (s.afterWrite (base + off) d).hw.mem (base + off + b) = d.extractLsb' (24 - 8 * b) 8) ∧
    (∀ a, a < base + off ∨ base + off + 4 ≤ a →
      Memory.read (s.afterWrite (base + off) d).hw.mem a = Memory.read s.hw.mem a) ∧
    (s.afterWrite (base + off) d).readResp (base + off) = some (.data d)

/-- R81: a byte of `OUTBUF` reads as itself while `OUT_VALID = 1` and its offset is below `OUT_LEN`, and as 0 otherwise; a host
write to `OUTBUF` is ignored; and what a command writes there is not shown unless it completes successfully: after any other
step of it the output is hidden, or as it was. -/
def Obligations.OutbufReads : Prop :=
  (∀ (s : State) (off : Nat) (d : Word), s.hw.busy = false → off % 4 = 0 → off < s.par.maxData + 16 →
    (∃ w : Word, s.readResp (0xC0000000 + off) = some (.data w) ∧
      ∀ b, b < 4 → w.extractLsb' (24 - 8 * b) 8 =
        if s.hw.outValid = true ∧ off + b < s.hw.outLen.toNat then Memory.read s.hw.mem (0xC0000000 + off + b) else 0) ∧
    (s.afterWrite (0xC0000000 + off) d).hw = s.hw ∧
    (s.afterWrite (0xC0000000 + off) d).env.resp = some .written) ∧
  ∀ (s t : State) (i : Instr) (k : Nat), s.Inv → s.hw.runs i k → exec i s = .next t →
    ¬ (t.hw.phase = .idle ∧ t.hw.errcode = 0) →
    t.hw.outValid = false ∨
      (t.hw.outValid = s.hw.outValid ∧ t.hw.outLen = s.hw.outLen ∧
        ∀ a, Memory.read t.hw.mem a = Memory.read s.hw.mem a)

/-- R28, R33: the fields of `STATUS`; a host write clears `DONE` through bit 1 and does nothing else, also while a command runs. -/
def Obligations.StatusRegister : Prop :=
  ∀ (s : State) (d : Word),
    (∃ w : Word, s.readResp 0x008 = some (.data w) ∧
      w.getLsbD 0 = s.hw.busy ∧ w.getLsbD 1 = s.hw.done ∧ w.getLsbD 2 = s.hw.outValid ∧ w.getLsbD 3 = s.hw.eq ∧
      w.extractLsb' 4 2 = (match s.hw.session with | .none => 0 | .fresh => 1 | .used => 2) ∧
      w.extractLsb' 6 2 = 0 ∧ w.extractLsb' 8 8 = s.hw.errcode ∧ w.extractLsb' 16 16 = 0) ∧
    (s.afterWrite 0x008 d).hw = (if d.getLsbD 1 then { s.hw with done := false } else s.hw) ∧
    (s.afterWrite 0x008 d).env.resp = some .written

/-- R26, R27: `CONFIG` stores its two length bytes and reads its reserved bits as 0; `CTRL` stores `IRQ_EN`, also while a command
runs, and reads its reserved bits as 0. `AAD_LEN` and `DATA_LEN` take and return every 32-bit value; `ERR_DETAIL` and `OUT_LEN`
are read-only and return their values (10_state.md, section 4). -/
def Obligations.ControlRegisters : Prop :=
  (∀ (s : State) (d : Word),
    (s.afterWrite 0x004 d).hw = { s.hw with irqEn := d.getLsbD 0 } ∧
    (s.afterWrite 0x004 d).readResp 0x004 = some (.data (d &&& 0x00000001))) ∧
  (∀ (s : State) (d : Word), s.hw.busy = false →
    (s.afterWrite 0x010 d).hw = { s.hw with keyLen := d.extractLsb' 0 8, nonceLen := d.extractLsb' 8 8 } ∧
    (s.afterWrite 0x010 d).readResp 0x010 = some (.data (d &&& 0x0000FFFF)) ∧
    (s.afterWrite 0x018 d).hw = { s.hw with aadLen := d } ∧ (s.afterWrite 0x018 d).readResp 0x018 = some (.data d) ∧
    (s.afterWrite 0x01C d).hw = { s.hw with dataLen := d } ∧ (s.afterWrite 0x01C d).readResp 0x01C = some (.data d) ∧
    (s.afterWrite 0x014 d).hw = s.hw ∧ s.readResp 0x014 = some (.data s.hw.errDetail) ∧
    (s.afterWrite 0x020 d).hw = s.hw ∧ s.readResp 0x020 = some (.data s.hw.outLen)) ∧
  State.reset.hw.keyLen = 0 ∧ State.reset.hw.nonceLen = 0 ∧ State.reset.hw.irqEn = false

/-- R38: the constants, in every state, also while a command runs; writes to them are ignored. -/
def Obligations.ConstantRegisters : Prop :=
  ∀ (s : State) (d : Word),
    s.readResp 0x000 = some (.data 0x47434D07) ∧
    (∃ v, s.readResp 0x024 = some (.data v) ∧ v.toNat = s.par.maxAad) ∧
    (∃ v, s.readResp 0x028 = some (.data v) ∧ v.toNat = s.par.maxData) ∧
    s.readResp 0x02C = some (.data (if s.par.multImpl then 1 else 0)) ∧
    ∀ a, a ∈ [0x000, 0x024, 0x028, 0x02C] →
      (s.afterWrite a d).hw = s.hw ∧ (s.afterWrite a d).env.resp = some .written

/-- R250: `irq` is the level `IRQ_EN and DONE`: the completion of any command raises it where it is enabled, and the W1C write of
`DONE` and the issue of a command lower it. -/
def Obligations.InterruptLevel : Prop :=
  (∀ s : State, s.hw.irq = (s.hw.irqEn && s.hw.done)) ∧
  (∀ s t : State, coreTurn s = .next t → s.hw.phase ≠ .idle → t.hw.phase = .idle → t.hw.irq = s.hw.irqEn) ∧
  (∀ s : State, (s.afterWrite 0x008 0x00000002).hw.irq = false) ∧
  ∀ (s : State) (w : Word), s.hw.busy = false → (s.afterWrite 0x00C w).hw.irq = false

/-! ### Secrecy -/

/-- Nothing a host reads depends on the session key, the counter, H, Eky0, the accumulator, the controller's position, the
outstanding request, or the written key (10_state.md R24, R44; 20_memory.md R92); nor on a byte of `OUTBUF` that is not released:
two states that differ only in such bytes answer every read alike (10_state.md R31; 20_memory.md R81; 42_session.md R212). -/
def Obligations.SecretsAreUnreadable : Prop :=
  (∀ (s : State) (a : Word), (s.busRead a).env = (s.blankSecrets.busRead a).env) ∧
  ∀ (s : State) (m : List Host.Cell) (a : Word),
    (∀ x, x < outBase → Memory.read m x = Memory.read s.hw.mem x) →
    (∀ off, s.hw.outValid = true → off < s.hw.outLen.toNat →
      Memory.read m (outBase + off) = Memory.read s.hw.mem (outBase + off)) →
    (s.busRead a).env = ((s.onHw fun h => { h with mem := m }).busRead a).env

/-- No host write reaches the session registers, the outstanding request or the results, and `PHASE` only by an accepted
`COMMAND` write (10_state.md R44). -/
def Obligations.HostCannotWriteInternalState : Prop :=
  ∀ (s : State) (a d : Word),
    (s.busWrite a d).hw.session = s.hw.session ∧ (s.busWrite a d).hw.skeyb = s.hw.skeyb ∧
    (s.busWrite a d).hw.skl = s.hw.skl ∧ (s.busWrite a d).hw.ctr = s.hw.ctr ∧
    (s.busWrite a d).hw.hsub = s.hw.hsub ∧ (s.busWrite a d).hw.eky0 = s.hw.eky0 ∧
    (s.busWrite a d).hw.gacc = s.hw.gacc ∧ (s.busWrite a d).hw.pend = s.hw.pend ∧
    (s.busWrite a d).hw.res = s.hw.res ∧ (s.busWrite a d).hw.eq = s.hw.eq ∧
    (s.busWrite a d).hw.outValid = s.hw.outValid ∧ (s.busWrite a d).hw.outLen = s.hw.outLen ∧
    (∀ x, outBase ≤ x → Memory.read (s.busWrite a d).hw.mem x = Memory.read s.hw.mem x) ∧
    ((s.busWrite a d).hw.phase ≠ s.hw.phase → a = 0x00C ∧ s.hw.busy = false) ∧
    (s.busWrite a d).par = s.par ∧ (s.busWrite a d).prov = s.prov

/-! ### Reset and the invariant -/

/-- The block at power-on reset: every register and internal item at its reset value, idle, with the interrupt masked and not
pending (10_state.md R20; 70_reset_and_hazards.md R271). What the buffers and the provider hold there is the model's choice
(assumption log 1 to 5, DESIGN CHOICE) and is not stated. -/
def Obligations.ResetValues : Prop :=
  let h := State.reset.hw
  h.irqEn = false ∧ h.busy = false ∧ h.done = false ∧ h.outValid = false ∧ h.eq = false ∧ h.errcode = 0 ∧
  h.keyLen = 0 ∧ h.nonceLen = 0 ∧ h.errDetail = 0 ∧ h.aadLen = 0 ∧ h.dataLen = 0 ∧ h.outLen = 0 ∧
  (∀ i, windowByte h.keyb i = 0) ∧ (∀ i, windowByte h.nonceb i = 0) ∧ h.opa = 0 ∧ h.opb = 0 ∧ h.res = 0 ∧
  h.session = .none ∧ (∀ i, windowByte h.skeyb i = 0) ∧ h.skl = 0 ∧ h.ctr = 0 ∧ h.hsub = 0 ∧ h.eky0 = 0 ∧
  h.gacc = 0 ∧ h.phase = .idle ∧ h.pend = none ∧ h.irq = false

/-- The reset event, whatever the core is doing: every item at its reset value, a running command and an outstanding request
abandoned with no completion, the buffers unchanged (70_reset_and_hazards.md R270). That reset is one move (assumption log 14,
DEDUCED) and leaves the parameters, the provider's coming answers and its record as they are (assumption log 13 and 14, DEDUCED)
is the model's reading: R272 has the provider reset with the core, and its next answer then goes to the next request. -/
def Obligations.ResetEvent : Prop :=
  ∀ (s : State) (ms : List Move), s.env.moves = .reset :: ms →
    ∃ t, step s = .next t ∧
      (∀ a, Memory.read t.hw.mem a = Memory.read s.hw.mem a) ∧
      t.hw = { State.reset.hw with mem := t.hw.mem } ∧
      t.hw.done = false ∧ t.hw.irq = false ∧ t.hw.phase = .idle ∧ t.hw.pend = none ∧
      t.hw.session = .none ∧ t.hw.skeyb = Vector.replicate 32 0 ∧ t.hw.skl = 0 ∧ t.hw.ctr = 0 ∧
      t.hw.hsub = 0 ∧ t.hw.eky0 = 0 ∧ t.hw.gacc = 0 ∧
      t.par = s.par ∧ t.prov = s.prov

/-- R274: after a reset there is no session, and without one ENCRYPT and DECRYPT complete with `NoSession` as long as no INIT is
issued, whatever else the host, the provider and the controller do; the WideInt128 commands, GF_MUL and (with the reset lengths)
GHASH complete with code 0 right after the reset. -/
def Obligations.NoSessionAfterReset : Prop :=
  (∀ (s : State) (i : Instr),
    s.env.moves = [.reset, .write 0x00C (encode i), .core] → i ≠ .init →
    ∃ t : State, core.run 3 s = .next t ∧ t.hw.session = .none ∧ t.hw.done = true ∧ t.hw.busy = false ∧
      t.hw.errcode = if sessionOperation i then 0x07 else 0x00) ∧
  ∀ s : State, s.hw.session = .none → (∀ w k, s.hw.phase = .exec w k → decode w ≠ .ok .init) →
    (∀ w, Move.write 0x00C w ∈ s.env.moves → decode w ≠ .ok .init) →
    ∀ (m : Nat), ∃ t : State, core.run m s = .next t ∧ t.hw.session = .none ∧
      ∀ i, sessionOperation i → t.issued i → exec i t = .next (t.completedAs t.hw 0x07 0)

/-- The invariant holds at reset. -/
def Obligations.ResetMeetsInvariant : Prop :=
  State.reset.Inv

/-- From every state that meets the invariant, whatever move comes, a step goes to a state that meets it: the buffer memory is
canonical and within the buffers, `PHASE` and `BUSY` agree, `SKL` is legal and the key copy zero-padded, hidden output has length
0, the one request out is the running session operation's with the session key, and the counter is that of the request sequence
(10_state.md, sections 1 to 6; 42_session.md, sections 1 to 6). From every state at all a step answers a next state: the core
has no traps of its own (60_exceptions.md, section 1), and a bus error is recorded while the machine goes on, which is the
model's choice (assumption log 8, DESIGN CHOICE). -/
def Obligations.StepKeepsInvariant : Prop :=
  (∀ s : State, ∃ t, step s = .next t) ∧ ∀ s t : State, s.Inv → step s = .next t → t.Inv

end Statements
end

