-- ==== Sys2Proof/Laws/State.lean ====
section
/-! SUPPORT. The field lemmas of the shared updates: what each writes and what it leaves (one lemma per field per update).
The updates of the block come first, then those of the whole state. `seal` keeps the proofs here from unrolling a store or a
product. -/

namespace Sys2Proof.Machine

seal memWrite gfmul

variable (h : HwState)

/-! ### `complete` -/

@[simp] theorem HwState.complete_irqEn (c : Byte) (d : Word) : (h.complete c d).irqEn = h.irqEn := rfl
@[simp] theorem HwState.complete_busy (c : Byte) (d : Word) : (h.complete c d).busy = false := rfl
@[simp] theorem HwState.complete_done (c : Byte) (d : Word) : (h.complete c d).done = true := rfl
@[simp] theorem HwState.complete_outValid (c : Byte) (d : Word) : (h.complete c d).outValid = h.outValid := rfl
@[simp] theorem HwState.complete_eq (c : Byte) (d : Word) : (h.complete c d).eq = h.eq := rfl
@[simp] theorem HwState.complete_errcode (c : Byte) (d : Word) : (h.complete c d).errcode = c := rfl
@[simp] theorem HwState.complete_keyLen (c : Byte) (d : Word) : (h.complete c d).keyLen = h.keyLen := rfl
@[simp] theorem HwState.complete_nonceLen (c : Byte) (d : Word) : (h.complete c d).nonceLen = h.nonceLen := rfl
@[simp] theorem HwState.complete_errDetail (c : Byte) (d : Word) : (h.complete c d).errDetail = d := rfl
@[simp] theorem HwState.complete_aadLen (c : Byte) (d : Word) : (h.complete c d).aadLen = h.aadLen := rfl
@[simp] theorem HwState.complete_dataLen (c : Byte) (d : Word) : (h.complete c d).dataLen = h.dataLen := rfl
@[simp] theorem HwState.complete_outLen (c : Byte) (d : Word) : (h.complete c d).outLen = h.outLen := rfl
@[simp] theorem HwState.complete_keyb (c : Byte) (d : Word) : (h.complete c d).keyb = h.keyb := rfl
@[simp] theorem HwState.complete_nonceb (c : Byte) (d : Word) : (h.complete c d).nonceb = h.nonceb := rfl
@[simp] theorem HwState.complete_opa (c : Byte) (d : Word) : (h.complete c d).opa = h.opa := rfl
@[simp] theorem HwState.complete_opb (c : Byte) (d : Word) : (h.complete c d).opb = h.opb := rfl
@[simp] theorem HwState.complete_res (c : Byte) (d : Word) : (h.complete c d).res = h.res := rfl
@[simp] theorem HwState.complete_mem (c : Byte) (d : Word) : (h.complete c d).mem = h.mem := rfl
@[simp] theorem HwState.complete_session (c : Byte) (d : Word) : (h.complete c d).session = h.session := rfl
@[simp] theorem HwState.complete_skeyb (c : Byte) (d : Word) : (h.complete c d).skeyb = h.skeyb := rfl
@[simp] theorem HwState.complete_skl (c : Byte) (d : Word) : (h.complete c d).skl = h.skl := rfl
@[simp] theorem HwState.complete_ctr (c : Byte) (d : Word) : (h.complete c d).ctr = h.ctr := rfl
@[simp] theorem HwState.complete_hsub (c : Byte) (d : Word) : (h.complete c d).hsub = h.hsub := rfl
@[simp] theorem HwState.complete_eky0 (c : Byte) (d : Word) : (h.complete c d).eky0 = h.eky0 := rfl
@[simp] theorem HwState.complete_gacc (c : Byte) (d : Word) : (h.complete c d).gacc = h.gacc := rfl
@[simp] theorem HwState.complete_phase (c : Byte) (d : Word) : (h.complete c d).phase = .idle := rfl
@[simp] theorem HwState.complete_pend (c : Byte) (d : Word) : (h.complete c d).pend = h.pend := rfl

/-! ### `finish` -/

@[simp] theorem HwState.finish_irqEn : (h.finish).irqEn = h.irqEn := rfl
@[simp] theorem HwState.finish_busy : (h.finish).busy = false := rfl
@[simp] theorem HwState.finish_done : (h.finish).done = true := rfl
@[simp] theorem HwState.finish_outValid : (h.finish).outValid = h.outValid := rfl
@[simp] theorem HwState.finish_eq : (h.finish).eq = h.eq := rfl
@[simp] theorem HwState.finish_errcode : (h.finish).errcode = 0 := rfl
@[simp] theorem HwState.finish_keyLen : (h.finish).keyLen = h.keyLen := rfl
@[simp] theorem HwState.finish_nonceLen : (h.finish).nonceLen = h.nonceLen := rfl
@[simp] theorem HwState.finish_errDetail : (h.finish).errDetail = 0 := rfl
@[simp] theorem HwState.finish_aadLen : (h.finish).aadLen = h.aadLen := rfl
@[simp] theorem HwState.finish_dataLen : (h.finish).dataLen = h.dataLen := rfl
@[simp] theorem HwState.finish_outLen : (h.finish).outLen = h.outLen := rfl
@[simp] theorem HwState.finish_keyb : (h.finish).keyb = h.keyb := rfl
@[simp] theorem HwState.finish_nonceb : (h.finish).nonceb = h.nonceb := rfl
@[simp] theorem HwState.finish_opa : (h.finish).opa = h.opa := rfl
@[simp] theorem HwState.finish_opb : (h.finish).opb = h.opb := rfl
@[simp] theorem HwState.finish_res : (h.finish).res = h.res := rfl
@[simp] theorem HwState.finish_mem : (h.finish).mem = h.mem := rfl
@[simp] theorem HwState.finish_session : (h.finish).session = h.session := rfl
@[simp] theorem HwState.finish_skeyb : (h.finish).skeyb = h.skeyb := rfl
@[simp] theorem HwState.finish_skl : (h.finish).skl = h.skl := rfl
@[simp] theorem HwState.finish_ctr : (h.finish).ctr = h.ctr := rfl
@[simp] theorem HwState.finish_hsub : (h.finish).hsub = h.hsub := rfl
@[simp] theorem HwState.finish_eky0 : (h.finish).eky0 = h.eky0 := rfl
@[simp] theorem HwState.finish_gacc : (h.finish).gacc = h.gacc := rfl
@[simp] theorem HwState.finish_phase : (h.finish).phase = .idle := rfl
@[simp] theorem HwState.finish_pend : (h.finish).pend = h.pend := rfl

/-! ### `raise` -/

@[simp] theorem HwState.raise_irqEn (e : ErrKind) (d : Word) : (h.raise e d).irqEn = h.irqEn := rfl
@[simp] theorem HwState.raise_busy (e : ErrKind) (d : Word) : (h.raise e d).busy = false := rfl
@[simp] theorem HwState.raise_done (e : ErrKind) (d : Word) : (h.raise e d).done = true := rfl
@[simp] theorem HwState.raise_outValid (e : ErrKind) (d : Word) : (h.raise e d).outValid = h.outValid := rfl
@[simp] theorem HwState.raise_eq (e : ErrKind) (d : Word) : (h.raise e d).eq = h.eq := rfl
@[simp] theorem HwState.raise_errcode (e : ErrKind) (d : Word) : (h.raise e d).errcode = errorCode e := rfl
@[simp] theorem HwState.raise_keyLen (e : ErrKind) (d : Word) : (h.raise e d).keyLen = h.keyLen := rfl
@[simp] theorem HwState.raise_nonceLen (e : ErrKind) (d : Word) : (h.raise e d).nonceLen = h.nonceLen := rfl
@[simp] theorem HwState.raise_errDetail (e : ErrKind) (d : Word) : (h.raise e d).errDetail = d := rfl
@[simp] theorem HwState.raise_aadLen (e : ErrKind) (d : Word) : (h.raise e d).aadLen = h.aadLen := rfl
@[simp] theorem HwState.raise_dataLen (e : ErrKind) (d : Word) : (h.raise e d).dataLen = h.dataLen := rfl
@[simp] theorem HwState.raise_outLen (e : ErrKind) (d : Word) : (h.raise e d).outLen = h.outLen := rfl
@[simp] theorem HwState.raise_keyb (e : ErrKind) (d : Word) : (h.raise e d).keyb = h.keyb := rfl
@[simp] theorem HwState.raise_nonceb (e : ErrKind) (d : Word) : (h.raise e d).nonceb = h.nonceb := rfl
@[simp] theorem HwState.raise_opa (e : ErrKind) (d : Word) : (h.raise e d).opa = h.opa := rfl
@[simp] theorem HwState.raise_opb (e : ErrKind) (d : Word) : (h.raise e d).opb = h.opb := rfl
@[simp] theorem HwState.raise_res (e : ErrKind) (d : Word) : (h.raise e d).res = h.res := rfl
@[simp] theorem HwState.raise_mem (e : ErrKind) (d : Word) : (h.raise e d).mem = h.mem := rfl
@[simp] theorem HwState.raise_session (e : ErrKind) (d : Word) : (h.raise e d).session = h.session := rfl
@[simp] theorem HwState.raise_skeyb (e : ErrKind) (d : Word) : (h.raise e d).skeyb = h.skeyb := rfl
@[simp] theorem HwState.raise_skl (e : ErrKind) (d : Word) : (h.raise e d).skl = h.skl := rfl
@[simp] theorem HwState.raise_ctr (e : ErrKind) (d : Word) : (h.raise e d).ctr = h.ctr := rfl
@[simp] theorem HwState.raise_hsub (e : ErrKind) (d : Word) : (h.raise e d).hsub = h.hsub := rfl
@[simp] theorem HwState.raise_eky0 (e : ErrKind) (d : Word) : (h.raise e d).eky0 = h.eky0 := rfl
@[simp] theorem HwState.raise_gacc (e : ErrKind) (d : Word) : (h.raise e d).gacc = h.gacc := rfl
@[simp] theorem HwState.raise_phase (e : ErrKind) (d : Word) : (h.raise e d).phase = .idle := rfl
@[simp] theorem HwState.raise_pend (e : ErrKind) (d : Word) : (h.raise e d).pend = h.pend := rfl

/-! ### `ackDone` -/

@[simp] theorem HwState.ackDone_irqEn : (h.ackDone).irqEn = h.irqEn := rfl
@[simp] theorem HwState.ackDone_busy : (h.ackDone).busy = h.busy := rfl
@[simp] theorem HwState.ackDone_done : (h.ackDone).done = false := rfl
@[simp] theorem HwState.ackDone_outValid : (h.ackDone).outValid = h.outValid := rfl
@[simp] theorem HwState.ackDone_eq : (h.ackDone).eq = h.eq := rfl
@[simp] theorem HwState.ackDone_errcode : (h.ackDone).errcode = h.errcode := rfl
@[simp] theorem HwState.ackDone_keyLen : (h.ackDone).keyLen = h.keyLen := rfl
@[simp] theorem HwState.ackDone_nonceLen : (h.ackDone).nonceLen = h.nonceLen := rfl
@[simp] theorem HwState.ackDone_errDetail : (h.ackDone).errDetail = h.errDetail := rfl
@[simp] theorem HwState.ackDone_aadLen : (h.ackDone).aadLen = h.aadLen := rfl
@[simp] theorem HwState.ackDone_dataLen : (h.ackDone).dataLen = h.dataLen := rfl
@[simp] theorem HwState.ackDone_outLen : (h.ackDone).outLen = h.outLen := rfl
@[simp] theorem HwState.ackDone_keyb : (h.ackDone).keyb = h.keyb := rfl
@[simp] theorem HwState.ackDone_nonceb : (h.ackDone).nonceb = h.nonceb := rfl
@[simp] theorem HwState.ackDone_opa : (h.ackDone).opa = h.opa := rfl
@[simp] theorem HwState.ackDone_opb : (h.ackDone).opb = h.opb := rfl
@[simp] theorem HwState.ackDone_res : (h.ackDone).res = h.res := rfl
@[simp] theorem HwState.ackDone_mem : (h.ackDone).mem = h.mem := rfl
@[simp] theorem HwState.ackDone_session : (h.ackDone).session = h.session := rfl
@[simp] theorem HwState.ackDone_skeyb : (h.ackDone).skeyb = h.skeyb := rfl
@[simp] theorem HwState.ackDone_skl : (h.ackDone).skl = h.skl := rfl
@[simp] theorem HwState.ackDone_ctr : (h.ackDone).ctr = h.ctr := rfl
@[simp] theorem HwState.ackDone_hsub : (h.ackDone).hsub = h.hsub := rfl
@[simp] theorem HwState.ackDone_eky0 : (h.ackDone).eky0 = h.eky0 := rfl
@[simp] theorem HwState.ackDone_gacc : (h.ackDone).gacc = h.gacc := rfl
@[simp] theorem HwState.ackDone_phase : (h.ackDone).phase = h.phase := rfl
@[simp] theorem HwState.ackDone_pend : (h.ackDone).pend = h.pend := rfl

/-! ### `issue` -/

@[simp] theorem HwState.issue_irqEn (w : Word) : (h.issue w).irqEn = h.irqEn := rfl
@[simp] theorem HwState.issue_busy (w : Word) : (h.issue w).busy = true := rfl
@[simp] theorem HwState.issue_done (w : Word) : (h.issue w).done = false := rfl
@[simp] theorem HwState.issue_outValid (w : Word) : (h.issue w).outValid = h.outValid := rfl
@[simp] theorem HwState.issue_eq (w : Word) : (h.issue w).eq = h.eq := rfl
@[simp] theorem HwState.issue_errcode (w : Word) : (h.issue w).errcode = 0 := rfl
@[simp] theorem HwState.issue_keyLen (w : Word) : (h.issue w).keyLen = h.keyLen := rfl
@[simp] theorem HwState.issue_nonceLen (w : Word) : (h.issue w).nonceLen = h.nonceLen := rfl
@[simp] theorem HwState.issue_errDetail (w : Word) : (h.issue w).errDetail = 0 := rfl
@[simp] theorem HwState.issue_aadLen (w : Word) : (h.issue w).aadLen = h.aadLen := rfl
@[simp] theorem HwState.issue_dataLen (w : Word) : (h.issue w).dataLen = h.dataLen := rfl
@[simp] theorem HwState.issue_outLen (w : Word) : (h.issue w).outLen = h.outLen := rfl
@[simp] theorem HwState.issue_keyb (w : Word) : (h.issue w).keyb = h.keyb := rfl
@[simp] theorem HwState.issue_nonceb (w : Word) : (h.issue w).nonceb = h.nonceb := rfl
@[simp] theorem HwState.issue_opa (w : Word) : (h.issue w).opa = h.opa := rfl
@[simp] theorem HwState.issue_opb (w : Word) : (h.issue w).opb = h.opb := rfl
@[simp] theorem HwState.issue_res (w : Word) : (h.issue w).res = h.res := rfl
@[simp] theorem HwState.issue_mem (w : Word) : (h.issue w).mem = h.mem := rfl
@[simp] theorem HwState.issue_session (w : Word) : (h.issue w).session = h.session := rfl
@[simp] theorem HwState.issue_skeyb (w : Word) : (h.issue w).skeyb = h.skeyb := rfl
@[simp] theorem HwState.issue_skl (w : Word) : (h.issue w).skl = h.skl := rfl
@[simp] theorem HwState.issue_ctr (w : Word) : (h.issue w).ctr = h.ctr := rfl
@[simp] theorem HwState.issue_hsub (w : Word) : (h.issue w).hsub = h.hsub := rfl
@[simp] theorem HwState.issue_eky0 (w : Word) : (h.issue w).eky0 = h.eky0 := rfl
@[simp] theorem HwState.issue_gacc (w : Word) : (h.issue w).gacc = h.gacc := rfl
@[simp] theorem HwState.issue_phase (w : Word) : (h.issue w).phase = .exec w 0 := rfl
@[simp] theorem HwState.issue_pend (w : Word) : (h.issue w).pend = h.pend := rfl

/-! ### `setRes` -/

@[simp] theorem HwState.setRes_irqEn (v : U128) : (h.setRes v).irqEn = h.irqEn := rfl
@[simp] theorem HwState.setRes_busy (v : U128) : (h.setRes v).busy = h.busy := rfl
@[simp] theorem HwState.setRes_done (v : U128) : (h.setRes v).done = h.done := rfl
@[simp] theorem HwState.setRes_outValid (v : U128) : (h.setRes v).outValid = h.outValid := rfl
@[simp] theorem HwState.setRes_eq (v : U128) : (h.setRes v).eq = h.eq := rfl
@[simp] theorem HwState.setRes_errcode (v : U128) : (h.setRes v).errcode = h.errcode := rfl
@[simp] theorem HwState.setRes_keyLen (v : U128) : (h.setRes v).keyLen = h.keyLen := rfl
@[simp] theorem HwState.setRes_nonceLen (v : U128) : (h.setRes v).nonceLen = h.nonceLen := rfl
@[simp] theorem HwState.setRes_errDetail (v : U128) : (h.setRes v).errDetail = h.errDetail := rfl
@[simp] theorem HwState.setRes_aadLen (v : U128) : (h.setRes v).aadLen = h.aadLen := rfl
@[simp] theorem HwState.setRes_dataLen (v : U128) : (h.setRes v).dataLen = h.dataLen := rfl
@[simp] theorem HwState.setRes_outLen (v : U128) : (h.setRes v).outLen = h.outLen := rfl
@[simp] theorem HwState.setRes_keyb (v : U128) : (h.setRes v).keyb = h.keyb := rfl
@[simp] theorem HwState.setRes_nonceb (v : U128) : (h.setRes v).nonceb = h.nonceb := rfl
@[simp] theorem HwState.setRes_opa (v : U128) : (h.setRes v).opa = h.opa := rfl
@[simp] theorem HwState.setRes_opb (v : U128) : (h.setRes v).opb = h.opb := rfl
@[simp] theorem HwState.setRes_res (v : U128) : (h.setRes v).res = v := rfl
@[simp] theorem HwState.setRes_mem (v : U128) : (h.setRes v).mem = h.mem := rfl
@[simp] theorem HwState.setRes_session (v : U128) : (h.setRes v).session = h.session := rfl
@[simp] theorem HwState.setRes_skeyb (v : U128) : (h.setRes v).skeyb = h.skeyb := rfl
@[simp] theorem HwState.setRes_skl (v : U128) : (h.setRes v).skl = h.skl := rfl
@[simp] theorem HwState.setRes_ctr (v : U128) : (h.setRes v).ctr = h.ctr := rfl
@[simp] theorem HwState.setRes_hsub (v : U128) : (h.setRes v).hsub = h.hsub := rfl
@[simp] theorem HwState.setRes_eky0 (v : U128) : (h.setRes v).eky0 = h.eky0 := rfl
@[simp] theorem HwState.setRes_gacc (v : U128) : (h.setRes v).gacc = h.gacc := rfl
@[simp] theorem HwState.setRes_phase (v : U128) : (h.setRes v).phase = h.phase := rfl
@[simp] theorem HwState.setRes_pend (v : U128) : (h.setRes v).pend = h.pend := rfl

/-! ### `setEq` -/

@[simp] theorem HwState.setEq_irqEn (b : Bool) : (h.setEq b).irqEn = h.irqEn := rfl
@[simp] theorem HwState.setEq_busy (b : Bool) : (h.setEq b).busy = h.busy := rfl
@[simp] theorem HwState.setEq_done (b : Bool) : (h.setEq b).done = h.done := rfl
@[simp] theorem HwState.setEq_outValid (b : Bool) : (h.setEq b).outValid = h.outValid := rfl
@[simp] theorem HwState.setEq_eq (b : Bool) : (h.setEq b).eq = b := rfl
@[simp] theorem HwState.setEq_errcode (b : Bool) : (h.setEq b).errcode = h.errcode := rfl
@[simp] theorem HwState.setEq_keyLen (b : Bool) : (h.setEq b).keyLen = h.keyLen := rfl
@[simp] theorem HwState.setEq_nonceLen (b : Bool) : (h.setEq b).nonceLen = h.nonceLen := rfl
@[simp] theorem HwState.setEq_errDetail (b : Bool) : (h.setEq b).errDetail = h.errDetail := rfl
@[simp] theorem HwState.setEq_aadLen (b : Bool) : (h.setEq b).aadLen = h.aadLen := rfl
@[simp] theorem HwState.setEq_dataLen (b : Bool) : (h.setEq b).dataLen = h.dataLen := rfl
@[simp] theorem HwState.setEq_outLen (b : Bool) : (h.setEq b).outLen = h.outLen := rfl
@[simp] theorem HwState.setEq_keyb (b : Bool) : (h.setEq b).keyb = h.keyb := rfl
@[simp] theorem HwState.setEq_nonceb (b : Bool) : (h.setEq b).nonceb = h.nonceb := rfl
@[simp] theorem HwState.setEq_opa (b : Bool) : (h.setEq b).opa = h.opa := rfl
@[simp] theorem HwState.setEq_opb (b : Bool) : (h.setEq b).opb = h.opb := rfl
@[simp] theorem HwState.setEq_res (b : Bool) : (h.setEq b).res = h.res := rfl
@[simp] theorem HwState.setEq_mem (b : Bool) : (h.setEq b).mem = h.mem := rfl
@[simp] theorem HwState.setEq_session (b : Bool) : (h.setEq b).session = h.session := rfl
@[simp] theorem HwState.setEq_skeyb (b : Bool) : (h.setEq b).skeyb = h.skeyb := rfl
@[simp] theorem HwState.setEq_skl (b : Bool) : (h.setEq b).skl = h.skl := rfl
@[simp] theorem HwState.setEq_ctr (b : Bool) : (h.setEq b).ctr = h.ctr := rfl
@[simp] theorem HwState.setEq_hsub (b : Bool) : (h.setEq b).hsub = h.hsub := rfl
@[simp] theorem HwState.setEq_eky0 (b : Bool) : (h.setEq b).eky0 = h.eky0 := rfl
@[simp] theorem HwState.setEq_gacc (b : Bool) : (h.setEq b).gacc = h.gacc := rfl
@[simp] theorem HwState.setEq_phase (b : Bool) : (h.setEq b).phase = h.phase := rfl
@[simp] theorem HwState.setEq_pend (b : Bool) : (h.setEq b).pend = h.pend := rfl

/-! ### `hideOutput` -/

@[simp] theorem HwState.hideOutput_irqEn : (h.hideOutput).irqEn = h.irqEn := rfl
@[simp] theorem HwState.hideOutput_busy : (h.hideOutput).busy = h.busy := rfl
@[simp] theorem HwState.hideOutput_done : (h.hideOutput).done = h.done := rfl
@[simp] theorem HwState.hideOutput_outValid : (h.hideOutput).outValid = false := rfl
@[simp] theorem HwState.hideOutput_eq : (h.hideOutput).eq = h.eq := rfl
@[simp] theorem HwState.hideOutput_errcode : (h.hideOutput).errcode = h.errcode := rfl
@[simp] theorem HwState.hideOutput_keyLen : (h.hideOutput).keyLen = h.keyLen := rfl
@[simp] theorem HwState.hideOutput_nonceLen : (h.hideOutput).nonceLen = h.nonceLen := rfl
@[simp] theorem HwState.hideOutput_errDetail : (h.hideOutput).errDetail = h.errDetail := rfl
@[simp] theorem HwState.hideOutput_aadLen : (h.hideOutput).aadLen = h.aadLen := rfl
@[simp] theorem HwState.hideOutput_dataLen : (h.hideOutput).dataLen = h.dataLen := rfl
@[simp] theorem HwState.hideOutput_outLen : (h.hideOutput).outLen = 0 := rfl
@[simp] theorem HwState.hideOutput_keyb : (h.hideOutput).keyb = h.keyb := rfl
@[simp] theorem HwState.hideOutput_nonceb : (h.hideOutput).nonceb = h.nonceb := rfl
@[simp] theorem HwState.hideOutput_opa : (h.hideOutput).opa = h.opa := rfl
@[simp] theorem HwState.hideOutput_opb : (h.hideOutput).opb = h.opb := rfl
@[simp] theorem HwState.hideOutput_res : (h.hideOutput).res = h.res := rfl
@[simp] theorem HwState.hideOutput_mem : (h.hideOutput).mem = h.mem := rfl
@[simp] theorem HwState.hideOutput_session : (h.hideOutput).session = h.session := rfl
@[simp] theorem HwState.hideOutput_skeyb : (h.hideOutput).skeyb = h.skeyb := rfl
@[simp] theorem HwState.hideOutput_skl : (h.hideOutput).skl = h.skl := rfl
@[simp] theorem HwState.hideOutput_ctr : (h.hideOutput).ctr = h.ctr := rfl
@[simp] theorem HwState.hideOutput_hsub : (h.hideOutput).hsub = h.hsub := rfl
@[simp] theorem HwState.hideOutput_eky0 : (h.hideOutput).eky0 = h.eky0 := rfl
@[simp] theorem HwState.hideOutput_gacc : (h.hideOutput).gacc = h.gacc := rfl
@[simp] theorem HwState.hideOutput_phase : (h.hideOutput).phase = h.phase := rfl
@[simp] theorem HwState.hideOutput_pend : (h.hideOutput).pend = h.pend := rfl

/-! ### `showOutput` -/

@[simp] theorem HwState.showOutput_irqEn (n : Word) : (h.showOutput n).irqEn = h.irqEn := rfl
@[simp] theorem HwState.showOutput_busy (n : Word) : (h.showOutput n).busy = h.busy := rfl
@[simp] theorem HwState.showOutput_done (n : Word) : (h.showOutput n).done = h.done := rfl
@[simp] theorem HwState.showOutput_outValid (n : Word) : (h.showOutput n).outValid = true := rfl
@[simp] theorem HwState.showOutput_eq (n : Word) : (h.showOutput n).eq = h.eq := rfl
@[simp] theorem HwState.showOutput_errcode (n : Word) : (h.showOutput n).errcode = h.errcode := rfl
@[simp] theorem HwState.showOutput_keyLen (n : Word) : (h.showOutput n).keyLen = h.keyLen := rfl
@[simp] theorem HwState.showOutput_nonceLen (n : Word) : (h.showOutput n).nonceLen = h.nonceLen := rfl
@[simp] theorem HwState.showOutput_errDetail (n : Word) : (h.showOutput n).errDetail = h.errDetail := rfl
@[simp] theorem HwState.showOutput_aadLen (n : Word) : (h.showOutput n).aadLen = h.aadLen := rfl
@[simp] theorem HwState.showOutput_dataLen (n : Word) : (h.showOutput n).dataLen = h.dataLen := rfl
@[simp] theorem HwState.showOutput_outLen (n : Word) : (h.showOutput n).outLen = n := rfl
@[simp] theorem HwState.showOutput_keyb (n : Word) : (h.showOutput n).keyb = h.keyb := rfl
@[simp] theorem HwState.showOutput_nonceb (n : Word) : (h.showOutput n).nonceb = h.nonceb := rfl
@[simp] theorem HwState.showOutput_opa (n : Word) : (h.showOutput n).opa = h.opa := rfl
@[simp] theorem HwState.showOutput_opb (n : Word) : (h.showOutput n).opb = h.opb := rfl
@[simp] theorem HwState.showOutput_res (n : Word) : (h.showOutput n).res = h.res := rfl
@[simp] theorem HwState.showOutput_mem (n : Word) : (h.showOutput n).mem = h.mem := rfl
@[simp] theorem HwState.showOutput_session (n : Word) : (h.showOutput n).session = h.session := rfl
@[simp] theorem HwState.showOutput_skeyb (n : Word) : (h.showOutput n).skeyb = h.skeyb := rfl
@[simp] theorem HwState.showOutput_skl (n : Word) : (h.showOutput n).skl = h.skl := rfl
@[simp] theorem HwState.showOutput_ctr (n : Word) : (h.showOutput n).ctr = h.ctr := rfl
@[simp] theorem HwState.showOutput_hsub (n : Word) : (h.showOutput n).hsub = h.hsub := rfl
@[simp] theorem HwState.showOutput_eky0 (n : Word) : (h.showOutput n).eky0 = h.eky0 := rfl
@[simp] theorem HwState.showOutput_gacc (n : Word) : (h.showOutput n).gacc = h.gacc := rfl
@[simp] theorem HwState.showOutput_phase (n : Word) : (h.showOutput n).phase = h.phase := rfl
@[simp] theorem HwState.showOutput_pend (n : Word) : (h.showOutput n).pend = h.pend := rfl

/-! ### `clearSession` -/

@[simp] theorem HwState.clearSession_irqEn : (h.clearSession).irqEn = h.irqEn := rfl
@[simp] theorem HwState.clearSession_busy : (h.clearSession).busy = h.busy := rfl
@[simp] theorem HwState.clearSession_done : (h.clearSession).done = h.done := rfl
@[simp] theorem HwState.clearSession_outValid : (h.clearSession).outValid = h.outValid := rfl
@[simp] theorem HwState.clearSession_eq : (h.clearSession).eq = h.eq := rfl
@[simp] theorem HwState.clearSession_errcode : (h.clearSession).errcode = h.errcode := rfl
@[simp] theorem HwState.clearSession_keyLen : (h.clearSession).keyLen = h.keyLen := rfl
@[simp] theorem HwState.clearSession_nonceLen : (h.clearSession).nonceLen = h.nonceLen := rfl
@[simp] theorem HwState.clearSession_errDetail : (h.clearSession).errDetail = h.errDetail := rfl
@[simp] theorem HwState.clearSession_aadLen : (h.clearSession).aadLen = h.aadLen := rfl
@[simp] theorem HwState.clearSession_dataLen : (h.clearSession).dataLen = h.dataLen := rfl
@[simp] theorem HwState.clearSession_outLen : (h.clearSession).outLen = h.outLen := rfl
@[simp] theorem HwState.clearSession_keyb : (h.clearSession).keyb = h.keyb := rfl
@[simp] theorem HwState.clearSession_nonceb : (h.clearSession).nonceb = h.nonceb := rfl
@[simp] theorem HwState.clearSession_opa : (h.clearSession).opa = h.opa := rfl
@[simp] theorem HwState.clearSession_opb : (h.clearSession).opb = h.opb := rfl
@[simp] theorem HwState.clearSession_res : (h.clearSession).res = h.res := rfl
@[simp] theorem HwState.clearSession_mem : (h.clearSession).mem = h.mem := rfl
@[simp] theorem HwState.clearSession_session : (h.clearSession).session = .none := rfl
@[simp] theorem HwState.clearSession_skeyb : (h.clearSession).skeyb = Vector.replicate 32 0 := rfl
@[simp] theorem HwState.clearSession_skl : (h.clearSession).skl = 0 := rfl
@[simp] theorem HwState.clearSession_ctr : (h.clearSession).ctr = 0 := rfl
@[simp] theorem HwState.clearSession_hsub : (h.clearSession).hsub = 0 := rfl
@[simp] theorem HwState.clearSession_eky0 : (h.clearSession).eky0 = 0 := rfl
@[simp] theorem HwState.clearSession_gacc : (h.clearSession).gacc = 0 := rfl
@[simp] theorem HwState.clearSession_phase : (h.clearSession).phase = h.phase := rfl
@[simp] theorem HwState.clearSession_pend : (h.clearSession).pend = h.pend := rfl

/-! ### `claimSession` -/

@[simp] theorem HwState.claimSession_irqEn : (h.claimSession).irqEn = h.irqEn := rfl
@[simp] theorem HwState.claimSession_busy : (h.claimSession).busy = h.busy := rfl
@[simp] theorem HwState.claimSession_done : (h.claimSession).done = h.done := rfl
@[simp] theorem HwState.claimSession_outValid : (h.claimSession).outValid = false := rfl
@[simp] theorem HwState.claimSession_eq : (h.claimSession).eq = h.eq := rfl
@[simp] theorem HwState.claimSession_errcode : (h.claimSession).errcode = h.errcode := rfl
@[simp] theorem HwState.claimSession_keyLen : (h.claimSession).keyLen = h.keyLen := rfl
@[simp] theorem HwState.claimSession_nonceLen : (h.claimSession).nonceLen = h.nonceLen := rfl
@[simp] theorem HwState.claimSession_errDetail : (h.claimSession).errDetail = h.errDetail := rfl
@[simp] theorem HwState.claimSession_aadLen : (h.claimSession).aadLen = h.aadLen := rfl
@[simp] theorem HwState.claimSession_dataLen : (h.claimSession).dataLen = h.dataLen := rfl
@[simp] theorem HwState.claimSession_outLen : (h.claimSession).outLen = 0 := rfl
@[simp] theorem HwState.claimSession_keyb : (h.claimSession).keyb = h.keyb := rfl
@[simp] theorem HwState.claimSession_nonceb : (h.claimSession).nonceb = h.nonceb := rfl
@[simp] theorem HwState.claimSession_opa : (h.claimSession).opa = h.opa := rfl
@[simp] theorem HwState.claimSession_opb : (h.claimSession).opb = h.opb := rfl
@[simp] theorem HwState.claimSession_res : (h.claimSession).res = h.res := rfl
@[simp] theorem HwState.claimSession_mem : (h.claimSession).mem = h.mem := rfl
@[simp] theorem HwState.claimSession_session : (h.claimSession).session = .used := rfl
@[simp] theorem HwState.claimSession_skeyb : (h.claimSession).skeyb = h.skeyb := rfl
@[simp] theorem HwState.claimSession_skl : (h.claimSession).skl = h.skl := rfl
@[simp] theorem HwState.claimSession_ctr : (h.claimSession).ctr = h.ctr := rfl
@[simp] theorem HwState.claimSession_hsub : (h.claimSession).hsub = h.hsub := rfl
@[simp] theorem HwState.claimSession_eky0 : (h.claimSession).eky0 = h.eky0 := rfl
@[simp] theorem HwState.claimSession_gacc : (h.claimSession).gacc = h.gacc := rfl
@[simp] theorem HwState.claimSession_phase : (h.claimSession).phase = h.phase := rfl
@[simp] theorem HwState.claimSession_pend : (h.claimSession).pend = h.pend := rfl

/-! ### `store` -/

@[simp] theorem HwState.store_irqEn (a : Nat) (bs : List Byte) : (h.store a bs).irqEn = h.irqEn := rfl
@[simp] theorem HwState.store_busy (a : Nat) (bs : List Byte) : (h.store a bs).busy = h.busy := rfl
@[simp] theorem HwState.store_done (a : Nat) (bs : List Byte) : (h.store a bs).done = h.done := rfl
@[simp] theorem HwState.store_outValid (a : Nat) (bs : List Byte) : (h.store a bs).outValid = h.outValid := rfl
@[simp] theorem HwState.store_eq (a : Nat) (bs : List Byte) : (h.store a bs).eq = h.eq := rfl
@[simp] theorem HwState.store_errcode (a : Nat) (bs : List Byte) : (h.store a bs).errcode = h.errcode := rfl
@[simp] theorem HwState.store_keyLen (a : Nat) (bs : List Byte) : (h.store a bs).keyLen = h.keyLen := rfl
@[simp] theorem HwState.store_nonceLen (a : Nat) (bs : List Byte) : (h.store a bs).nonceLen = h.nonceLen := rfl
@[simp] theorem HwState.store_errDetail (a : Nat) (bs : List Byte) : (h.store a bs).errDetail = h.errDetail := rfl
@[simp] theorem HwState.store_aadLen (a : Nat) (bs : List Byte) : (h.store a bs).aadLen = h.aadLen := rfl
@[simp] theorem HwState.store_dataLen (a : Nat) (bs : List Byte) : (h.store a bs).dataLen = h.dataLen := rfl
@[simp] theorem HwState.store_outLen (a : Nat) (bs : List Byte) : (h.store a bs).outLen = h.outLen := rfl
@[simp] theorem HwState.store_keyb (a : Nat) (bs : List Byte) : (h.store a bs).keyb = h.keyb := rfl
@[simp] theorem HwState.store_nonceb (a : Nat) (bs : List Byte) : (h.store a bs).nonceb = h.nonceb := rfl
@[simp] theorem HwState.store_opa (a : Nat) (bs : List Byte) : (h.store a bs).opa = h.opa := rfl
@[simp] theorem HwState.store_opb (a : Nat) (bs : List Byte) : (h.store a bs).opb = h.opb := rfl
@[simp] theorem HwState.store_res (a : Nat) (bs : List Byte) : (h.store a bs).res = h.res := rfl
@[simp] theorem HwState.store_mem (a : Nat) (bs : List Byte) : (h.store a bs).mem = memWrite h.mem a bs := rfl
@[simp] theorem HwState.store_session (a : Nat) (bs : List Byte) : (h.store a bs).session = h.session := rfl
@[simp] theorem HwState.store_skeyb (a : Nat) (bs : List Byte) : (h.store a bs).skeyb = h.skeyb := rfl
@[simp] theorem HwState.store_skl (a : Nat) (bs : List Byte) : (h.store a bs).skl = h.skl := rfl
@[simp] theorem HwState.store_ctr (a : Nat) (bs : List Byte) : (h.store a bs).ctr = h.ctr := rfl
@[simp] theorem HwState.store_hsub (a : Nat) (bs : List Byte) : (h.store a bs).hsub = h.hsub := rfl
@[simp] theorem HwState.store_eky0 (a : Nat) (bs : List Byte) : (h.store a bs).eky0 = h.eky0 := rfl
@[simp] theorem HwState.store_gacc (a : Nat) (bs : List Byte) : (h.store a bs).gacc = h.gacc := rfl
@[simp] theorem HwState.store_phase (a : Nat) (bs : List Byte) : (h.store a bs).phase = h.phase := rfl
@[simp] theorem HwState.store_pend (a : Nat) (bs : List Byte) : (h.store a bs).pend = h.pend := rfl

/-! ### `received` -/

@[simp] theorem HwState.received_irqEn : (h.received).irqEn = h.irqEn := rfl
@[simp] theorem HwState.received_busy : (h.received).busy = h.busy := rfl
@[simp] theorem HwState.received_done : (h.received).done = h.done := rfl
@[simp] theorem HwState.received_outValid : (h.received).outValid = h.outValid := rfl
@[simp] theorem HwState.received_eq : (h.received).eq = h.eq := rfl
@[simp] theorem HwState.received_errcode : (h.received).errcode = h.errcode := rfl
@[simp] theorem HwState.received_keyLen : (h.received).keyLen = h.keyLen := rfl
@[simp] theorem HwState.received_nonceLen : (h.received).nonceLen = h.nonceLen := rfl
@[simp] theorem HwState.received_errDetail : (h.received).errDetail = h.errDetail := rfl
@[simp] theorem HwState.received_aadLen : (h.received).aadLen = h.aadLen := rfl
@[simp] theorem HwState.received_dataLen : (h.received).dataLen = h.dataLen := rfl
@[simp] theorem HwState.received_outLen : (h.received).outLen = h.outLen := rfl
@[simp] theorem HwState.received_keyb : (h.received).keyb = h.keyb := rfl
@[simp] theorem HwState.received_nonceb : (h.received).nonceb = h.nonceb := rfl
@[simp] theorem HwState.received_opa : (h.received).opa = h.opa := rfl
@[simp] theorem HwState.received_opb : (h.received).opb = h.opb := rfl
@[simp] theorem HwState.received_res : (h.received).res = h.res := rfl
@[simp] theorem HwState.received_mem : (h.received).mem = h.mem := rfl
@[simp] theorem HwState.received_session : (h.received).session = h.session := rfl
@[simp] theorem HwState.received_skeyb : (h.received).skeyb = h.skeyb := rfl
@[simp] theorem HwState.received_skl : (h.received).skl = h.skl := rfl
@[simp] theorem HwState.received_ctr : (h.received).ctr = h.ctr := rfl
@[simp] theorem HwState.received_hsub : (h.received).hsub = h.hsub := rfl
@[simp] theorem HwState.received_eky0 : (h.received).eky0 = h.eky0 := rfl
@[simp] theorem HwState.received_gacc : (h.received).gacc = h.gacc := rfl
@[simp] theorem HwState.received_phase : (h.received).phase = h.phase.next := rfl
@[simp] theorem HwState.received_pend : (h.received).pend = none := rfl

/-! ### `hash` -/

@[simp] theorem HwState.hash_irqEn (k : U128) (a c : List Byte) : (h.hash k a c).irqEn = h.irqEn := rfl
@[simp] theorem HwState.hash_busy (k : U128) (a c : List Byte) : (h.hash k a c).busy = h.busy := rfl
@[simp] theorem HwState.hash_done (k : U128) (a c : List Byte) : (h.hash k a c).done = h.done := rfl
@[simp] theorem HwState.hash_outValid (k : U128) (a c : List Byte) : (h.hash k a c).outValid = h.outValid := rfl
@[simp] theorem HwState.hash_eq (k : U128) (a c : List Byte) : (h.hash k a c).eq = h.eq := rfl
@[simp] theorem HwState.hash_errcode (k : U128) (a c : List Byte) : (h.hash k a c).errcode = h.errcode := rfl
@[simp] theorem HwState.hash_keyLen (k : U128) (a c : List Byte) : (h.hash k a c).keyLen = h.keyLen := rfl
@[simp] theorem HwState.hash_nonceLen (k : U128) (a c : List Byte) : (h.hash k a c).nonceLen = h.nonceLen := rfl
@[simp] theorem HwState.hash_errDetail (k : U128) (a c : List Byte) : (h.hash k a c).errDetail = h.errDetail := rfl
@[simp] theorem HwState.hash_aadLen (k : U128) (a c : List Byte) : (h.hash k a c).aadLen = h.aadLen := rfl
@[simp] theorem HwState.hash_dataLen (k : U128) (a c : List Byte) : (h.hash k a c).dataLen = h.dataLen := rfl
@[simp] theorem HwState.hash_outLen (k : U128) (a c : List Byte) : (h.hash k a c).outLen = h.outLen := rfl
@[simp] theorem HwState.hash_keyb (k : U128) (a c : List Byte) : (h.hash k a c).keyb = h.keyb := rfl
@[simp] theorem HwState.hash_nonceb (k : U128) (a c : List Byte) : (h.hash k a c).nonceb = h.nonceb := rfl
@[simp] theorem HwState.hash_opa (k : U128) (a c : List Byte) : (h.hash k a c).opa = h.opa := rfl
@[simp] theorem HwState.hash_opb (k : U128) (a c : List Byte) : (h.hash k a c).opb = h.opb := rfl
@[simp] theorem HwState.hash_res (k : U128) (a c : List Byte) : (h.hash k a c).res = h.res := rfl
@[simp] theorem HwState.hash_mem (k : U128) (a c : List Byte) : (h.hash k a c).mem = h.mem := rfl
@[simp] theorem HwState.hash_session (k : U128) (a c : List Byte) : (h.hash k a c).session = h.session := rfl
@[simp] theorem HwState.hash_skeyb (k : U128) (a c : List Byte) : (h.hash k a c).skeyb = h.skeyb := rfl
@[simp] theorem HwState.hash_skl (k : U128) (a c : List Byte) : (h.hash k a c).skl = h.skl := rfl
@[simp] theorem HwState.hash_ctr (k : U128) (a c : List Byte) : (h.hash k a c).ctr = h.ctr := rfl
@[simp] theorem HwState.hash_hsub (k : U128) (a c : List Byte) : (h.hash k a c).hsub = h.hsub := rfl
@[simp] theorem HwState.hash_eky0 (k : U128) (a c : List Byte) : (h.hash k a c).eky0 = h.eky0 := rfl
@[simp] theorem HwState.hash_gacc (k : U128) (a c : List Byte) : (h.hash k a c).gacc = ghash k a c := rfl
@[simp] theorem HwState.hash_phase (k : U128) (a c : List Byte) : (h.hash k a c).phase = h.phase := rfl
@[simp] theorem HwState.hash_pend (k : U128) (a c : List Byte) : (h.hash k a c).pend = h.pend := rfl

/-! ### `hashData` -/

@[simp] theorem HwState.hashData_irqEn : (h.hashData).irqEn = h.irqEn := rfl
@[simp] theorem HwState.hashData_busy : (h.hashData).busy = h.busy := rfl
@[simp] theorem HwState.hashData_done : (h.hashData).done = h.done := rfl
@[simp] theorem HwState.hashData_outValid : (h.hashData).outValid = h.outValid := rfl
@[simp] theorem HwState.hashData_eq : (h.hashData).eq = h.eq := rfl
@[simp] theorem HwState.hashData_errcode : (h.hashData).errcode = h.errcode := rfl
@[simp] theorem HwState.hashData_keyLen : (h.hashData).keyLen = h.keyLen := rfl
@[simp] theorem HwState.hashData_nonceLen : (h.hashData).nonceLen = h.nonceLen := rfl
@[simp] theorem HwState.hashData_errDetail : (h.hashData).errDetail = h.errDetail := rfl
@[simp] theorem HwState.hashData_aadLen : (h.hashData).aadLen = h.aadLen := rfl
@[simp] theorem HwState.hashData_dataLen : (h.hashData).dataLen = h.dataLen := rfl
@[simp] theorem HwState.hashData_outLen : (h.hashData).outLen = h.outLen := rfl
@[simp] theorem HwState.hashData_keyb : (h.hashData).keyb = h.keyb := rfl
@[simp] theorem HwState.hashData_nonceb : (h.hashData).nonceb = h.nonceb := rfl
@[simp] theorem HwState.hashData_opa : (h.hashData).opa = h.opa := rfl
@[simp] theorem HwState.hashData_opb : (h.hashData).opb = h.opb := rfl
@[simp] theorem HwState.hashData_res : (h.hashData).res = h.res := rfl
@[simp] theorem HwState.hashData_mem : (h.hashData).mem = h.mem := rfl
@[simp] theorem HwState.hashData_session : (h.hashData).session = h.session := rfl
@[simp] theorem HwState.hashData_skeyb : (h.hashData).skeyb = h.skeyb := rfl
@[simp] theorem HwState.hashData_skl : (h.hashData).skl = h.skl := rfl
@[simp] theorem HwState.hashData_ctr : (h.hashData).ctr = h.ctr := rfl
@[simp] theorem HwState.hashData_hsub : (h.hashData).hsub = h.hsub := rfl
@[simp] theorem HwState.hashData_eky0 : (h.hashData).eky0 = h.eky0 := rfl
@[simp] theorem HwState.hashData_gacc : (h.hashData).gacc = ghash h.opa h.aad (h.data h.dataLen.toNat) := rfl
@[simp] theorem HwState.hashData_phase : (h.hashData).phase = h.phase := rfl
@[simp] theorem HwState.hashData_pend : (h.hashData).pend = h.pend := rfl

/-! ### `resFromGacc` -/

@[simp] theorem HwState.resFromGacc_irqEn : (h.resFromGacc).irqEn = h.irqEn := rfl
@[simp] theorem HwState.resFromGacc_busy : (h.resFromGacc).busy = h.busy := rfl
@[simp] theorem HwState.resFromGacc_done : (h.resFromGacc).done = h.done := rfl
@[simp] theorem HwState.resFromGacc_outValid : (h.resFromGacc).outValid = h.outValid := rfl
@[simp] theorem HwState.resFromGacc_eq : (h.resFromGacc).eq = h.eq := rfl
@[simp] theorem HwState.resFromGacc_errcode : (h.resFromGacc).errcode = h.errcode := rfl
@[simp] theorem HwState.resFromGacc_keyLen : (h.resFromGacc).keyLen = h.keyLen := rfl
@[simp] theorem HwState.resFromGacc_nonceLen : (h.resFromGacc).nonceLen = h.nonceLen := rfl
@[simp] theorem HwState.resFromGacc_errDetail : (h.resFromGacc).errDetail = h.errDetail := rfl
@[simp] theorem HwState.resFromGacc_aadLen : (h.resFromGacc).aadLen = h.aadLen := rfl
@[simp] theorem HwState.resFromGacc_dataLen : (h.resFromGacc).dataLen = h.dataLen := rfl
@[simp] theorem HwState.resFromGacc_outLen : (h.resFromGacc).outLen = h.outLen := rfl
@[simp] theorem HwState.resFromGacc_keyb : (h.resFromGacc).keyb = h.keyb := rfl
@[simp] theorem HwState.resFromGacc_nonceb : (h.resFromGacc).nonceb = h.nonceb := rfl
@[simp] theorem HwState.resFromGacc_opa : (h.resFromGacc).opa = h.opa := rfl
@[simp] theorem HwState.resFromGacc_opb : (h.resFromGacc).opb = h.opb := rfl
@[simp] theorem HwState.resFromGacc_res : (h.resFromGacc).res = h.gacc := rfl
@[simp] theorem HwState.resFromGacc_mem : (h.resFromGacc).mem = h.mem := rfl
@[simp] theorem HwState.resFromGacc_session : (h.resFromGacc).session = h.session := rfl
@[simp] theorem HwState.resFromGacc_skeyb : (h.resFromGacc).skeyb = h.skeyb := rfl
@[simp] theorem HwState.resFromGacc_skl : (h.resFromGacc).skl = h.skl := rfl
@[simp] theorem HwState.resFromGacc_ctr : (h.resFromGacc).ctr = h.ctr := rfl
@[simp] theorem HwState.resFromGacc_hsub : (h.resFromGacc).hsub = h.hsub := rfl
@[simp] theorem HwState.resFromGacc_eky0 : (h.resFromGacc).eky0 = h.eky0 := rfl
@[simp] theorem HwState.resFromGacc_gacc : (h.resFromGacc).gacc = h.gacc := rfl
@[simp] theorem HwState.resFromGacc_phase : (h.resFromGacc).phase = h.phase := rfl
@[simp] theorem HwState.resFromGacc_pend : (h.resFromGacc).pend = h.pend := rfl

/-! ### `hashOutput` -/

@[simp] theorem HwState.hashOutput_irqEn : (h.hashOutput).irqEn = h.irqEn := rfl
@[simp] theorem HwState.hashOutput_busy : (h.hashOutput).busy = h.busy := rfl
@[simp] theorem HwState.hashOutput_done : (h.hashOutput).done = h.done := rfl
@[simp] theorem HwState.hashOutput_outValid : (h.hashOutput).outValid = h.outValid := rfl
@[simp] theorem HwState.hashOutput_eq : (h.hashOutput).eq = h.eq := rfl
@[simp] theorem HwState.hashOutput_errcode : (h.hashOutput).errcode = h.errcode := rfl
@[simp] theorem HwState.hashOutput_keyLen : (h.hashOutput).keyLen = h.keyLen := rfl
@[simp] theorem HwState.hashOutput_nonceLen : (h.hashOutput).nonceLen = h.nonceLen := rfl
@[simp] theorem HwState.hashOutput_errDetail : (h.hashOutput).errDetail = h.errDetail := rfl
@[simp] theorem HwState.hashOutput_aadLen : (h.hashOutput).aadLen = h.aadLen := rfl
@[simp] theorem HwState.hashOutput_dataLen : (h.hashOutput).dataLen = h.dataLen := rfl
@[simp] theorem HwState.hashOutput_outLen : (h.hashOutput).outLen = h.outLen := rfl
@[simp] theorem HwState.hashOutput_keyb : (h.hashOutput).keyb = h.keyb := rfl
@[simp] theorem HwState.hashOutput_nonceb : (h.hashOutput).nonceb = h.nonceb := rfl
@[simp] theorem HwState.hashOutput_opa : (h.hashOutput).opa = h.opa := rfl
@[simp] theorem HwState.hashOutput_opb : (h.hashOutput).opb = h.opb := rfl
@[simp] theorem HwState.hashOutput_res : (h.hashOutput).res = h.res := rfl
@[simp] theorem HwState.hashOutput_mem : (h.hashOutput).mem = h.mem := rfl
@[simp] theorem HwState.hashOutput_session : (h.hashOutput).session = h.session := rfl
@[simp] theorem HwState.hashOutput_skeyb : (h.hashOutput).skeyb = h.skeyb := rfl
@[simp] theorem HwState.hashOutput_skl : (h.hashOutput).skl = h.skl := rfl
@[simp] theorem HwState.hashOutput_ctr : (h.hashOutput).ctr = h.ctr := rfl
@[simp] theorem HwState.hashOutput_hsub : (h.hashOutput).hsub = h.hsub := rfl
@[simp] theorem HwState.hashOutput_eky0 : (h.hashOutput).eky0 = h.eky0 := rfl
@[simp] theorem HwState.hashOutput_gacc : (h.hashOutput).gacc = ghash h.hsub h.aad (h.outBytes h.dataLen.toNat) := rfl
@[simp] theorem HwState.hashOutput_phase : (h.hashOutput).phase = h.phase := rfl
@[simp] theorem HwState.hashOutput_pend : (h.hashOutput).pend = h.pend := rfl

/-! ### `storeTag` -/

@[simp] theorem HwState.storeTag_irqEn : (h.storeTag).irqEn = h.irqEn := rfl
@[simp] theorem HwState.storeTag_busy : (h.storeTag).busy = h.busy := rfl
@[simp] theorem HwState.storeTag_done : (h.storeTag).done = h.done := rfl
@[simp] theorem HwState.storeTag_outValid : (h.storeTag).outValid = h.outValid := rfl
@[simp] theorem HwState.storeTag_eq : (h.storeTag).eq = h.eq := rfl
@[simp] theorem HwState.storeTag_errcode : (h.storeTag).errcode = h.errcode := rfl
@[simp] theorem HwState.storeTag_keyLen : (h.storeTag).keyLen = h.keyLen := rfl
@[simp] theorem HwState.storeTag_nonceLen : (h.storeTag).nonceLen = h.nonceLen := rfl
@[simp] theorem HwState.storeTag_errDetail : (h.storeTag).errDetail = h.errDetail := rfl
@[simp] theorem HwState.storeTag_aadLen : (h.storeTag).aadLen = h.aadLen := rfl
@[simp] theorem HwState.storeTag_dataLen : (h.storeTag).dataLen = h.dataLen := rfl
@[simp] theorem HwState.storeTag_outLen : (h.storeTag).outLen = h.outLen := rfl
@[simp] theorem HwState.storeTag_keyb : (h.storeTag).keyb = h.keyb := rfl
@[simp] theorem HwState.storeTag_nonceb : (h.storeTag).nonceb = h.nonceb := rfl
@[simp] theorem HwState.storeTag_opa : (h.storeTag).opa = h.opa := rfl
@[simp] theorem HwState.storeTag_opb : (h.storeTag).opb = h.opb := rfl
@[simp] theorem HwState.storeTag_res : (h.storeTag).res = h.res := rfl
@[simp] theorem HwState.storeTag_mem : (h.storeTag).mem = memWrite h.mem (outBase + h.dataLen.toNat) (ser128 (h.gacc ^^^ h.eky0)) := rfl
@[simp] theorem HwState.storeTag_session : (h.storeTag).session = h.session := rfl
@[simp] theorem HwState.storeTag_skeyb : (h.storeTag).skeyb = h.skeyb := rfl
@[simp] theorem HwState.storeTag_skl : (h.storeTag).skl = h.skl := rfl
@[simp] theorem HwState.storeTag_ctr : (h.storeTag).ctr = h.ctr := rfl
@[simp] theorem HwState.storeTag_hsub : (h.storeTag).hsub = h.hsub := rfl
@[simp] theorem HwState.storeTag_eky0 : (h.storeTag).eky0 = h.eky0 := rfl
@[simp] theorem HwState.storeTag_gacc : (h.storeTag).gacc = h.gacc := rfl
@[simp] theorem HwState.storeTag_phase : (h.storeTag).phase = h.phase := rfl
@[simp] theorem HwState.storeTag_pend : (h.storeTag).pend = h.pend := rfl

/-! ### `hashForTag` -/

@[simp] theorem HwState.hashForTag_irqEn : (h.hashForTag).irqEn = h.irqEn := rfl
@[simp] theorem HwState.hashForTag_busy : (h.hashForTag).busy = h.busy := rfl
@[simp] theorem HwState.hashForTag_done : (h.hashForTag).done = h.done := rfl
@[simp] theorem HwState.hashForTag_outValid : (h.hashForTag).outValid = h.outValid := rfl
@[simp] theorem HwState.hashForTag_eq : (h.hashForTag).eq = h.eq := rfl
@[simp] theorem HwState.hashForTag_errcode : (h.hashForTag).errcode = h.errcode := rfl
@[simp] theorem HwState.hashForTag_keyLen : (h.hashForTag).keyLen = h.keyLen := rfl
@[simp] theorem HwState.hashForTag_nonceLen : (h.hashForTag).nonceLen = h.nonceLen := rfl
@[simp] theorem HwState.hashForTag_errDetail : (h.hashForTag).errDetail = h.errDetail := rfl
@[simp] theorem HwState.hashForTag_aadLen : (h.hashForTag).aadLen = h.aadLen := rfl
@[simp] theorem HwState.hashForTag_dataLen : (h.hashForTag).dataLen = h.dataLen := rfl
@[simp] theorem HwState.hashForTag_outLen : (h.hashForTag).outLen = h.outLen := rfl
@[simp] theorem HwState.hashForTag_keyb : (h.hashForTag).keyb = h.keyb := rfl
@[simp] theorem HwState.hashForTag_nonceb : (h.hashForTag).nonceb = h.nonceb := rfl
@[simp] theorem HwState.hashForTag_opa : (h.hashForTag).opa = h.opa := rfl
@[simp] theorem HwState.hashForTag_opb : (h.hashForTag).opb = h.opb := rfl
@[simp] theorem HwState.hashForTag_res : (h.hashForTag).res = h.res := rfl
@[simp] theorem HwState.hashForTag_mem : (h.hashForTag).mem = h.mem := rfl
@[simp] theorem HwState.hashForTag_session : (h.hashForTag).session = h.session := rfl
@[simp] theorem HwState.hashForTag_skeyb : (h.hashForTag).skeyb = h.skeyb := rfl
@[simp] theorem HwState.hashForTag_skl : (h.hashForTag).skl = h.skl := rfl
@[simp] theorem HwState.hashForTag_ctr : (h.hashForTag).ctr = h.ctr := rfl
@[simp] theorem HwState.hashForTag_hsub : (h.hashForTag).hsub = h.hsub := rfl
@[simp] theorem HwState.hashForTag_eky0 : (h.hashForTag).eky0 = h.eky0 := rfl
@[simp] theorem HwState.hashForTag_gacc : (h.hashForTag).gacc = ghash h.hsub h.aad (h.data h.cipherLen) := rfl
@[simp] theorem HwState.hashForTag_phase : (h.hashForTag).phase = h.phase := rfl
@[simp] theorem HwState.hashForTag_pend : (h.hashForTag).pend = h.pend := rfl

/-! ### `newSession` -/

@[simp] theorem HwState.newSession_irqEn : (h.newSession).irqEn = h.irqEn := rfl
@[simp] theorem HwState.newSession_busy : (h.newSession).busy = h.busy := rfl
@[simp] theorem HwState.newSession_done : (h.newSession).done = h.done := rfl
@[simp] theorem HwState.newSession_outValid : (h.newSession).outValid = h.outValid := rfl
@[simp] theorem HwState.newSession_eq : (h.newSession).eq = h.eq := rfl
@[simp] theorem HwState.newSession_errcode : (h.newSession).errcode = h.errcode := rfl
@[simp] theorem HwState.newSession_keyLen : (h.newSession).keyLen = h.keyLen := rfl
@[simp] theorem HwState.newSession_nonceLen : (h.newSession).nonceLen = h.nonceLen := rfl
@[simp] theorem HwState.newSession_errDetail : (h.newSession).errDetail = h.errDetail := rfl
@[simp] theorem HwState.newSession_aadLen : (h.newSession).aadLen = h.aadLen := rfl
@[simp] theorem HwState.newSession_dataLen : (h.newSession).dataLen = h.dataLen := rfl
@[simp] theorem HwState.newSession_outLen : (h.newSession).outLen = h.outLen := rfl
@[simp] theorem HwState.newSession_keyb : (h.newSession).keyb = h.keyb := rfl
@[simp] theorem HwState.newSession_nonceb : (h.newSession).nonceb = h.nonceb := rfl
@[simp] theorem HwState.newSession_opa : (h.newSession).opa = h.opa := rfl
@[simp] theorem HwState.newSession_opb : (h.newSession).opb = h.opb := rfl
@[simp] theorem HwState.newSession_res : (h.newSession).res = h.res := rfl
@[simp] theorem HwState.newSession_mem : (h.newSession).mem = h.mem := rfl
@[simp] theorem HwState.newSession_session : (h.newSession).session = .fresh := rfl
@[simp] theorem HwState.newSession_skeyb : (h.newSession).skeyb = h.keyCopy h.keyLen.toNat := rfl
@[simp] theorem HwState.newSession_skl : (h.newSession).skl = h.keyLen.setWidth 6 := rfl
@[simp] theorem HwState.newSession_ctr : (h.newSession).ctr = h.counter0 := rfl
@[simp] theorem HwState.newSession_hsub : (h.newSession).hsub = 0 := rfl
@[simp] theorem HwState.newSession_eky0 : (h.newSession).eky0 = 0 := rfl
@[simp] theorem HwState.newSession_gacc : (h.newSession).gacc = 0 := rfl
@[simp] theorem HwState.newSession_phase : (h.newSession).phase = h.phase := rfl
@[simp] theorem HwState.newSession_pend : (h.newSession).pend = h.pend := rfl

/-! ### `encryptFinish` -/

@[simp] theorem HwState.encryptFinish_irqEn : (h.encryptFinish).irqEn = h.irqEn := rfl
@[simp] theorem HwState.encryptFinish_busy : (h.encryptFinish).busy = false := rfl
@[simp] theorem HwState.encryptFinish_done : (h.encryptFinish).done = true := rfl
@[simp] theorem HwState.encryptFinish_outValid : (h.encryptFinish).outValid = true := rfl
@[simp] theorem HwState.encryptFinish_eq : (h.encryptFinish).eq = h.eq := rfl
@[simp] theorem HwState.encryptFinish_errcode : (h.encryptFinish).errcode = 0 := rfl
@[simp] theorem HwState.encryptFinish_keyLen : (h.encryptFinish).keyLen = h.keyLen := rfl
@[simp] theorem HwState.encryptFinish_nonceLen : (h.encryptFinish).nonceLen = h.nonceLen := rfl
@[simp] theorem HwState.encryptFinish_errDetail : (h.encryptFinish).errDetail = 0 := rfl
@[simp] theorem HwState.encryptFinish_aadLen : (h.encryptFinish).aadLen = h.aadLen := rfl
@[simp] theorem HwState.encryptFinish_dataLen : (h.encryptFinish).dataLen = h.dataLen := rfl
@[simp] theorem HwState.encryptFinish_outLen : (h.encryptFinish).outLen = h.dataLen + 16 := rfl
@[simp] theorem HwState.encryptFinish_keyb : (h.encryptFinish).keyb = h.keyb := rfl
@[simp] theorem HwState.encryptFinish_nonceb : (h.encryptFinish).nonceb = h.nonceb := rfl
@[simp] theorem HwState.encryptFinish_opa : (h.encryptFinish).opa = h.opa := rfl
@[simp] theorem HwState.encryptFinish_opb : (h.encryptFinish).opb = h.opb := rfl
@[simp] theorem HwState.encryptFinish_res : (h.encryptFinish).res = h.res := rfl
@[simp] theorem HwState.encryptFinish_mem : (h.encryptFinish).mem = memWrite h.mem (outBase + h.dataLen.toNat)
      (ser128 (ghash h.hsub h.aad (h.outBytes h.dataLen.toNat) ^^^ h.eky0)) := rfl
@[simp] theorem HwState.encryptFinish_session : (h.encryptFinish).session = h.session := rfl
@[simp] theorem HwState.encryptFinish_skeyb : (h.encryptFinish).skeyb = h.skeyb := rfl
@[simp] theorem HwState.encryptFinish_skl : (h.encryptFinish).skl = h.skl := rfl
@[simp] theorem HwState.encryptFinish_ctr : (h.encryptFinish).ctr = h.ctr := rfl
@[simp] theorem HwState.encryptFinish_hsub : (h.encryptFinish).hsub = h.hsub := rfl
@[simp] theorem HwState.encryptFinish_eky0 : (h.encryptFinish).eky0 = h.eky0 := rfl
@[simp] theorem HwState.encryptFinish_gacc : (h.encryptFinish).gacc = ghash h.hsub h.aad (h.outBytes h.dataLen.toNat) := rfl
@[simp] theorem HwState.encryptFinish_phase : (h.encryptFinish).phase = .idle := rfl
@[simp] theorem HwState.encryptFinish_pend : (h.encryptFinish).pend = h.pend := rfl

/-! ### `decryptFinish` -/

@[simp] theorem HwState.decryptFinish_irqEn : (h.decryptFinish).irqEn = h.irqEn := rfl
@[simp] theorem HwState.decryptFinish_busy : (h.decryptFinish).busy = false := rfl
@[simp] theorem HwState.decryptFinish_done : (h.decryptFinish).done = true := rfl
@[simp] theorem HwState.decryptFinish_outValid : (h.decryptFinish).outValid = true := rfl
@[simp] theorem HwState.decryptFinish_eq : (h.decryptFinish).eq = h.eq := rfl
@[simp] theorem HwState.decryptFinish_errcode : (h.decryptFinish).errcode = 0 := rfl
@[simp] theorem HwState.decryptFinish_keyLen : (h.decryptFinish).keyLen = h.keyLen := rfl
@[simp] theorem HwState.decryptFinish_nonceLen : (h.decryptFinish).nonceLen = h.nonceLen := rfl
@[simp] theorem HwState.decryptFinish_errDetail : (h.decryptFinish).errDetail = 0 := rfl
@[simp] theorem HwState.decryptFinish_aadLen : (h.decryptFinish).aadLen = h.aadLen := rfl
@[simp] theorem HwState.decryptFinish_dataLen : (h.decryptFinish).dataLen = h.dataLen := rfl
@[simp] theorem HwState.decryptFinish_outLen : (h.decryptFinish).outLen = h.dataLen - 16 := rfl
@[simp] theorem HwState.decryptFinish_keyb : (h.decryptFinish).keyb = h.keyb := rfl
@[simp] theorem HwState.decryptFinish_nonceb : (h.decryptFinish).nonceb = h.nonceb := rfl
@[simp] theorem HwState.decryptFinish_opa : (h.decryptFinish).opa = h.opa := rfl
@[simp] theorem HwState.decryptFinish_opb : (h.decryptFinish).opb = h.opb := rfl
@[simp] theorem HwState.decryptFinish_res : (h.decryptFinish).res = h.res := rfl
@[simp] theorem HwState.decryptFinish_mem : (h.decryptFinish).mem = h.mem := rfl
@[simp] theorem HwState.decryptFinish_session : (h.decryptFinish).session = h.session := rfl
@[simp] theorem HwState.decryptFinish_skeyb : (h.decryptFinish).skeyb = h.skeyb := rfl
@[simp] theorem HwState.decryptFinish_skl : (h.decryptFinish).skl = h.skl := rfl
@[simp] theorem HwState.decryptFinish_ctr : (h.decryptFinish).ctr = h.ctr := rfl
@[simp] theorem HwState.decryptFinish_hsub : (h.decryptFinish).hsub = h.hsub := rfl
@[simp] theorem HwState.decryptFinish_eky0 : (h.decryptFinish).eky0 = h.eky0 := rfl
@[simp] theorem HwState.decryptFinish_gacc : (h.decryptFinish).gacc = h.gacc := rfl
@[simp] theorem HwState.decryptFinish_phase : (h.decryptFinish).phase = .idle := rfl
@[simp] theorem HwState.decryptFinish_pend : (h.decryptFinish).pend = h.pend := rfl

/-! ### `ghashCommand` -/

@[simp] theorem HwState.ghashCommand_irqEn : (h.ghashCommand).irqEn = h.irqEn := rfl
@[simp] theorem HwState.ghashCommand_busy : (h.ghashCommand).busy = false := rfl
@[simp] theorem HwState.ghashCommand_done : (h.ghashCommand).done = true := rfl
@[simp] theorem HwState.ghashCommand_outValid : (h.ghashCommand).outValid = h.outValid := rfl
@[simp] theorem HwState.ghashCommand_eq : (h.ghashCommand).eq = h.eq := rfl
@[simp] theorem HwState.ghashCommand_errcode : (h.ghashCommand).errcode = 0 := rfl
@[simp] theorem HwState.ghashCommand_keyLen : (h.ghashCommand).keyLen = h.keyLen := rfl
@[simp] theorem HwState.ghashCommand_nonceLen : (h.ghashCommand).nonceLen = h.nonceLen := rfl
@[simp] theorem HwState.ghashCommand_errDetail : (h.ghashCommand).errDetail = 0 := rfl
@[simp] theorem HwState.ghashCommand_aadLen : (h.ghashCommand).aadLen = h.aadLen := rfl
@[simp] theorem HwState.ghashCommand_dataLen : (h.ghashCommand).dataLen = h.dataLen := rfl
@[simp] theorem HwState.ghashCommand_outLen : (h.ghashCommand).outLen = h.outLen := rfl
@[simp] theorem HwState.ghashCommand_keyb : (h.ghashCommand).keyb = h.keyb := rfl
@[simp] theorem HwState.ghashCommand_nonceb : (h.ghashCommand).nonceb = h.nonceb := rfl
@[simp] theorem HwState.ghashCommand_opa : (h.ghashCommand).opa = h.opa := rfl
@[simp] theorem HwState.ghashCommand_opb : (h.ghashCommand).opb = h.opb := rfl
@[simp] theorem HwState.ghashCommand_res : (h.ghashCommand).res = ghash h.opa h.aad (h.data h.dataLen.toNat) := rfl
@[simp] theorem HwState.ghashCommand_mem : (h.ghashCommand).mem = h.mem := rfl
@[simp] theorem HwState.ghashCommand_session : (h.ghashCommand).session = h.session := rfl
@[simp] theorem HwState.ghashCommand_skeyb : (h.ghashCommand).skeyb = h.skeyb := rfl
@[simp] theorem HwState.ghashCommand_skl : (h.ghashCommand).skl = h.skl := rfl
@[simp] theorem HwState.ghashCommand_ctr : (h.ghashCommand).ctr = h.ctr := rfl
@[simp] theorem HwState.ghashCommand_hsub : (h.ghashCommand).hsub = h.hsub := rfl
@[simp] theorem HwState.ghashCommand_eky0 : (h.ghashCommand).eky0 = h.eky0 := rfl
@[simp] theorem HwState.ghashCommand_gacc : (h.ghashCommand).gacc = ghash h.opa h.aad (h.data h.dataLen.toNat) := rfl
@[simp] theorem HwState.ghashCommand_phase : (h.ghashCommand).phase = .idle := rfl
@[simp] theorem HwState.ghashCommand_pend : (h.ghashCommand).pend = h.pend := rfl

variable (s : State)

/-! ### `takeBlock`: it writes `HSUB`, `EKY0` or bytes of `OUTBUF`, by position -/

@[simp] theorem HwState.takeBlock_irqEn (m : List Byte) (k : Nat) (v : U128) : (h.takeBlock m k v).irqEn = h.irqEn := by
  rcases k with _ | _ | k <;> rfl
@[simp] theorem HwState.takeBlock_busy (m : List Byte) (k : Nat) (v : U128) : (h.takeBlock m k v).busy = h.busy := by
  rcases k with _ | _ | k <;> rfl
@[simp] theorem HwState.takeBlock_done (m : List Byte) (k : Nat) (v : U128) : (h.takeBlock m k v).done = h.done := by
  rcases k with _ | _ | k <;> rfl
@[simp] theorem HwState.takeBlock_outValid (m : List Byte) (k : Nat) (v : U128) : (h.takeBlock m k v).outValid = h.outValid := by
  rcases k with _ | _ | k <;> rfl
@[simp] theorem HwState.takeBlock_eq (m : List Byte) (k : Nat) (v : U128) : (h.takeBlock m k v).eq = h.eq := by
  rcases k with _ | _ | k <;> rfl
@[simp] theorem HwState.takeBlock_errcode (m : List Byte) (k : Nat) (v : U128) : (h.takeBlock m k v).errcode = h.errcode := by
  rcases k with _ | _ | k <;> rfl
@[simp] theorem HwState.takeBlock_keyLen (m : List Byte) (k : Nat) (v : U128) : (h.takeBlock m k v).keyLen = h.keyLen := by
  rcases k with _ | _ | k <;> rfl
@[simp] theorem HwState.takeBlock_nonceLen (m : List Byte) (k : Nat) (v : U128) : (h.takeBlock m k v).nonceLen = h.nonceLen := by
  rcases k with _ | _ | k <;> rfl
@[simp] theorem HwState.takeBlock_errDetail (m : List Byte) (k : Nat) (v : U128) : (h.takeBlock m k v).errDetail = h.errDetail := by
  rcases k with _ | _ | k <;> rfl
@[simp] theorem HwState.takeBlock_aadLen (m : List Byte) (k : Nat) (v : U128) : (h.takeBlock m k v).aadLen = h.aadLen := by
  rcases k with _ | _ | k <;> rfl
@[simp] theorem HwState.takeBlock_dataLen (m : List Byte) (k : Nat) (v : U128) : (h.takeBlock m k v).dataLen = h.dataLen := by
  rcases k with _ | _ | k <;> rfl
@[simp] theorem HwState.takeBlock_outLen (m : List Byte) (k : Nat) (v : U128) : (h.takeBlock m k v).outLen = h.outLen := by
  rcases k with _ | _ | k <;> rfl
@[simp] theorem HwState.takeBlock_keyb (m : List Byte) (k : Nat) (v : U128) : (h.takeBlock m k v).keyb = h.keyb := by
  rcases k with _ | _ | k <;> rfl
@[simp] theorem HwState.takeBlock_nonceb (m : List Byte) (k : Nat) (v : U128) : (h.takeBlock m k v).nonceb = h.nonceb := by
  rcases k with _ | _ | k <;> rfl
@[simp] theorem HwState.takeBlock_opa (m : List Byte) (k : Nat) (v : U128) : (h.takeBlock m k v).opa = h.opa := by
  rcases k with _ | _ | k <;> rfl
@[simp] theorem HwState.takeBlock_opb (m : List Byte) (k : Nat) (v : U128) : (h.takeBlock m k v).opb = h.opb := by
  rcases k with _ | _ | k <;> rfl
@[simp] theorem HwState.takeBlock_res (m : List Byte) (k : Nat) (v : U128) : (h.takeBlock m k v).res = h.res := by
  rcases k with _ | _ | k <;> rfl
@[simp] theorem HwState.takeBlock_session (m : List Byte) (k : Nat) (v : U128) : (h.takeBlock m k v).session = h.session := by
  rcases k with _ | _ | k <;> rfl
@[simp] theorem HwState.takeBlock_skeyb (m : List Byte) (k : Nat) (v : U128) : (h.takeBlock m k v).skeyb = h.skeyb := by
  rcases k with _ | _ | k <;> rfl
@[simp] theorem HwState.takeBlock_skl (m : List Byte) (k : Nat) (v : U128) : (h.takeBlock m k v).skl = h.skl := by
  rcases k with _ | _ | k <;> rfl
@[simp] theorem HwState.takeBlock_ctr (m : List Byte) (k : Nat) (v : U128) : (h.takeBlock m k v).ctr = h.ctr := by
  rcases k with _ | _ | k <;> rfl
@[simp] theorem HwState.takeBlock_gacc (m : List Byte) (k : Nat) (v : U128) : (h.takeBlock m k v).gacc = h.gacc := by
  rcases k with _ | _ | k <;> rfl
@[simp] theorem HwState.takeBlock_phase (m : List Byte) (k : Nat) (v : U128) : (h.takeBlock m k v).phase = h.phase := by
  rcases k with _ | _ | k <;> rfl
@[simp] theorem HwState.takeBlock_pend (m : List Byte) (k : Nat) (v : U128) : (h.takeBlock m k v).pend = h.pend := by
  rcases k with _ | _ | k <;> rfl

/-! ### The whole state: `onHw`, `popMove`, `sendRequest`, `requestKeystream`, `respond`, `busError`, `resetEvent` -/

@[simp] theorem State.onHw_hw (f : HwState → HwState) : (s.onHw f).hw = f s.hw := rfl
@[simp] theorem State.onHw_par (f : HwState → HwState) : (s.onHw f).par = s.par := rfl
@[simp] theorem State.onHw_prov (f : HwState → HwState) : (s.onHw f).prov = s.prov := rfl
@[simp] theorem State.onHw_env (f : HwState → HwState) : (s.onHw f).env = s.env := rfl

@[simp] theorem State.popMove_hw : s.popMove.hw = s.hw := rfl
@[simp] theorem State.popMove_par : s.popMove.par = s.par := rfl
@[simp] theorem State.popMove_prov : s.popMove.prov = s.prov := rfl
@[simp] theorem State.popMove_moves : s.popMove.env.moves = s.env.moves.tail := rfl
@[simp] theorem State.popMove_resp : s.popMove.env.resp = s.env.resp := rfl
@[simp] theorem State.popMove_fault : s.popMove.env.fault = s.env.fault := rfl

@[simp] theorem State.sendRequest_hw (b : U128) :
    (s.sendRequest b).hw = { s.hw with pend := some (s.hw.request b) } := rfl
@[simp] theorem State.sendRequest_par (b : U128) : (s.sendRequest b).par = s.par := rfl
@[simp] theorem State.sendRequest_known (b : U128) : (s.sendRequest b).prov.known = s.prov.known := rfl
@[simp] theorem State.sendRequest_answers (b : U128) : (s.sendRequest b).prov.answers = s.prov.answers := rfl
@[simp] theorem State.sendRequest_seen (b : U128) :
    (s.sendRequest b).prov.seen = s.prov.seen ++ [s.hw.request b] := rfl
@[simp] theorem State.sendRequest_env (b : U128) : (s.sendRequest b).env = s.env := rfl

@[simp] theorem State.requestKeystream_hw :
    s.requestKeystream.hw =
      { s.hw with ctr := inc128 s.hw.ctr, pend := some (s.hw.request (inc128 s.hw.ctr)) } := rfl
@[simp] theorem State.requestKeystream_par : s.requestKeystream.par = s.par := rfl
@[simp] theorem State.requestKeystream_known : s.requestKeystream.prov.known = s.prov.known := rfl
@[simp] theorem State.requestKeystream_answers : s.requestKeystream.prov.answers = s.prov.answers := rfl
@[simp] theorem State.requestKeystream_seen :
    s.requestKeystream.prov.seen = s.prov.seen ++ [s.hw.request (inc128 s.hw.ctr)] := rfl
@[simp] theorem State.requestKeystream_env : s.requestKeystream.env = s.env := rfl

@[simp] theorem State.respond_hw (r : Resp) : (s.respond r).hw = s.hw := rfl
@[simp] theorem State.respond_par (r : Resp) : (s.respond r).par = s.par := rfl
@[simp] theorem State.respond_prov (r : Resp) : (s.respond r).prov = s.prov := rfl
@[simp] theorem State.respond_moves (r : Resp) : (s.respond r).env.moves = s.env.moves := rfl
@[simp] theorem State.respond_resp (r : Resp) : (s.respond r).env.resp = some r := rfl
@[simp] theorem State.respond_fault (r : Resp) : (s.respond r).env.fault = s.env.fault := rfl

@[simp] theorem State.busError_hw (f : Fault) : (s.busError f).hw = s.hw := rfl
@[simp] theorem State.busError_par (f : Fault) : (s.busError f).par = s.par := rfl
@[simp] theorem State.busError_prov (f : Fault) : (s.busError f).prov = s.prov := rfl
@[simp] theorem State.busError_moves (f : Fault) : (s.busError f).env.moves = s.env.moves := rfl
@[simp] theorem State.busError_resp (f : Fault) : (s.busError f).env.resp = some .busErr := rfl
@[simp] theorem State.busError_fault (f : Fault) : (s.busError f).env.fault = s.env.fault.or (some f) := rfl

@[simp] theorem State.resetEvent_hw : s.resetEvent.hw = HwState.atReset s.hw.mem := rfl
@[simp] theorem State.resetEvent_par : s.resetEvent.par = s.par := rfl
@[simp] theorem State.resetEvent_prov : s.resetEvent.prov = s.prov := rfl
@[simp] theorem State.resetEvent_env : s.resetEvent.env = s.env := rfl

end Sys2Proof.Machine
end

