-- ==== Sys2Proof/Laws/Memory.lean ====
section
/-! SUPPORT. The laws of the buffer memory: a byte read after a store, the other bytes, the canonical form, and that the
canonical form is one list per contents. -/

namespace Sys2Proof.Machine

/-! ### One byte -/

theorem Memory.read_put (x : Nat) (v : Byte) (m : List Host.Cell) (a : Nat)
    (h : a = x → Memory.read m x = Memory.unlisted) :
    Memory.read (Memory.put x v m) a = if a = x then v else Memory.read m a := by
  unfold Memory.put
  by_cases hv : v = Memory.unlisted
  · by_cases ha : a = x
    · subst ha; simp [hv, h rfl]
    · simp [hv, ha]
  · by_cases ha : a = x
    · simp [hv, ha, Memory.read]
    · simp [hv, ha, Memory.read, Ne.symm ha]

/-- An address below every listed one is unlisted. -/
theorem Memory.read_of_lt {m : List Host.Cell} {x : Nat} (h : ∀ c ∈ m, x < c.1) :
    Memory.read m x = Memory.unlisted := by
  induction m with
  | nil => rfl
  | cons c rest ih =>
    have hc := h c (by simp)
    simp only [Memory.read]
    rw [if_neg (by omega), ih fun d hd => h d (by simp [hd])]

theorem Memory.rest_above {c : Host.Cell} {m : List Host.Cell} (h : Memory.wf (c :: m)) : ∀ d ∈ m, c.1 < d.1 :=
  (List.pairwise_cons.mp h.1).1

theorem Memory.wf_tail {c : Host.Cell} {m : List Host.Cell} (h : Memory.wf (c :: m)) : Memory.wf m :=
  ⟨(List.pairwise_cons.mp h.1).2, fun d hd => h.2 d (by simp [hd])⟩

/-- A byte read after a store: the stored byte at its own address, the old byte elsewhere. -/
theorem Memory.read_write {m : List Host.Cell} (h : Memory.wf m) (x : Nat) (v : Byte) (a : Nat) :
    Memory.read (Memory.write m x v) a = if a = x then v else Memory.read m a := by
  induction m with
  | nil => simpa [Memory.write] using Memory.read_put x v [] a fun _ => rfl
  | cons c rest ih =>
    obtain ⟨b, w⟩ := c
    have above := Memory.rest_above h
    simp only [Memory.write]
    by_cases h1 : x < b
    · rw [if_pos h1]
      refine Memory.read_put _ _ _ _ fun _ => Memory.read_of_lt ?_
      intro d hd
      rcases List.mem_cons.mp hd with rfl | hd
      · exact h1
      · exact lt_trans h1 (above d hd)
    · rw [if_neg h1]
      by_cases h2 : x = b
      · subst h2
        rw [if_pos rfl, Memory.read_put _ _ _ _ fun _ => Memory.read_of_lt above]
        by_cases h3 : a = x
        · simp [h3]
        · simp [h3, Memory.read, Ne.symm h3]
      · rw [if_neg h2]
        simp only [Memory.read, ih (Memory.wf_tail h)]
        by_cases h3 : b = a
        · subst h3; simp [Ne.symm h2]
        · simp [h3]

/-- The addresses a store may list. -/
theorem Memory.mem_write {m : List Host.Cell} {x : Nat} {v : Byte} {c : Host.Cell} (h : c ∈ Memory.write m x v) :
    c = (x, v) ∨ c ∈ m := by
  induction m with
  | nil =>
    simp only [Memory.write, Memory.put] at h
    split at h <;> simp_all
  | cons d rest ih =>
    obtain ⟨b, w⟩ := d
    simp only [Memory.write, Memory.put] at h
    split at h
    · split at h <;> simp_all
    · split at h
      · split at h
        · exact .inr (List.mem_cons_of_mem _ h)
        · exact (List.mem_cons.mp h).imp_right (List.mem_cons_of_mem _)
      · rcases List.mem_cons.mp h with rfl | h
        · simp
        · exact (ih h).imp_right (List.mem_cons_of_mem _)

theorem Memory.wf_put {x : Nat} {v : Byte} {m : List Host.Cell} (h : Memory.wf m) (above : ∀ c ∈ m, x < c.1) :
    Memory.wf (Memory.put x v m) := by
  unfold Memory.put
  split
  · exact h
  · rename_i hv
    refine ⟨List.pairwise_cons.mpr ⟨above, h.1⟩, ?_⟩
    intro c hc
    rcases List.mem_cons.mp hc with rfl | hc
    · exact hv
    · exact h.2 c hc

/-- A store keeps the canonical form. -/
theorem Memory.wf_write {m : List Host.Cell} (h : Memory.wf m) (x : Nat) (v : Byte) : Memory.wf (Memory.write m x v) := by
  induction m with
  | nil => exact Memory.wf_put h (by simp)
  | cons c rest ih =>
    obtain ⟨b, w⟩ := c
    have above := Memory.rest_above h
    simp only [Memory.write]
    by_cases h1 : x < b
    · rw [if_pos h1]
      refine Memory.wf_put h ?_
      intro d hd
      rcases List.mem_cons.mp hd with rfl | hd
      · exact h1
      · exact lt_trans h1 (above d hd)
    · rw [if_neg h1]
      by_cases h2 : x = b
      · subst h2
        rw [if_pos rfl]
        exact Memory.wf_put (Memory.wf_tail h) above
      · rw [if_neg h2]
        have tail := ih (Memory.wf_tail h)
        refine ⟨List.pairwise_cons.mpr ⟨?_, tail.1⟩, ?_⟩
        · intro d hd
          rcases Memory.mem_write hd with rfl | hd
          · simp only; omega
          · exact above d hd
        · intro d hd
          rcases List.mem_cons.mp hd with rfl | hd
          · exact h.2 _ (by simp)
          · exact tail.2 d hd

theorem Memory.wf_nil : Memory.wf [] := by decide

/-- A listed byte is what reading its address gives. -/
theorem Memory.read_of_mem {m : List Host.Cell} (h : Memory.wf m) {c : Host.Cell} (hc : c ∈ m) :
    Memory.read m c.1 = c.2 := by
  induction m with
  | nil => simp at hc
  | cons d rest ih =>
    rcases List.mem_cons.mp hc with rfl | hc
    · simp [Memory.read]
    · have := Memory.rest_above h c hc
      simp only [Memory.read]
      rw [if_neg (by omega)]
      exact ih (Memory.wf_tail h) hc

/-- Equal contents are equal lists: the canonical form is unique. -/
theorem Memory.ext {m m' : List Host.Cell} (h : Memory.wf m) (h' : Memory.wf m')
    (same : ∀ a, Memory.read m a = Memory.read m' a) : m = m' := by
  induction m generalizing m' with
  | nil =>
    cases m' with
    | nil => rfl
    | cons d rest =>
      exact absurd ((same d.1).symm.trans rfl |>.symm.trans (Memory.read_of_mem h' (by simp)) |>.symm)
        (by simpa [Memory.read] using h'.2 d (by simp))
  | cons c rest ih =>
    cases m' with
    | nil =>
      exact absurd ((Memory.read_of_mem h (c := c) (by simp)).symm.trans (same c.1))
        (by simpa [Memory.read] using h.2 c (by simp))
    | cons d rest' =>
      have a1 := Memory.rest_above h
      have a2 := Memory.rest_above h'
      have r1 : Memory.read (c :: rest) c.1 = c.2 := Memory.read_of_mem h (by simp)
      have r2 : Memory.read (d :: rest') d.1 = d.2 := Memory.read_of_mem h' (by simp)
      have key : c.1 = d.1 := by
        rcases Nat.lt_trichotomy c.1 d.1 with hl | he | hl
        · exfalso
          apply h.2 c (by simp)
          rw [← r1, same]
          exact Memory.read_of_lt fun e he => by
            rcases List.mem_cons.mp he with rfl | he
            · exact hl
            · exact lt_trans hl (a2 e he)
        · exact he
        · exfalso
          apply h'.2 d (by simp)
          rw [← r2, ← same]
          exact Memory.read_of_lt fun e he => by
            rcases List.mem_cons.mp he with rfl | he
            · exact hl
            · exact lt_trans hl (a1 e he)
      have val : c = d := Prod.ext key (by rw [← r1, ← r2, same, key])
      subst val
      congr 1
      refine ih (Memory.wf_tail h) (Memory.wf_tail h') fun a => ?_
      by_cases ha : a = c.1
      · subst ha
        rw [Memory.read_of_lt a1, Memory.read_of_lt a2]
      · have := same a
        simp only [Memory.read] at this
        rwa [if_neg (Ne.symm ha), if_neg (Ne.symm ha)] at this

/-! ### Byte strings -/

theorem memWrite_wf {m : List Host.Cell} (h : Memory.wf m) (addr : Nat) (bs : List Byte) :
    Memory.wf (memWrite m addr bs) := by
  induction bs generalizing m addr with
  | nil => exact h
  | cons b rest ih => exact ih (Memory.wf_write h addr b) (addr + 1)

/-- A byte read after `MemWrite`: the string's byte inside the written range, the old byte outside it. -/
theorem memWrite_read {m : List Host.Cell} (h : Memory.wf m) (addr : Nat) (bs : List Byte) (a : Nat) :
    Memory.read (memWrite m addr bs) a =
      if addr ≤ a ∧ a < addr + bs.length then bs.getD (a - addr) 0 else Memory.read m a := by
  induction bs generalizing m addr with
  | nil => simp [memWrite]
  | cons b rest ih =>
    simp only [memWrite, ih (Memory.wf_write h addr b), Memory.read_write h, List.length_cons]
    by_cases h1 : a = addr
    · subst h1; simp
    · by_cases h2 : addr ≤ a ∧ a < addr + (rest.length + 1)
      · rw [if_pos (by omega), if_pos h2, show a - addr = (a - (addr + 1)) + 1 by omega]
        simp
      · rw [if_neg (by omega), if_neg h1, if_neg h2]

/-- The addresses that `MemWrite` may list. -/
theorem mem_memWrite {m : List Host.Cell} {addr : Nat} {bs : List Byte} {c : Host.Cell} (h : c ∈ memWrite m addr bs) :
    c ∈ m ∨ (addr ≤ c.1 ∧ c.1 < addr + bs.length) := by
  induction bs generalizing m addr with
  | nil => exact .inl h
  | cons b rest ih =>
    rcases ih h with h | h
    · rcases Memory.mem_write h with rfl | h
      · right; simp
      · exact .inl h
    · right; simp only [List.length_cons]; omega

@[simp] theorem memRead_length (m : List Host.Cell) (addr n : Nat) : (memRead m addr n).length = n := by
  simp [memRead]

theorem memRead_getD (m : List Host.Cell) (addr n i : Nat) (h : i < n) :
    (memRead m addr n).getD i 0 = Memory.read m (addr + i) := by
  simp [memRead, h]

/-- `MemRead` depends on the bytes of its range only. -/
theorem memRead_congr {m m' : List Host.Cell} {addr n : Nat}
    (h : ∀ i, i < n → Memory.read m (addr + i) = Memory.read m' (addr + i)) : memRead m addr n = memRead m' addr n := by
  simp only [memRead, List.map_inj_left, List.mem_range]
  exact h

/-! ### Bytes outside a store, in any memory -/

theorem Memory.read_put_of_ne (x : Nat) (v : Byte) (rest : List Host.Cell) {y : Nat} (h : y ≠ x) :
    Memory.read (Memory.put x v rest) y = Memory.read rest y := by
  unfold Memory.put
  split
  · rfl
  · simp [Memory.read, Ne.symm h]

theorem Memory.read_write_of_ne (m : List Host.Cell) (x : Nat) (v : Byte) {y : Nat} (h : y ≠ x) :
    Memory.read (Memory.write m x v) y = Memory.read m y := by
  induction m with
  | nil => simp [Memory.write, Memory.read_put_of_ne, h]
  | cons c m ih =>
    obtain ⟨a, b⟩ := c
    simp only [Memory.write]
    split
    · exact Memory.read_put_of_ne _ _ _ h
    · split
      · rename_i h1
        subst h1
        rw [Memory.read_put_of_ne _ _ _ h]
        simp [Memory.read, Ne.symm h]
      · simp only [Memory.read, ih]

/-- A store leaves every byte outside it alone. -/
theorem memWrite_read_outside (m : List Host.Cell) (a : Nat) (bs : List Byte) {y : Nat}
    (h : y < a ∨ a + bs.length ≤ y) : Memory.read (memWrite m a bs) y = Memory.read m y := by
  induction bs generalizing m a with
  | nil => rfl
  | cons b bs ih =>
    simp only [List.length_cons] at h
    rw [memWrite, ih _ _ (by omega), Memory.read_write_of_ne _ _ _ (by omega)]

end Sys2Proof.Machine
end

