-- ==== Sys2Proof/Laws/Bytes.lean ====
section
/-! SUPPORT. The laws of marshalling: `BE128` and `SER128` undo each other, and a word put into a register or window is the
word read from it (00_scope.md R12; 20_memory.md R77, R78). -/

namespace Sys2Proof.Machine

@[simp] theorem ser128_length (v : U128) : (ser128 v).length = 16 := by simp [ser128]

/-- Sixteen bytes as they are. -/
theorem eq_sixteen {s : List Byte} (h : s.length = 16) :
    s = (List.range 16).map fun k => s.getD k 0 := by
  apply List.ext_getElem
  · simp [h]
  · intro i h1 h2
    simp [List.getD_eq_getElem?_getD, h1]

theorem getLsbD_foldl_byte (s : List Byte) (acc : U128) (i : Nat) (hi : i < 128) :
    (s.foldl (fun (x : U128) b => (x <<< 8) ||| b.setWidth 128) acc).getLsbD i =
      if i < 8 * s.length then (s.getD (s.length - 1 - i / 8) 0).getLsbD (i % 8)
      else acc.getLsbD (i - 8 * s.length) := by
  induction s generalizing acc with
  | nil => simp
  | cons b rest ih =>
    simp only [List.foldl_cons, ih, List.length_cons]
    by_cases h1 : i < 8 * rest.length
    · rw [if_pos h1, if_pos (by omega), show rest.length + 1 - 1 - i / 8 = (rest.length - 1 - i / 8) + 1 by omega]
      simp
    · rw [if_neg h1]
      have hlt : i - 8 * rest.length < 128 := by omega
      simp only [BitVec.getLsbD_or, BitVec.getLsbD_shiftLeft, BitVec.getLsbD_setWidth, hlt, decide_true, Bool.true_and]
      by_cases h2 : i < 8 * (rest.length + 1)
      · rw [if_pos h2, show rest.length + 1 - 1 - i / 8 = 0 by omega, show i % 8 = i - 8 * rest.length by omega]
        simp [show i - 8 * rest.length < 8 by omega]
      · rw [if_neg h2]
        have : b.getLsbD (i - 8 * rest.length) = false := BitVec.getLsbD_of_ge _ _ (by omega)
        simp [this, show ¬ (i - 8 * rest.length < 8) by omega]
        congr 1

/-- Bit i of `BE128` of sixteen bytes. -/
theorem be128_getLsbD {s : List Byte} (h : s.length = 16) {i : Nat} (hi : i < 128) :
    (be128 s).getLsbD i = (s.getD (15 - i / 8) 0).getLsbD (i % 8) := by
  rw [be128, getLsbD_foldl_byte s 0 i hi, if_pos (by omega), h]

theorem ser128_getD (v : U128) (k : Nat) (h : k < 16) : (ser128 v).getD k 0 = v.extractLsb' (120 - 8 * k) 8 := by
  simp [ser128, h]

/-- `BE128(SER128(v)) = v` (R12). -/
@[simp] theorem be128_ser128 (v : U128) : be128 (ser128 v) = v := by
  apply BitVec.eq_of_getLsbD_eq
  intro i hi
  have h8 : i % 8 < 8 := by omega
  rw [be128_getLsbD (ser128_length v) hi, ser128_getD v _ (by omega), BitVec.getLsbD_extractLsb']
  simp only [h8, decide_true, Bool.true_and]
  congr 1
  omega

/-- `SER128(BE128(s)) = s` for sixteen bytes (R12). -/
theorem ser128_be128 {s : List Byte} (h : s.length = 16) : ser128 (be128 s) = s := by
  rw [eq_sixteen h]
  simp only [ser128, List.map_inj_left, List.mem_range]
  intro k hk
  apply BitVec.eq_of_getLsbD_eq
  intro i hi
  rw [BitVec.getLsbD_extractLsb', ← eq_sixteen h, be128_getLsbD h (by omega)]
  simp only [hi, decide_true, Bool.true_and]
  rw [show (120 - 8 * k + i) % 8 = i by omega, show 15 - (120 - 8 * k + i) / 8 = k by omega]

/-- Different values have different byte strings. -/
theorem ser128_injective {v w : U128} (h : ser128 v = ser128 w) : v = w := by
  rw [← be128_ser128 v, h, be128_ser128]

/-- `SER128` of an XOR, byte by byte. -/
theorem ser128_xor_getD (v w : U128) (k : Nat) :
    (ser128 (v ^^^ w)).getD k 0 = (ser128 v).getD k 0 ^^^ (ser128 w).getD k 0 := by
  by_cases h : k < 16
  · rw [ser128_getD _ _ h, ser128_getD _ _ h, ser128_getD _ _ h]
    apply BitVec.eq_of_getLsbD_eq
    intro i hi
    simp [hi]
  · have len : ∀ x : U128, (ser128 x).getD k 0 = 0 := fun x => by
      rw [List.getD_eq_default]; simp; omega
    rw [len, len, len]; rfl

/-! ### Words -/

theorem wordByte_wordOfBytes (b0 b1 b2 b3 : Byte) :
    bytesOfWord (wordOfBytes b0 b1 b2 b3) = [b0, b1, b2, b3] := by
  simp only [bytesOfWord, wordByte, wordOfBytes, List.cons.injEq, and_true]
  refine ⟨?_, ?_, ?_, ?_⟩ <;>
  · apply BitVec.eq_of_getLsbD_eq
    intro i hi
    simp only [BitVec.getLsbD_extractLsb', BitVec.getLsbD_append]
    interval_cases i <;> simp

/-- The four bytes of a word make the word again (R78). -/
theorem wordOfBytes_wordByte (d : Word) :
    wordOfBytes (wordByte d 0) (wordByte d 1) (wordByte d 2) (wordByte d 3) = d := by
  apply BitVec.eq_of_getLsbD_eq
  intro i hi
  simp only [wordOfBytes, wordByte, BitVec.getLsbD_append, BitVec.getLsbD_extractLsb']
  interval_cases i <;> simp

/-- A word put into a 128-bit register is read back, and the other words are kept (R77). -/
theorem quadWord_setQuadWord (v : U128) (j k : Fin 4) (d : Word) :
    quadWord (setQuadWord v j d) k = if k = j then d else quadWord v k := by
  apply BitVec.eq_of_getLsbD_eq
  intro i hi
  have mask : ∀ n, (0xFFFFFFFF : U128).getLsbD n = decide (n < 32) := by
    intro n
    rw [show (0xFFFFFFFF : U128) = BitVec.setWidth 128 (BitVec.allOnes 32) by decide]
    rw [BitVec.getLsbD_setWidth, BitVec.getLsbD_allOnes]
    simp; omega
  by_cases h : k = j
  · subst h
    simp only [quadWord, setQuadWord, BitVec.getLsbD_extractLsb', BitVec.getLsbD_or, BitVec.getLsbD_and,
      BitVec.getLsbD_not, BitVec.getLsbD_shiftLeft, BitVec.getLsbD_setWidth, mask, if_true]
    have : 96 - 32 * k.val + i < 128 := by omega
    simp [hi, this]; omega
  · have hne : k.val ≠ j.val := fun e => h (Fin.ext e)
    simp only [quadWord, setQuadWord, BitVec.getLsbD_extractLsb', BitVec.getLsbD_or, BitVec.getLsbD_and,
      BitVec.getLsbD_not, BitVec.getLsbD_shiftLeft, BitVec.getLsbD_setWidth, mask, if_neg h]
    have h1 : 96 - 32 * k.val + i < 128 := by omega
    simp only [hi, h1, decide_true, Bool.true_and]
    by_cases h2 : 96 - 32 * k.val + i < 96 - 32 * j.val
    · simp [h2]
    · have h3 : ¬ (96 - 32 * k.val + i - (96 - 32 * j.val) < 32) := by omega
      have h4 : d.getLsbD (96 - 32 * k.val + i - (96 - 32 * j.val)) = false := BitVec.getLsbD_of_ge _ _ (by omega)
      simp [h2, h3, h4]

theorem windowByte_setWindowWord {n : Nat} (v : Vector Byte n) (j : Nat) (d : Word) (i : Nat) (h : i < n) :
    windowByte (setWindowWord v j d) i = if i / 4 = j then wordByte d (i % 4) else windowByte v i := by
  simp [windowByte, setWindowWord, h]

end Sys2Proof.Machine
end

