-- ==== Sys2Proof/Laws/Blocks.lean ====
section
/-! SUPPORT. Padding, and what the blocks of a message leave in `OUTBUF`. -/

namespace Sys2Proof.Machine

seal memWrite gfmul

/-- The bytes that block i of a message leaves in `OUTBUF` under keystream block `v` (42_session.md R202). -/
def blkBytes (msg : List Byte) (i : Nat) (v : U128) : List Byte := (ser128 (blockAt (pad msg) i ^^^ v)).take
    (min 16 (msg.length - 16 * i))

/-- The buffers after the first blocks of a message under the keystream `ks`. -/
def memAfter (m : List Host.Cell) (msg : List Byte) (ks : Nat → U128) : Nat → List Host.Cell
  | 0 => m
  | j+1 => memWrite (memAfter m msg ks j) (outBase + 16 * j) (blkBytes msg j (ks j))

theorem memAfter_wf {m : List Host.Cell} (h : Memory.wf m) (msg ks) (j) : Memory.wf (memAfter m msg ks j) := by
  induction j with
  | zero => exact h
  | succ j ih => exact memWrite_wf ih _ _

theorem blkBytes_length (msg : List Byte) (i v) : (blkBytes msg i v).length = min 16 (msg.length - 16*i) := by
  simp [blkBytes]

theorem pad_length (msg : List Byte) : (pad msg).length = 16 * (msg.length / 16 + 1) := by
  simp [pad]; omega

theorem pad_getD (msg : List Byte) (i : Nat) (h : i < msg.length) : (pad msg).getD i 0 = msg.getD i 0 := by
  simp [pad, List.getElem?_append_left h]

theorem blkBytes_getD (msg : List Byte) (i v k) (h : k < min 16 (msg.length - 16*i)) :
   (blkBytes msg i v).getD k 0 = msg.getD (16*i+k) 0 ^^^ (ser128 v).getD k 0 := by
  have hk : k < 16 := by omega
  have h1 : (blkBytes msg i v).getD k 0 = (ser128 (blockAt (pad msg) i ^^^ v)).getD k 0 := by
    simp [blkBytes, show k < 16 ∧ k < msg.length - 16 * i by omega]
  have hl := pad_length msg
  have h2 : (((pad msg).drop (16*i)).take 16).length = 16 := by simp; omega
  rw [h1, ser128_xor_getD, blockAt, ser128_be128 h2]
  congr 1
  have : (((pad msg).drop (16*i)).take 16).getD k 0 = (pad msg).getD (16*i+k) 0 := by
    simp [hk]
  rw [this, pad_getD _ _ (by omega)]

/-- Byte by byte, what the first j blocks leave in memory (42_session.md R197, R213). -/
theorem memAfter_read {m : List Host.Cell} (h : Memory.wf m) (msg : List Byte) (ks) (j : Nat)
    (hj : j ≤ msg.length / 16 + 1) (a : Nat) :
   Memory.read (memAfter m msg ks j) a = if outBase ≤ a ∧ a < outBase + min msg.length (16*j) then
      msg.getD (a - outBase) 0 ^^^ (ser128 (ks ((a-outBase)/16))).getD ((a-outBase)%16) 0 else Memory.read m a := by
  induction j with
  | zero => simp [memAfter]
  | succ j ih =>
    have ih := ih (by omega)
    simp only [memAfter]
    rw [memWrite_read (memAfter_wf h _ _ _), blkBytes_length, ih]
    by_cases h1 : outBase + 16 * j ≤ a ∧ a < outBase + 16*j + min 16 (msg.length - 16*j)
    · rw [if_pos h1, if_pos (by omega), blkBytes_getD _ _ _ _ (by omega)]
      rw [show 16 * j + (a - (outBase + 16*j)) = a - outBase by omega, show (a - outBase) / 16 = j by omega, show
          (a - outBase) % 16 = a - (outBase + 16*j) by omega]
    · rw [if_neg h1]
      by_cases h2 : outBase ≤ a ∧ a < outBase + min msg.length (16*j)
      · rw [if_pos h2, if_pos (by omega)]
      · rw [if_neg h2, if_neg (by omega)]

theorem memRead_data_after {m : List Host.Cell} (h : Memory.wf m) (msg ks j) (hj : j ≤ msg.length/16+1) (n : Nat)
    (hn : dataBase + n ≤ outBase) : memRead (memAfter m msg ks j) dataBase n = memRead m dataBase n := by
  apply memRead_congr
  intro i hi
  rw [memAfter_read h msg ks j hj, if_neg (by omega)]

theorem memRead_aad_after {m : List Host.Cell} (h : Memory.wf m) (msg ks j) (hj : j ≤ msg.length/16+1) (n : Nat)
    (hn : aadBase + n ≤ outBase) : memRead (memAfter m msg ks j) aadBase n = memRead m aadBase n := by
  apply memRead_congr
  intro i hi
  rw [memAfter_read h msg ks j hj, if_neg (by omega)]

end Sys2Proof.Machine
end

