-- ==== Sys2Proof/Laws/Step.lean ====
section
/-! SUPPORT. What a step, the controller's turn, a bus transaction and the receipt of a response can do, each said once. -/

namespace Sys2Proof.Machine

variable {s t : State}

/-- With no move left, taking one off changes nothing. -/
theorem State.popMove_of_nil (h : s.env.moves = []) : s.popMove = s := by
  obtain ⟨hw, par, prov, env⟩ := s
  obtain ⟨moves, resp, fault⟩ := env
  simp_all [State.popMove]

/-- Everything a step can do: a bus read, a bus write, the reset event, or the controller's turn, each on the state less its
first move. -/
theorem step_cases (h : step s = .next t) :
    (∃ a ms, s.env.moves = .read a :: ms ∧ t = s.popMove.busRead a) ∨
    (∃ a d ms, s.env.moves = .write a d :: ms ∧ t = s.popMove.busWrite a d) ∨
    (∃ ms, s.env.moves = .reset :: ms ∧ t = s.popMove.resetEvent) ∨
    ((s.env.moves = [] ∨ ∃ ms, s.env.moves = .core :: ms) ∧ coreTurn s.popMove = .next t) := by
  unfold step at h
  split at h
  · rename_i hm
    exact .inr (.inr (.inr ⟨.inl hm, by rwa [State.popMove_of_nil hm]⟩))
  · rename_i ms hm
    exact .inr (.inr (.inr ⟨.inr ⟨ms, hm⟩, h⟩))
  · rename_i a ms hm
    injection h with h
    exact .inl ⟨a, ms, hm, h.symm⟩
  · rename_i a d ms hm
    injection h with h
    exact .inr (.inl ⟨a, d, ms, hm, h.symm⟩)
  · rename_i ms hm
    injection h with h
    exact .inr (.inr (.inl ⟨ms, hm, h.symm⟩))

/-- Everything the controller's turn can do: nothing in IDLE, the completion of an illegal word, or one step of the command. -/
theorem coreTurn_cases (h : coreTurn s = .next t) :
    (s.hw.phase = .idle ∧ t = s) ∨
    (∃ w k e, s.hw.phase = .exec w k ∧ decode w = .error e ∧ t = s.illegalCommand) ∨
    (∃ w k i, s.hw.phase = .exec w k ∧ decode w = .ok i ∧ exec i s = .next t) := by
  unfold coreTurn at h
  split at h
  · rename_i hp
    injection h with h
    exact .inl ⟨hp, h.symm⟩
  · rename_i w k hp
    split at h
    · rename_i i hi
      exact .inr (.inr ⟨w, k, i, hp, hi, h⟩)
    · rename_i e he
      injection h with h
      exact .inr (.inl ⟨w, k, e, hp, he, h.symm⟩)

/-- Everything a bus read can do: an error response with the fault recorded, or the word. -/
theorem busRead_cases (s : State) (a : Word) :
    (∃ f, s.busCheck a = .error f ∧ s.busRead a = s.busError f) ∨
    (∃ l, s.busCheck a = .ok l ∧ s.busRead a = s.respond (.data (s.readLoc l))) := by
  unfold State.busRead
  cases h : s.busCheck a with
  | error f => exact .inl ⟨f, rfl, rfl⟩
  | ok l => exact .inr ⟨l, rfl, rfl⟩

/-- Everything a bus write can do: an error response with the fault recorded, or the location's write action. -/
theorem busWrite_cases (s : State) (a d : Word) :
    (∃ f, s.busCheck a = .error f ∧ s.busWrite a d = s.busError f) ∨
    (∃ l, s.busCheck a = .ok l ∧ s.busWrite a d = (s.onHw fun h => h.writeLoc l d).respond .written) := by
  unfold State.busWrite
  cases h : s.busCheck a with
  | error f => exact .inl ⟨f, rfl, rfl⟩
  | ok l => exact .inr ⟨l, rfl, rfl⟩

/-- When the bus check lets a transaction through: aligned, mapped, and not gated while busy. -/
theorem busCheck_ok {a : Word} {l : Loc} (h : s.busCheck a = .ok l) :
    a.toNat % 4 = 0 ∧ locate s.par a.toNat = some l ∧ (l.gated = true → s.hw.busy = false) := by
  unfold State.busCheck at h
  split at h
  · cases h
  · rename_i ha
    split at h
    · cases h
    · rename_i l' hl
      split at h
      · cases h
      · rename_i hg
        injection h with h
        subst h
        refine ⟨by simpa using ha, hl, fun g => ?_⟩
        simpa [g] using hg

/-- Everything the receipt of a response can do: wait, go on with the block, or raise `BlockCipherError`. -/
theorem awaitResponse_cases (s : State) (r : Request) (take : Nat → U128 → HwState → HwState) :
    (s.prov.answers = [] ∧ s.awaitResponse r take = s) ∨
    (∃ rest, s.prov.answers = .ok :: rest ∧
      s.awaitResponse r take =
        { s with
          prov := { s.prov with answers := rest },
          hw := take s.hw.phase.responses (s.prov.value r) s.hw.received }) ∨
    (∃ c rest, s.prov.answers = .err c :: rest ∧
      s.awaitResponse r take =
        { s with
          prov := { s.prov with answers := rest },
          hw := s.hw.received.raise .blockCipherError c }) := by
  unfold State.awaitResponse
  split
  · rename_i h; exact .inl ⟨h, rfl⟩
  · rename_i rest h; exact .inr (.inl ⟨rest, h, rfl⟩)
  · rename_i c rest h; exact .inr (.inr ⟨c, rest, h, rfl⟩)

end Sys2Proof.Machine
end

