-- ==== Sys2Proof/Laws/Bus.lean ====
section
/-! SUPPORT. The register map, location by location: what a host write leaves alone, and where an accepted address leads. -/

namespace Sys2Proof.Machine

seal memWrite gfmul setWindowWord setQuadWord

variable (h : HwState)

/-! ### `writeStatus`: only `DONE` -/

@[simp] theorem HwState.writeStatus_irqEn (d : Word) : (h.writeStatus d).irqEn = h.irqEn := by
  unfold HwState.writeStatus; split <;> rfl
@[simp] theorem HwState.writeStatus_busy (d : Word) : (h.writeStatus d).busy = h.busy := by
  unfold HwState.writeStatus; split <;> rfl
@[simp] theorem HwState.writeStatus_outValid (d : Word) : (h.writeStatus d).outValid = h.outValid := by
  unfold HwState.writeStatus; split <;> rfl
@[simp] theorem HwState.writeStatus_eq (d : Word) : (h.writeStatus d).eq = h.eq := by
  unfold HwState.writeStatus; split <;> rfl
@[simp] theorem HwState.writeStatus_errcode (d : Word) : (h.writeStatus d).errcode = h.errcode := by
  unfold HwState.writeStatus; split <;> rfl
@[simp] theorem HwState.writeStatus_keyLen (d : Word) : (h.writeStatus d).keyLen = h.keyLen := by
  unfold HwState.writeStatus; split <;> rfl
@[simp] theorem HwState.writeStatus_nonceLen (d : Word) : (h.writeStatus d).nonceLen = h.nonceLen := by
  unfold HwState.writeStatus; split <;> rfl
@[simp] theorem HwState.writeStatus_errDetail (d : Word) : (h.writeStatus d).errDetail = h.errDetail := by
  unfold HwState.writeStatus; split <;> rfl
@[simp] theorem HwState.writeStatus_aadLen (d : Word) : (h.writeStatus d).aadLen = h.aadLen := by
  unfold HwState.writeStatus; split <;> rfl
@[simp] theorem HwState.writeStatus_dataLen (d : Word) : (h.writeStatus d).dataLen = h.dataLen := by
  unfold HwState.writeStatus; split <;> rfl
@[simp] theorem HwState.writeStatus_outLen (d : Word) : (h.writeStatus d).outLen = h.outLen := by
  unfold HwState.writeStatus; split <;> rfl
@[simp] theorem HwState.writeStatus_keyb (d : Word) : (h.writeStatus d).keyb = h.keyb := by
  unfold HwState.writeStatus; split <;> rfl
@[simp] theorem HwState.writeStatus_nonceb (d : Word) : (h.writeStatus d).nonceb = h.nonceb := by
  unfold HwState.writeStatus; split <;> rfl
@[simp] theorem HwState.writeStatus_opa (d : Word) : (h.writeStatus d).opa = h.opa := by
  unfold HwState.writeStatus; split <;> rfl
@[simp] theorem HwState.writeStatus_opb (d : Word) : (h.writeStatus d).opb = h.opb := by
  unfold HwState.writeStatus; split <;> rfl
@[simp] theorem HwState.writeStatus_res (d : Word) : (h.writeStatus d).res = h.res := by
  unfold HwState.writeStatus; split <;> rfl
@[simp] theorem HwState.writeStatus_mem (d : Word) : (h.writeStatus d).mem = h.mem := by
  unfold HwState.writeStatus; split <;> rfl
@[simp] theorem HwState.writeStatus_session (d : Word) : (h.writeStatus d).session = h.session := by
  unfold HwState.writeStatus; split <;> rfl
@[simp] theorem HwState.writeStatus_skeyb (d : Word) : (h.writeStatus d).skeyb = h.skeyb := by
  unfold HwState.writeStatus; split <;> rfl
@[simp] theorem HwState.writeStatus_skl (d : Word) : (h.writeStatus d).skl = h.skl := by
  unfold HwState.writeStatus; split <;> rfl
@[simp] theorem HwState.writeStatus_ctr (d : Word) : (h.writeStatus d).ctr = h.ctr := by
  unfold HwState.writeStatus; split <;> rfl
@[simp] theorem HwState.writeStatus_hsub (d : Word) : (h.writeStatus d).hsub = h.hsub := by
  unfold HwState.writeStatus; split <;> rfl
@[simp] theorem HwState.writeStatus_eky0 (d : Word) : (h.writeStatus d).eky0 = h.eky0 := by
  unfold HwState.writeStatus; split <;> rfl
@[simp] theorem HwState.writeStatus_gacc (d : Word) : (h.writeStatus d).gacc = h.gacc := by
  unfold HwState.writeStatus; split <;> rfl
@[simp] theorem HwState.writeStatus_phase (d : Word) : (h.writeStatus d).phase = h.phase := by
  unfold HwState.writeStatus; split <;> rfl
@[simp] theorem HwState.writeStatus_pend (d : Word) : (h.writeStatus d).pend = h.pend := by
  unfold HwState.writeStatus; split <;> rfl

/-! ### `writeLoc`: what no host write changes -/

theorem HwState.writeLoc_status (d : Word) : h.writeLoc .status d = h.writeStatus d := rfl

@[simp] theorem HwState.writeLoc_session (l : Loc) (d : Word) : (h.writeLoc l d).session = h.session := by
  cases l with
  | status => rw [HwState.writeLoc_status, HwState.writeStatus_session]
  | _ => rfl
@[simp] theorem HwState.writeLoc_skeyb (l : Loc) (d : Word) : (h.writeLoc l d).skeyb = h.skeyb := by
  cases l with
  | status => rw [HwState.writeLoc_status, HwState.writeStatus_skeyb]
  | _ => rfl
@[simp] theorem HwState.writeLoc_skl (l : Loc) (d : Word) : (h.writeLoc l d).skl = h.skl := by
  cases l with
  | status => rw [HwState.writeLoc_status, HwState.writeStatus_skl]
  | _ => rfl
@[simp] theorem HwState.writeLoc_ctr (l : Loc) (d : Word) : (h.writeLoc l d).ctr = h.ctr := by
  cases l with
  | status => rw [HwState.writeLoc_status, HwState.writeStatus_ctr]
  | _ => rfl
@[simp] theorem HwState.writeLoc_hsub (l : Loc) (d : Word) : (h.writeLoc l d).hsub = h.hsub := by
  cases l with
  | status => rw [HwState.writeLoc_status, HwState.writeStatus_hsub]
  | _ => rfl
@[simp] theorem HwState.writeLoc_eky0 (l : Loc) (d : Word) : (h.writeLoc l d).eky0 = h.eky0 := by
  cases l with
  | status => rw [HwState.writeLoc_status, HwState.writeStatus_eky0]
  | _ => rfl
@[simp] theorem HwState.writeLoc_gacc (l : Loc) (d : Word) : (h.writeLoc l d).gacc = h.gacc := by
  cases l with
  | status => rw [HwState.writeLoc_status, HwState.writeStatus_gacc]
  | _ => rfl
@[simp] theorem HwState.writeLoc_pend (l : Loc) (d : Word) : (h.writeLoc l d).pend = h.pend := by
  cases l with
  | status => rw [HwState.writeLoc_status, HwState.writeStatus_pend]
  | _ => rfl
@[simp] theorem HwState.writeLoc_res (l : Loc) (d : Word) : (h.writeLoc l d).res = h.res := by
  cases l with
  | status => rw [HwState.writeLoc_status, HwState.writeStatus_res]
  | _ => rfl
@[simp] theorem HwState.writeLoc_eq (l : Loc) (d : Word) : (h.writeLoc l d).eq = h.eq := by
  cases l with
  | status => rw [HwState.writeLoc_status, HwState.writeStatus_eq]
  | _ => rfl
@[simp] theorem HwState.writeLoc_outValid (l : Loc) (d : Word) : (h.writeLoc l d).outValid = h.outValid := by
  cases l with
  | status => rw [HwState.writeLoc_status, HwState.writeStatus_outValid]
  | _ => rfl
@[simp] theorem HwState.writeLoc_outLen (l : Loc) (d : Word) : (h.writeLoc l d).outLen = h.outLen := by
  cases l with
  | status => rw [HwState.writeLoc_status, HwState.writeStatus_outLen]
  | _ => rfl

/-! ### Accepted addresses -/

theorem locate_aadbuf (p : Params) {off : Nat} (h : off < p.maxAad) : locate p (aadBase + off) = some (.aad off) := by
  have := p.aadUnits.isLt
  have hm : p.maxAad ≤ 2 ^ 30 := by simp only [Params.maxAad]; omega
  unfold locate
  rw [if_neg (by omega), if_pos (by simp only [aadBase, dataBase]; omega), if_pos (by omega)]
  simp

theorem locate_databuf (p : Params) {off : Nat} (h : off < p.maxData) : locate p (dataBase + off) = some (.data off) := by
  have := p.dataUnits.isLt
  have hm : p.maxData ≤ 2 ^ 30 := by simp only [Params.maxData]; omega
  unfold locate
  rw [if_neg (by simp only [aadBase, dataBase]; omega), if_neg (by omega),
    if_pos (by simp only [dataBase, outBase]; omega), if_pos (by omega)]
  simp

theorem locate_outbuf (p : Params) {off : Nat} (h : off < outSize p) : locate p (outBase + off) = some (.out off) := by
  unfold locate
  rw [if_neg (by simp only [aadBase, outBase]; omega), if_neg (by simp only [dataBase, outBase]; omega),
    if_neg (by omega), if_pos (by omega)]
  simp

/-- A transaction to an aligned, mapped, ungated or idle address goes to its location. -/
theorem busCheck_of {s : State} {a : Word} {l : Loc} (ha : a.toNat % 4 = 0) (hl : locate s.par a.toNat = some l)
    (hg : l.gated = true → s.hw.busy = false) : s.busCheck a = .ok l := by
  unfold State.busCheck
  rw [if_neg (by simpa using ha), hl]
  simp only
  rw [if_neg]
  intro h
  rw [Bool.and_eq_true] at h
  rw [hg h.1] at h
  exact Bool.false_ne_true h.2

theorem busRead_of {s : State} {a : Word} {l : Loc} (h : s.busCheck a = .ok l) :
    s.busRead a = s.respond (.data (s.readLoc l)) := by
  unfold State.busRead; rw [h]

theorem busWrite_of {s : State} {a : Word} {l : Loc} (h : s.busCheck a = .ok l) (d : Word) :
    s.busWrite a d = (s.onHw fun x => x.writeLoc l d).respond .written := by
  unfold State.busWrite; rw [h]

theorem busRead_error {s : State} {a : Word} {f : Fault} (h : s.busCheck a = .error f) : s.busRead a = s.busError f := by
  unfold State.busRead; rw [h]

theorem busWrite_error {s : State} {a : Word} {f : Fault} (h : s.busCheck a = .error f) (d : Word) :
    s.busWrite a d = s.busError f := by
  unfold State.busWrite; rw [h]

end Sys2Proof.Machine
end

