-- ==== Sys2Proof/Laws/Exec.lean ====
section
/-! SUPPORT. What the commands' meanings come down to: the checks as propositions, and ENCRYPT and DECRYPT by whether a request is
out. -/

namespace Sys2Proof.Machine

seal memWrite gfmul

theorem lengthsTooLong_eq_false_iff (s : State) : s.lengthsTooLong = false ↔ s.lengthsFit := by
  simp [State.lengthsTooLong, State.lengthsFit]

theorem lengthsTooLong_eq_true_iff (s : State) :
    s.lengthsTooLong = true ↔ s.par.maxAad < s.hw.aadLen.toNat ∨ s.par.maxData < s.hw.dataLen.toNat := by
  simp [State.lengthsTooLong]

theorem legalKeyLen_iff (kl : Byte) : legalKeyLen kl = true ↔ kl = 16 ∨ kl = 24 ∨ kl = 32 := by
  simp [legalKeyLen, or_assoc]

theorem initCommand_ok {h : HwState} (hk : legalKeyLen h.keyLen = true) (hn : h.nonceLen = 12) :
    h.initCommand = h.hideOutput.newSession.finish := by
  rw [HwState.initCommand, if_pos hk, if_pos hn]

theorem initCommand_badNonce {h : HwState} (hk : legalKeyLen h.keyLen = true) (hn : h.nonceLen ≠ 12) :
    h.initCommand = h.hideOutput.clearSession.raise .invalidNonceSize 0 := by
  rw [HwState.initCommand, if_pos hk, if_neg hn]

theorem initCommand_badKey {h : HwState} (hk : ¬ legalKeyLen h.keyLen = true) :
    h.initCommand = h.hideOutput.clearSession.raise .invalidKeySize 0 := by
  rw [HwState.initCommand, if_neg hk]

/-- Everything INIT can do. -/
theorem initCommand_cases (h : HwState) :
    (legalKeyLen h.keyLen = true ∧ h.nonceLen = 12 ∧ h.initCommand = h.hideOutput.newSession.finish) ∨
    (legalKeyLen h.keyLen = true ∧ h.nonceLen ≠ 12 ∧
      h.initCommand = h.hideOutput.clearSession.raise .invalidNonceSize 0) ∨
    (¬ legalKeyLen h.keyLen = true ∧ h.initCommand = h.hideOutput.clearSession.raise .invalidKeySize 0) := by
  by_cases hk : legalKeyLen h.keyLen = true
  · by_cases hn : h.nonceLen = 12
    · exact .inl ⟨hk, hn, initCommand_ok hk hn⟩
    · exact .inr (.inl ⟨hk, hn, initCommand_badNonce hk hn⟩)
  · exact .inr (.inr ⟨hk, initCommand_badKey hk⟩)

/-- Everything GHASH can do. -/
theorem execGhash_cases {s t : State} (h : exec .ghash s = .next t) :
    (¬ s.lengthsFit ∧ t = s.onHw fun h => h.raise .lengthError 0) ∨
    (s.lengthsFit ∧ t = s.onHw HwState.ghashCommand) := by
  unfold exec execGhash at h
  injection h with h; subst h
  by_cases hl : s.lengthsTooLong = true
  · refine .inl ⟨fun hf => ?_, if_pos hl⟩
    rw [(lengthsTooLong_eq_false_iff s).mpr hf] at hl; cases hl
  · exact .inr ⟨(lengthsTooLong_eq_false_iff s).mp (by simpa using hl), if_neg hl⟩

theorem execEncrypt_advance {s : State} {w k} (hp : s.hw.phase = .exec w k) (hn : s.hw.pend = none) :
    exec .encrypt s = .next (s.encryptAdvance k) := by
  unfold exec execEncrypt; rw [hn, hp]; rfl

theorem execEncrypt_await {s : State} {r} (hr : s.hw.pend = some r) :
    exec .encrypt s = .next (s.awaitResponse r fun k v h => h.takeBlock (h.data h.dataLen.toNat) k v) := by
  unfold exec execEncrypt; rw [hr]

theorem execDecrypt_advance {s : State} {w k} (hp : s.hw.phase = .exec w k) (hn : s.hw.pend = none) :
    exec .decrypt s = .next (s.decryptAdvance k) := by
  unfold exec execDecrypt; rw [hn, hp]; rfl

theorem execDecrypt_await {s : State} {r} (hr : s.hw.pend = some r) :
    exec .decrypt s = .next (s.awaitResponse r fun k v h => h.takeBlock (h.data h.cipherLen) k v) := by
  unfold exec execDecrypt; rw [hr]

/-- The block after a session operation's start in a FRESH session. -/
theorem encryptBegin_fresh {s : State} (hf : s.hw.session = .fresh) (hl : s.lengthsFit) :
    s.encryptBegin = s.requested s.hw.claimed 0 := by
  unfold State.encryptBegin; rw [hf]; simp only [(lengthsTooLong_eq_false_iff s).mpr hl]; rfl

theorem decryptBegin_fresh {s : State} (hf : s.hw.session = .fresh) (hl : s.lengthsFit)
    (hd : 16 ≤ s.hw.dataLen.toNat) : s.decryptBegin = s.requested s.hw.claimed 0 := by
  unfold State.decryptBegin; rw [hf]
  simp only [(lengthsTooLong_eq_false_iff s).mpr hl, if_neg (show ¬ s.hw.dataLen.toNat < 16 by omega)]; rfl

theorem encryptAdvance_request {s : State} {i : Nat} (h : i < blockCount s.hw.dataLen.toNat) :
    s.encryptAdvance (i + 2) = s.requestKeystream := by
  unfold State.encryptAdvance; exact if_pos h

theorem encryptAdvance_finish {s : State} {i : Nat} (h : blockCount s.hw.dataLen.toNat ≤ i) :
    s.encryptAdvance (i + 2) = s.onHw HwState.encryptFinish := by
  unfold State.encryptAdvance; exact if_neg (by omega)

theorem decryptAdvance_request {s : State} {i : Nat} (h : i + 1 < blockCount s.hw.cipherLen) :
    s.decryptAdvance (i + 3) = s.requestKeystream := by
  unfold State.decryptAdvance; exact if_pos h

theorem decryptAdvance_finish {s : State} {i : Nat} (h : blockCount s.hw.cipherLen ≤ i + 1) :
    s.decryptAdvance (i + 3) = s.onHw HwState.decryptFinish := by
  unfold State.decryptAdvance; exact if_neg (by omega)

/-- Everything one step of ENCRYPT can do. -/
theorem execEncrypt_cases {s t : State} (h : exec .encrypt s = .next t) :
    (∃ r, s.hw.pend = some r ∧ s.prov.answers = [] ∧ t = s) ∨
    (∃ r rest, s.hw.pend = some r ∧ s.prov.answers = .ok :: rest ∧
      t = { s with
        prov := { s.prov with answers := rest },
        hw := s.hw.received.takeBlock (s.hw.data s.hw.dataLen.toNat) s.hw.phase.responses (s.prov.value r) }) ∨
    (∃ r c rest, s.hw.pend = some r ∧ s.prov.answers = .err c :: rest ∧
      t = { s with
        prov := { s.prov with answers := rest }, hw := s.hw.received.raise .blockCipherError c }) ∨
    (s.hw.pend = none ∧ s.hw.phase.responses = 0 ∧
      ((s.hw.session = .none ∧ t = s.onHw fun h => h.raise .noSession 0) ∨
       (s.hw.session = .used ∧ t = s.onHw fun h => h.raise .instanceAlreadyUsed 0) ∨
       (s.hw.session = .fresh ∧ ¬ s.lengthsFit ∧ t = s.onHw fun h => h.claimSession.raise .lengthError 0) ∨
       (s.hw.session = .fresh ∧ s.lengthsFit ∧ t = (s.onHw HwState.claimSession).sendRequest 0))) ∨
    (s.hw.pend = none ∧ s.hw.phase.responses = 1 ∧ t = s.sendRequest s.hw.ctr) ∨
    (∃ i, s.hw.pend = none ∧ s.hw.phase.responses = i + 2 ∧ i < blockCount s.hw.dataLen.toNat ∧
      t = s.requestKeystream) ∨
    (∃ i, s.hw.pend = none ∧ s.hw.phase.responses = i + 2 ∧ blockCount s.hw.dataLen.toNat ≤ i ∧
      t = s.onHw HwState.encryptFinish) := by
  unfold exec execEncrypt at h
  injection h with h; subst h
  cases hp : s.hw.pend with
  | some r =>
    rcases awaitResponse_cases s r (fun k v h => h.takeBlock (h.data h.dataLen.toNat) k v) with
      ⟨ha, e⟩ | ⟨rest, ha, e⟩ | ⟨c, rest, ha, e⟩
    · exact .inl ⟨r, rfl, ha, e⟩
    · exact .inr (.inl ⟨r, rest, rfl, ha, e⟩)
    · exact .inr (.inr (.inl ⟨r, c, rest, rfl, ha, e⟩))
  | none =>
    refine .inr (.inr (.inr ?_))
    simp only
    match hk : s.hw.phase.responses with
    | 0 =>
      refine .inl ⟨trivial, rfl, ?_⟩
      simp only [State.encryptAdvance, State.encryptBegin]
      cases hs : s.hw.session with
      | none => exact .inl ⟨rfl, rfl⟩
      | used => exact .inr (.inl ⟨rfl, rfl⟩)
      | fresh =>
        refine .inr (.inr ?_)
        by_cases hl : s.lengthsTooLong = true
        · refine .inl ⟨rfl, fun hf => ?_, if_pos hl⟩
          rw [(lengthsTooLong_eq_false_iff s).mpr hf] at hl; cases hl
        · exact .inr ⟨rfl, (lengthsTooLong_eq_false_iff s).mp (by simpa using hl), if_neg hl⟩
    | 1 => exact .inr (.inl ⟨trivial, rfl, rfl⟩)
    | i + 2 =>
      refine .inr (.inr ?_)
      by_cases hi : i < blockCount s.hw.dataLen.toNat
      · exact .inl ⟨i, trivial, rfl, hi, if_pos hi⟩
      · exact .inr ⟨i, trivial, rfl, by omega, if_neg hi⟩

/-- Everything one step of DECRYPT can do. -/
theorem execDecrypt_cases {s t : State} (h : exec .decrypt s = .next t) :
    (∃ r, s.hw.pend = some r ∧ s.prov.answers = [] ∧ t = s) ∨
    (∃ r rest, s.hw.pend = some r ∧ s.prov.answers = .ok :: rest ∧
      t = { s with
        prov := { s.prov with answers := rest },
        hw := s.hw.received.takeBlock (s.hw.data s.hw.cipherLen) s.hw.phase.responses (s.prov.value r) }) ∨
    (∃ r c rest, s.hw.pend = some r ∧ s.prov.answers = .err c :: rest ∧
      t = { s with
        prov := { s.prov with answers := rest }, hw := s.hw.received.raise .blockCipherError c }) ∨
    (s.hw.pend = none ∧ s.hw.phase.responses = 0 ∧
      ((s.hw.session = .none ∧ t = s.onHw fun h => h.raise .noSession 0) ∨
       (s.hw.session = .used ∧ t = s.onHw fun h => h.raise .instanceAlreadyUsed 0) ∨
       (s.hw.session = .fresh ∧ ¬ s.lengthsFit ∧ t = s.onHw fun h => h.claimSession.raise .lengthError 0) ∨
       (s.hw.session = .fresh ∧ s.lengthsFit ∧ s.hw.dataLen.toNat < 16 ∧
         t = s.onHw fun h => h.claimSession.raise .invalidDataSize 0) ∨
       (s.hw.session = .fresh ∧ s.lengthsFit ∧ 16 ≤ s.hw.dataLen.toNat ∧
         t = (s.onHw HwState.claimSession).sendRequest 0))) ∨
    (s.hw.pend = none ∧ s.hw.phase.responses = 1 ∧ t = s.sendRequest s.hw.ctr) ∨
    (s.hw.pend = none ∧ s.hw.phase.responses = 2 ∧
      ((s.hw.hashForTag.tagDiff ≠ 0 ∧
          t = (s.onHw HwState.hashForTag).onHw fun h => h.raise .authTagValidation 0) ∨
       (s.hw.hashForTag.tagDiff = 0 ∧ t = (s.onHw HwState.hashForTag).requestKeystream))) ∨
    (∃ i, s.hw.pend = none ∧ s.hw.phase.responses = i + 3 ∧ i + 1 < blockCount s.hw.cipherLen ∧
      t = s.requestKeystream) ∨
    (∃ i, s.hw.pend = none ∧ s.hw.phase.responses = i + 3 ∧ blockCount s.hw.cipherLen ≤ i + 1 ∧
      t = s.onHw HwState.decryptFinish) := by
  unfold exec execDecrypt at h
  injection h with h; subst h
  cases hp : s.hw.pend with
  | some r =>
    rcases awaitResponse_cases s r (fun k v h => h.takeBlock (h.data h.cipherLen) k v) with
      ⟨ha, e⟩ | ⟨rest, ha, e⟩ | ⟨c, rest, ha, e⟩
    · exact .inl ⟨r, rfl, ha, e⟩
    · exact .inr (.inl ⟨r, rest, rfl, ha, e⟩)
    · exact .inr (.inr (.inl ⟨r, c, rest, rfl, ha, e⟩))
  | none =>
    refine .inr (.inr (.inr ?_))
    simp only
    match hk : s.hw.phase.responses with
    | 0 =>
      refine .inl ⟨trivial, rfl, ?_⟩
      simp only [State.decryptAdvance, State.decryptBegin]
      cases hs : s.hw.session with
      | none => exact .inl ⟨rfl, rfl⟩
      | used => exact .inr (.inl ⟨rfl, rfl⟩)
      | fresh =>
        refine .inr (.inr ?_)
        by_cases hl : s.lengthsTooLong = true
        · refine .inl ⟨rfl, fun hf => ?_, if_pos hl⟩
          rw [(lengthsTooLong_eq_false_iff s).mpr hf] at hl; cases hl
        · have hf := (lengthsTooLong_eq_false_iff s).mp (by simpa using hl)
          by_cases hd : s.hw.dataLen.toNat < 16
          · exact .inr (.inl ⟨rfl, hf, hd, (if_neg hl).trans (if_pos hd)⟩)
          · exact .inr (.inr ⟨rfl, hf, by omega, (if_neg hl).trans (if_neg hd)⟩)
    | 1 => exact .inr (.inl ⟨trivial, rfl, rfl⟩)
    | 2 =>
      refine .inr (.inr (.inl ⟨trivial, rfl, ?_⟩))
      by_cases hd : s.hw.hashForTag.tagDiff = 0
      · exact .inr ⟨hd, if_neg (not_not_intro hd)⟩
      · exact .inl ⟨hd, if_pos hd⟩
    | i + 3 =>
      refine .inr (.inr (.inr ?_))
      by_cases hi : i + 1 < blockCount s.hw.cipherLen
      · exact .inl ⟨i, trivial, rfl, hi, if_pos hi⟩
      · exact .inr ⟨i, trivial, rfl, by omega, if_neg hi⟩

end Sys2Proof.Machine
end

