-- ==== Sys2Proof/Laws/Invariant.lean ====
section
/-! SUPPORT. The invariant `State.Inv`, operation by operation: what keeps it, one lemma each. -/

namespace Sys2Proof.Machine

seal memWrite gfmul

theorem not_runs_of_idle {h : HwState} (hp : h.phase = .idle) (i k) : ¬ h.runs i k := by
  rintro ⟨w, h1, -⟩; rw [hp] at h1; cases h1

/-- The invariant is about the block and the parameters only. -/
theorem State.Inv.congr {s t : State} (I : s.Inv) (h1 : t.hw = s.hw) (h2 : t.par = s.par) : t.Inv := by
  obtain ⟨hw, par, prov, env⟩ := s
  obtain ⟨hw', par', prov', env'⟩ := t
  simp only at h1 h2; subst h1 h2
  constructor
  · exact I.memCanonical
  · exact I.memMapped
  · exact I.busyIffRunning
  · exact I.doneNotBusy
  · exact I.errcodeKnown
  · exact I.errcodeRunning
  · exact I.errDetailOnly
  · exact I.sklLegal
  · exact I.keyPadding
  · exact I.noSession
  · exact I.sessionKey
  · exact I.freshSession
  · exact I.usedCounter
  · exact I.hiddenOutput
  · exact I.shownOutput
  · exact I.outLenFits
  · exact I.pendOwner
  · exact I.noResponses
  · exact I.progress

theorem State.Inv.idle_pend {s : State} (I : s.Inv) (hp : s.hw.phase = .idle) : s.hw.pend = none := by
  cases h : s.hw.pend with
  | none => rfl
  | some r =>
    obtain ⟨⟨k, h1⟩, -⟩ := I.pendOwner r h
    rcases h1 with h1 | h1 <;> exact absurd h1 (not_runs_of_idle hp _ _)

/-- A state whose block is idle needs these alone. -/
theorem State.Inv.ofIdle {s : State} (hm : Memory.wf s.hw.mem) (hmm : ∀ c ∈ s.hw.mem, inBuffer s.par c.1)
    (hp : s.hw.phase = .idle) (hb : s.hw.busy = false) (hpe : s.hw.pend = none)
    (he : s.hw.errcode.toNat ≤ 9) (hed : s.hw.errDetail ≠ 0 → s.hw.errcode = 5)
    (h1 : s.hw.skl = 0 ∨ s.hw.skl = 16 ∨ s.hw.skl = 24 ∨ s.hw.skl = 32)
    (h2 : ∀ i, s.hw.skl.toNat ≤ i → windowByte s.hw.skeyb i = 0)
    (h3 : s.hw.session = .none →
    s.hw.skeyb = Vector.replicate 32 0 ∧ s.hw.skl = 0 ∧ s.hw.ctr = 0 ∧ s.hw.hsub = 0 ∧ s.hw.eky0 = 0)
    (h4 : s.hw.session ≠ .none → s.hw.skl ≠ 0)
    (h5 : s.hw.session = .fresh →
    s.hw.ctr.extractLsb' 0 32 = 1 ∧ s.hw.hsub = 0 ∧ s.hw.eky0 = 0)
    (h6 : s.hw.session = .used →
    1 ≤ (s.hw.ctr.extractLsb' 0 32).toNat ∧ (s.hw.ctr.extractLsb' 0 32).toNat ≤ 1 + 2 ^ 26)
    (h7 : s.hw.outValid = false → s.hw.outLen = 0)
    (h8 : s.hw.outValid = true → s.hw.session = .used)
    (h9 : s.hw.outLen.toNat ≤ outSize s.par) : s.Inv := by
  constructor <;> try assumption
  · simp [hp, hb]
  · intro _; exact hb
  · intro h; rw [hb] at h; cases h
  · intro r hr; rw [hpe] at hr; cases hr
  · intro w k h; rw [hp] at h; cases h
  · intro i k _ h; exact absurd h (not_runs_of_idle hp _ _)

theorem maxData_lt (p : Params) : p.maxData + 16 ≤ 2^30 := by
  have := p.dataUnits.isLt; simp only [Params.maxData]; omega
theorem maxAad_lt (p : Params) : p.maxAad + 16 ≤ 2^30 := by
  have := p.aadUnits.isLt; simp only [Params.maxAad]; omega

theorem State.Inv.resetEvent {s : State} (I : s.Inv) : s.resetEvent.Inv := by
  apply State.Inv.ofIdle <;> simp [HwState.atReset, windowByte]
  · exact I.memCanonical
  · intro a b hab; exact I.memMapped (a,b) hab

/-- A completion whose command wrote `RES`, `STATUS.EQ` or `GACC` only. -/
theorem State.Inv.completedAs {s : State} (I : s.Inv) (c : Byte) (d : Word) (hc : c.toNat ≤ 9)
    (hd : d ≠ 0 → c = 5)
    (hpend : s.hw.pend = none) (h' : HwState)
    (e : h' = { s.hw with res := h'.res, eq := h'.eq, gacc := h'.gacc }) :
    (s.completedAs h' c d).Inv := by
  rw [e]
  have := I.memMapped
  apply State.Inv.ofIdle <;> simp only [State.completedAs] <;> try first
    | assumption | exact I.memCanonical | exact I.sklLegal | exact I.keyPadding | exact I.noSession
    | exact I.sessionKey | exact I.freshSession | exact I.usedCounter | exact I.hiddenOutput
    | exact I.shownOutput | exact I.outLenFits

theorem registerAt_not_buffer (a : Nat) : (∀ o, registerAt a ≠ some (.aad o)) ∧ (∀ o, registerAt a ≠ some
    (.data o)) ∧ (∀ o, registerAt a ≠ some (.out o)) := by
  unfold registerAt
  split <;> simp

/-- Where an `AADBUF` word comes from. -/
theorem locate_aad {p : Params} {a o : Nat} (h : locate p a = some (.aad o)) : a = aadBase + o ∧ o < p.maxAad := by
  unfold locate at h
  split at h
  · exact absurd h ((registerAt_not_buffer a).1 o)
  · split at h
    · split at h
      · injection h with h; injection h with h; omega
      · cases h
    · split at h
      · split at h <;> cases h
      · split at h <;> cases h

/-- Where a `DATABUF` word comes from. -/
theorem locate_data {p : Params} {a o : Nat} (h : locate p a = some (.data o)) : a = dataBase + o ∧
    o < p.maxData := by
  unfold locate at h
  split at h
  · exact absurd h ((registerAt_not_buffer a).2.1 o)
  · split at h
    · split at h <;> cases h
    · split at h
      · split at h
        · injection h with h; injection h with h; omega
        · cases h
      · split at h <;> cases h

theorem memMapped_store {p : Params} {m : List Host.Cell} (hm : ∀ c ∈ m, inBuffer p c.1) (a : Nat) (bs : List Byte)
    (h : ∀ x, a ≤ x → x < a + bs.length → inBuffer p x) : ∀ c ∈ memWrite m a bs, inBuffer p c.1 := by
  intro c hc
  rcases mem_memWrite hc with hc | ⟨h1,h2⟩
  · exact hm c hc
  · exact h _ h1 h2

theorem State.Inv.idle_of_not_busy {s : State} (I : s.Inv) (h : s.hw.busy = false) : s.hw.phase = .idle := by
  by_contra hp
  have := I.busyIffRunning.mpr hp
  simp [h] at this

theorem State.Inv.store {s : State} (I : s.Inv) (hb : s.hw.busy = false) (a : Nat) (bs : List Byte)
    (h : ∀ x, a ≤ x → x < a + bs.length → inBuffer s.par x) : (s.onHw fun h => h.store a bs).Inv := by
  have hp := State.Inv.idle_of_not_busy I hb
  have hpe := I.idle_pend hp
  apply State.Inv.ofIdle
  · exact memWrite_wf I.memCanonical _ _
  · exact memMapped_store I.memMapped _ _ h
  · exact hp
  · exact hb
  · exact hpe
  · exact I.errcodeKnown
  · exact I.errDetailOnly
  · exact I.sklLegal
  · exact I.keyPadding
  · exact I.noSession
  · exact I.sessionKey
  · exact I.freshSession
  · exact I.usedCounter
  · exact I.hiddenOutput
  · exact I.shownOutput
  · exact I.outLenFits

/-- `h'` is `h` but for host-written registers. -/
def OnlyHostRegisters (h h' : HwState) : Prop :=
  h' = { h with
    keyLen := h'.keyLen, nonceLen := h'.nonceLen, aadLen := h'.aadLen, dataLen := h'.dataLen,
    keyb := h'.keyb, nonceb := h'.nonceb, opa := h'.opa, opb := h'.opb }

/-- A host register write to an idle block. -/
theorem State.Inv.hostRegisters {s : State} (I : s.Inv) (hb : s.hw.busy = false) (h' : HwState)
    (e : OnlyHostRegisters s.hw h') : (s.onHw fun _ => h').Inv := by
  have hp := State.Inv.idle_of_not_busy I hb
  have hpe := I.idle_pend hp
  rw [e]
  apply State.Inv.ofIdle
  · exact I.memCanonical
  · exact I.memMapped
  · exact hp
  · exact hb
  · exact hpe
  · exact I.errcodeKnown
  · exact I.errDetailOnly
  · exact I.sklLegal
  · exact I.keyPadding
  · exact I.noSession
  · exact I.sessionKey
  · exact I.freshSession
  · exact I.usedCounter
  · exact I.hiddenOutput
  · exact I.shownOutput
  · exact I.outLenFits

theorem State.Inv.writeCtrl {s : State} (I : s.Inv) (d : Word) : (s.onHw fun h => h.writeCtrl d).Inv := by
  constructor
  · exact I.memCanonical
  · exact I.memMapped
  · exact I.busyIffRunning
  · exact I.doneNotBusy
  · exact I.errcodeKnown
  · exact I.errcodeRunning
  · exact I.errDetailOnly
  · exact I.sklLegal
  · exact I.keyPadding
  · exact I.noSession
  · exact I.sessionKey
  · exact I.freshSession
  · exact I.usedCounter
  · exact I.hiddenOutput
  · exact I.shownOutput
  · exact I.outLenFits
  · exact I.pendOwner
  · exact I.noResponses
  · exact I.progress

theorem State.Inv.ackDone {s : State} (I : s.Inv) : (s.onHw fun h => h.ackDone).Inv := by
  constructor
  · exact I.memCanonical
  · exact I.memMapped
  · exact I.busyIffRunning
  · intro h; cases h
  · exact I.errcodeKnown
  · exact I.errcodeRunning
  · exact I.errDetailOnly
  · exact I.sklLegal
  · exact I.keyPadding
  · exact I.noSession
  · exact I.sessionKey
  · exact I.freshSession
  · exact I.usedCounter
  · exact I.hiddenOutput
  · exact I.shownOutput
  · exact I.outLenFits
  · exact I.pendOwner
  · exact I.noResponses
  · exact I.progress

theorem State.Inv.issue {s : State} (I : s.Inv) (hb : s.hw.busy = false) (w : Word) :
    (s.onHw fun h => h.issue w).Inv := by
  have hp := State.Inv.idle_of_not_busy I hb
  have hpe := I.idle_pend hp
  constructor
  · exact I.memCanonical
  · exact I.memMapped
  · simp
  · intro h; cases h
  · simp
  · simp
  · simp
  · exact I.sklLegal
  · exact I.keyPadding
  · exact I.noSession
  · exact I.sessionKey
  · exact I.freshSession
  · exact I.usedCounter
  · exact I.hiddenOutput
  · exact I.shownOutput
  · exact I.outLenFits
  · intro r hr; simp [hpe] at hr
  · intro w' k h; simp at h; intros; exact h.2.symm
  · rintro i k - ⟨w', h, -⟩ h3
    simp at h
    simp [hpe] at h3; omega

theorem State.Inv.busWrite {s : State} (I : s.Inv) (a d : Word) : (s.busWrite a d).Inv := by
  rcases busWrite_cases s a d with ⟨f, -, e⟩ | ⟨l, hl, e⟩
  · rw [e]; exact I.congr rfl rfl
  · rw [e]
    obtain ⟨hal, hloc, hg⟩ := busCheck_ok hl
    refine State.Inv.congr (s := s.onHw fun h => h.writeLoc l d) ?_ rfl rfl
    have A := maxAad_lt s.par
    have D := maxData_lt s.par
    have hreg : ∀ h' : HwState, l.gated = true → s.hw.writeLoc l d = h' → OnlyHostRegisters s.hw h' →
        (s.onHw fun h => h.writeLoc l d).Inv := by
      intro h' g e1 e2
      exact (State.Inv.hostRegisters I (hg g) h' e2).congr (by simp [e1]) rfl
    have hno : (∀ h : HwState, h.writeLoc l d = h) → (s.onHw fun h => h.writeLoc l d).Inv := by
      intro e1
      exact I.congr (by simp [e1]) rfl
    cases l
    case id => exact hno fun _ => rfl
    case errDetail => exact hno fun _ => rfl
    case outLen => exact hno fun _ => rfl
    case maxAad => exact hno fun _ => rfl
    case maxData => exact hno fun _ => rfl
    case hwcfg => exact hno fun _ => rfl
    case res => exact hno fun _ => rfl
    case out => exact hno fun _ => rfl
    case ctrl => exact State.Inv.writeCtrl I d
    case command => exact State.Inv.issue I (hg rfl) d
    case config => exact hreg (s.hw.writeConfig d) rfl rfl rfl
    case aadLen => exact hreg { s.hw with aadLen := d } rfl rfl rfl
    case dataLen => exact hreg { s.hw with dataLen := d } rfl rfl rfl
    case key j => exact hreg { s.hw with keyb := setWindowWord s.hw.keyb j.val d } rfl rfl rfl
    case nonce j => exact hreg { s.hw with nonceb := setWindowWord s.hw.nonceb j.val d } rfl rfl rfl
    case opa j => exact hreg { s.hw with opa := setQuadWord s.hw.opa j d } rfl rfl rfl
    case opb j => exact hreg { s.hw with opb := setQuadWord s.hw.opb j d } rfl rfl rfl
    · show (s.onHw fun h => h.writeStatus d).Inv
      cases hd : d.getLsbD 1
      · exact I.congr (by show s.hw.writeStatus d = s.hw; rw [HwState.writeStatus, hd]; rfl) rfl
      · exact (State.Inv.ackDone I).congr (by show s.hw.writeStatus d = _; rw [HwState.writeStatus, hd]; rfl) rfl
    · rename_i o
      obtain ⟨h1, h2⟩ := locate_aad hloc
      refine State.Inv.store I (hg rfl) _ _ ?_
      intro x hx1 hx2
      left
      simp [bytesOfWord] at hx2
      have : o % 4 = 0 := by simp [aadBase] at h1; omega
      have : s.par.maxAad % 4 = 0 := by simp [Params.maxAad]; omega
      omega
    · rename_i o
      obtain ⟨h1, h2⟩ := locate_data hloc
      refine State.Inv.store I (hg rfl) _ _ ?_
      intro x hx1 hx2
      right; left
      simp [bytesOfWord] at hx2
      have : o % 4 = 0 := by simp [dataBase] at h1; omega
      have : s.par.maxData % 4 = 0 := by simp [Params.maxData]; omega
      omega

theorem runs_of {h : HwState} {w k i} (hp : h.phase = .exec w k) (hd : decode w = .ok i) : h.runs i k := ⟨w, hp, hd⟩

theorem runs_unique {h : HwState} {w k i j k'} (hp : h.phase = .exec w k) (hd : decode w = .ok i)
    (hr : h.runs j k') : j = i ∧ k' = k := by
  obtain ⟨w', h1, h2⟩ := hr
  rw [hp] at h1; injection h1 with h1 h3; subst h1 h3
  rw [hd] at h2; injection h2 with h2; exact ⟨h2.symm, rfl⟩

theorem State.Inv.pend_none_of_other {s : State} (I : s.Inv) {w k} (hp : s.hw.phase = .exec w k) 
    (h1 : decode w ≠ .ok .encrypt) (h2 : decode w ≠ .ok .decrypt) : s.hw.pend = none := by
  cases h : s.hw.pend with
  | none => rfl
  | some r =>
    obtain ⟨⟨k', hr⟩, -⟩ := I.pendOwner r h
    rcases hr with ⟨w', e1, e2⟩ | ⟨w', e1, e2⟩ <;> rw [hp] at e1 <;> injection e1 with e1 e3 <;> subst e1
    · exact absurd e2 h1
    · exact absurd e2 h2

/-- A completion that wrote nothing else. -/
theorem State.Inv.complete {s : State} (I : s.Inv) (c : Byte) (d : Word) (hc : c.toNat ≤ 9) (hd : d ≠ 0 → c = 5)
    (hpend : s.hw.pend = none) : (s.onHw fun h => h.complete c d).Inv := 
  (State.Inv.completedAs I c d hc hd hpend s.hw rfl).congr rfl rfl

theorem State.Inv.initCommand {s : State} (I : s.Inv) (hpend : s.hw.pend = none) :
    (s.onHw HwState.initCommand).Inv := by
  have cleared : ∀ c : Byte, c.toNat ≤ 9 → (s.onHw fun h => h.hideOutput.clearSession.complete c 0).Inv := by
    intro c hc
    apply State.Inv.ofIdle <;> simp [hpend, hc, windowByte]
    · exact I.memCanonical
    · intro a b hab; exact I.memMapped (a,b) hab
  unfold HwState.initCommand
  by_cases h1 : legalKeyLen s.hw.keyLen = true
  · by_cases h2 : s.hw.nonceLen = 12
    · have : (s.onHw fun h => h.hideOutput.newSession.finish).Inv := by
        have hk : s.hw.keyLen = 16 ∨ s.hw.keyLen = 24 ∨ s.hw.keyLen = 32 := by
          simpa [legalKeyLen, or_assoc] using h1
        apply State.Inv.ofIdle <;> simp [hpend, HwState.newSession]
        · exact I.memCanonical
        · intro a b hab; exact I.memMapped (a,b) hab
        · rcases hk with h | h | h <;> simp [h]
        · intro i hi
          simp only [windowByte, HwState.keyCopy]
          split
          · rename_i h32
            simp
            intro h3
            have : s.hw.keyLen.toNat ≤ 32 := by rcases hk with h | h | h <;> simp [h]
            omega
          · rfl
        · rcases hk with h | h | h <;> simp [h]
        · apply BitVec.eq_of_getLsbD_eq
          intro i hi
          rw [BitVec.getLsbD_extractLsb', HwState.counter0, be128_getLsbD (by simp) (by omega)]
          simp only [hi, decide_true, Bool.true_and, Nat.zero_add]
          rw [List.getD_append_right _ _ _ _ (by simp; omega)]
          simp
          interval_cases i <;> simp
      exact this.congr (by simp [h1, h2]) rfl
    · exact (cleared 2 (by decide)).congr (by rw [State.onHw_hw, if_pos h1, if_neg h2]; rfl) rfl
  · exact (cleared 1 (by decide)).congr (by simp [h1]; rfl) rfl

/-- The low word of the counter counts without a carry below `2^32` (42_session.md R203). -/
theorem inc128_low {c : U128} {n : Nat} (h : (c.extractLsb' 0 32).toNat = n) (hn : n + 1 < 2^32) :
    ((inc128 c).extractLsb' 0 32).toNat = n + 1 := by
  have : (inc128 c).toNat = (c.toNat + 1) % 2^128 := by simp [inc128, BitVec.toNat_add]
  simp [BitVec.extractLsb'_toNat, Nat.shiftRight_zero] at h ⊢
  rw [this]; omega

theorem blockCount_le {p : Params} {n : Nat} (h : n ≤ p.maxData) : blockCount n ≤ 2^26 := by
  have := p.dataUnits.isLt; simp only [Params.maxData] at h; simp only [blockCount]; omega

/-- The session marked USED, and a completion with an error. -/
theorem State.Inv.claimComplete {s : State} (I : s.Inv) (c : Byte) (hc : c.toNat ≤ 9) (hf : s.hw.session = .fresh)
    (hpend : s.hw.pend = none) :
    (s.onHw fun h => h.claimSession.complete c 0).Inv := by
  have F := I.freshSession hf
  have K := I.sessionKey (by simp [hf])
  apply State.Inv.ofIdle <;> simp [hpend, hc]
  · exact I.memCanonical
  · intro a b hab; exact I.memMapped (a,b) hab
  · simpa using I.sklLegal
  · exact I.keyPadding
  · simpa using K
  · have : (s.hw.ctr.extractLsb' 0 32).toNat = 1 := by rw [F.1]; decide
    simp at this; omega

/-- The session marked USED and the request for H. -/
theorem State.Inv.claimSend {s : State} (I : s.Inv) (hf : s.hw.session = .fresh) {i w}
    (hi : i = .encrypt ∨ i = .decrypt) (hp : s.hw.phase = .exec w 0) (hd : decode w = .ok i) (hl : s.lengthsFit)
    (hdl : i = .decrypt → 16 ≤ s.hw.dataLen.toNat) :
    ((s.onHw HwState.claimSession).sendRequest 0).Inv := by
  have F := I.freshSession hf
  have K := I.sessionKey (by simp [hf])
  have B := I.busyIffRunning.mpr (by simp [hp])
  constructor
  · exact I.memCanonical
  · exact I.memMapped
  · exact I.busyIffRunning
  · exact I.doneNotBusy
  · exact I.errcodeKnown
  · exact I.errcodeRunning
  · exact I.errDetailOnly
  · exact I.sklLegal
  · exact I.keyPadding
  · simp
  · intro _; exact K
  · simp
  · intro _
    have : (s.hw.ctr.extractLsb' 0 32).toNat = 1 := by rw [F.1]; decide
    simp at this ⊢; omega
  · simp
  · simp
  · simp
  · intro r hr
    simp at hr; subst hr
    refine ⟨⟨0, ?_⟩, rfl, rfl⟩
    rcases hi with rfl | rfl
    · exact .inl ⟨w, hp, hd⟩
    · exact .inr ⟨w, hp, hd⟩
  · intro w' k' h' h1 h2
    simp at h'
    rw [hp] at h'; injection h' with h3 h4; exact h4.symm
  · rintro j k' hj ⟨w', h1, h2⟩ -
    simp at h1
    rw [hp] at h1; injection h1 with h3 h4; subst h3 h4
    rw [hd] at h2; injection h2 with h2; subst h2
    refine ⟨rfl, rfl, hl, ?_, ?_, ?_, ?_⟩
    · simpa using hdl
    · have : (s.hw.ctr.extractLsb' 0 32).toNat = 1 := by rw [F.1]; decide
      simp at this
      simp [incrementsMade, this]
    · simp
    · intro r hr; simp at hr; subst hr; rfl

theorem State.Inv.progressOf {s : State} (I : s.Inv) {i w k} (hi : i = .encrypt ∨ i = .decrypt)
    (hp : s.hw.phase = .exec w k) (hd : decode w = .ok i)
  (h : k ≠ 0 ∨ s.hw.pend ≠ none) : s.hw.session = .used ∧ s.hw.outValid = false ∧ s.lengthsFit ∧
      (i = .decrypt →
      16 ≤ s.hw.dataLen.toNat) ∧
      (s.hw.ctr.extractLsb' 0 32).toNat = 1 + incrementsMade k s.hw.pend.isSome ∧
      k + s.hw.pend.isSome.toNat ≤ blockCount (s.hw.messageLen i) + 2 ∧
      ∀ r, s.hw.pend = some r → r.block = if k = 0 then 0 else s.hw.ctr := I.progress i k hi ⟨w, hp, hd⟩ h

/-- A request after the first: `CTR` itself at position 1, the incremented `CTR` later. -/
theorem State.Inv.sendRequest {s : State} (I : s.Inv) {i w k} (hi : i = .encrypt ∨ i = .decrypt)
    (hp : s.hw.phase = .exec w k) (hd : decode w = .ok i)
    (hk : k ≠ 0) (hm : k + 1 ≤ blockCount (s.hw.messageLen i) + 2) (c : U128) (g : U128)
    (hc : (c.extractLsb' 0 32).toNat = 1 + (k - 1)) :
    ((s.onHw fun h => { h with ctr := c, gacc := g }).sendRequest c).Inv := by
  obtain ⟨P1, P2, P3, P4, P5, P6, P7⟩ := State.Inv.progressOf I hi hp hd (.inl hk)
  have hlow : 1 + (k-1) ≤ 1 + 2^26 := by
    have : blockCount (s.hw.messageLen i) ≤ 2^26 := by
      apply blockCount_le (p := s.par)
      have := P3.2
      rcases hi with rfl | rfl <;> simp [HwState.messageLen, HwState.cipherLen] <;> omega
    omega
  constructor
  · exact I.memCanonical
  · exact I.memMapped
  · exact I.busyIffRunning
  · exact I.doneNotBusy
  · exact I.errcodeKnown
  · exact I.errcodeRunning
  · exact I.errDetailOnly
  · exact I.sklLegal
  · exact I.keyPadding
  · intro h; simp [P1] at h
  · exact I.sessionKey
  · intro h; simp [P1] at h
  · intro _; simp only [State.sendRequest_hw, State.onHw_hw]; omega
  · exact I.hiddenOutput
  · exact I.shownOutput
  · exact I.outLenFits
  · intro r hr
    simp at hr; subst hr
    refine ⟨⟨k, ?_⟩, rfl, rfl⟩
    rcases hi with rfl | rfl
    · exact .inl ⟨w, hp, hd⟩
    · exact .inr ⟨w, hp, hd⟩
  · exact I.noResponses
  · rintro j k' hj ⟨w', h1, h2⟩ -
    simp at h1
    rw [hp] at h1; injection h1 with h3 h4; subst h3 h4
    rw [hd] at h2; injection h2 with h2; subst h2
    refine ⟨P1, P2, P3, P4, ?_, ?_, ?_⟩
    · simp only [State.sendRequest_hw, State.onHw_hw, Option.isSome_some, incrementsMade, if_true]; exact hc
    · exact hm
    · intro r hr; simp at hr; subst hr; simp [hk, HwState.request]

theorem tag_bytes_mapped {s : State} (hl : s.lengthsFit) :
   ∀ x, outBase + s.hw.dataLen.toNat ≤ x → x < outBase + s.hw.dataLen.toNat + 16 → inBuffer s.par x := by
  intro x h1 h2
  right; right
  have := hl.2
  simp only [outSize]
  omega

theorem State.Inv.encryptFinish {s : State} (I : s.Inv) {w k} (hp : s.hw.phase = .exec w k)
    (hd : decode w = .ok .encrypt)
    (hk : k ≠ 0) (hpend : s.hw.pend = none) : (s.onHw HwState.encryptFinish).Inv := by
  obtain ⟨P1, P2, P3, P4, P5, P6, P7⟩ := State.Inv.progressOf I (.inl rfl) hp hd (.inl hk)
  have K := I.usedCounter P1
  have D := maxData_lt s.par
  have e : ∀ h : HwState, h.encryptFinish = ((h.hashOutput.storeTag.showOutput
      (h.dataLen + 16)).finish) := fun _ => rfl
  apply State.Inv.ofIdle <;> simp only [e, State.onHw_hw, HwState.finish_mem, HwState.showOutput_mem,
      HwState.storeTag_mem, HwState.finish_phase, HwState.finish_busy, HwState.finish_pend,
      HwState.showOutput_pend, HwState.storeTag_pend, HwState.hashOutput_pend, HwState.hashOutput_mem,
      HwState.hashOutput_dataLen, HwState.hashOutput_gacc, HwState.hashOutput_eky0]
  · exact memWrite_wf I.memCanonical _ _
  · exact memMapped_store I.memMapped _ _ (by simpa using tag_bytes_mapped P3)
  · exact hpend
  · simp
  · simp
  · simpa using I.sklLegal
  · simpa using I.keyPadding
  · intro h; simp [P1] at h
  · simpa using I.sessionKey
  · intro h; simp [P1] at h
  · intro _; simpa using K
  · simp
  · intro _; simpa using P1
  · simp only [HwState.finish_outLen, HwState.showOutput_outLen, State.onHw_par, outSize, BitVec.toNat_add]
    have := P3.2
    simp; omega

theorem State.Inv.decryptFinish {s : State} (I : s.Inv) {w k} (hp : s.hw.phase = .exec w k)
    (hd : decode w = .ok .decrypt)
    (hk : k ≠ 0) (hpend : s.hw.pend = none) : (s.onHw HwState.decryptFinish).Inv := by
  obtain ⟨P1, P2, P3, P4, P5, P6, P7⟩ := State.Inv.progressOf I (.inr rfl) hp hd (.inl hk)
  have K := I.usedCounter P1
  have D := maxData_lt s.par
  have P4 := P4 rfl
  apply State.Inv.ofIdle <;> simp only [State.onHw_hw]
  · exact I.memCanonical
  · exact I.memMapped
  · simp
  · simp
  · exact hpend
  · simp
  · simp
  · exact I.sklLegal
  · exact I.keyPadding
  · intro h; simp [P1] at h
  · exact I.sessionKey
  · intro h; simp [P1] at h
  · intro _; exact K
  · simp
  · intro _; exact P1
  · simp only [HwState.decryptFinish_outLen, State.onHw_par, outSize]
    have := P3.2
    rw [BitVec.toNat_sub_of_le (by simpa [BitVec.le_def] using P4)]
    simp; omega

/-- A response `ok` is taken. -/
theorem State.Inv.receive {s : State} (I : s.Inv) {i w k r} (hi : i = .encrypt ∨ i = .decrypt)
    (hp : s.hw.phase = .exec w k) (hd : decode w = .ok i)
    (hpend : s.hw.pend = some r) (v : U128) (pv : Provider) :
    ({ s with prov := pv, hw := s.hw.received.takeBlock (s.hw.data (s.hw.messageLen i)) k v } : State).Inv := by
  obtain ⟨P1, P2, P3, P4, P5, P6, P7⟩ := State.Inv.progressOf I hi hp hd (.inr (by simp [hpend]))
  have hn : s.hw.messageLen i ≤ s.par.maxData := by
    have := P3.2
    rcases hi with rfl | rfl <;> simp [HwState.messageLen, HwState.cipherLen] <;> omega
  simp only [hpend, Option.isSome_some, Bool.toNat_true] at P5 P6
  have hphase : s.hw.phase.next = .exec w (k+1) := by rw [hp]; rfl
  -- the block after: mem, hsub, eky0 may change
  obtain ⟨m', hs', ek', e, hw1, hw2⟩ : ∃ m' hs' ek', s.hw.received.takeBlock (s.hw.data
      (s.hw.messageLen i)) k v = { s.hw.received with mem := m', hsub := hs', eky0 := ek' } ∧ Memory.wf m' ∧
      ∀ c ∈ m', inBuffer s.par c.1 := by
    match k with
    | 0 => exact ⟨_, _, _, rfl, I.memCanonical, I.memMapped⟩
    | 1 => exact ⟨_, _, _, rfl, I.memCanonical, I.memMapped⟩
    | j + 2 =>
      refine ⟨_, _, _, rfl, memWrite_wf I.memCanonical _ _, memMapped_store I.memMapped _ _ ?_⟩
      intro x h1 h2
      right; right
      simp [HwState.data] at h2
      simp only [outSize]
      omega
  rw [e]
  constructor
  · exact hw1
  · exact hw2
  · simp only [HwState.received_phase, HwState.received_busy, hphase]; rw [I.busyIffRunning]; simp [hp]
  · exact I.doneNotBusy
  · exact I.errcodeKnown
  · exact I.errcodeRunning
  · exact I.errDetailOnly
  · exact I.sklLegal
  · exact I.keyPadding
  · intro h; simp [P1] at h
  · exact I.sessionKey
  · intro h; simp [P1] at h
  · exact I.usedCounter
  · exact I.hiddenOutput
  · exact I.shownOutput
  · exact I.outLenFits
  · intro r hr; simp at hr
  · intro w' k' h' h1 h2
    simp only [HwState.received_phase, hphase] at h'
    injection h' with h3 h4; subst h3
    rcases hi with rfl | rfl
    · exact absurd hd h1
    · exact absurd hd h2
  · rintro j k' hj ⟨w', h1, h2⟩ -
    simp only [HwState.received_phase, hphase] at h1
    injection h1 with h3 h4; subst h3 h4
    rw [hd] at h2; injection h2 with h2; subst h2
    refine ⟨P1, P2, P3, P4, ?_, ?_, ?_⟩
    · simp only [HwState.received_ctr, HwState.received_pend, Option.isSome_none, incrementsMade, if_true] at P5 ⊢
      rw [P5]; simp
    · have : k + 1 + 0 ≤ blockCount (s.hw.messageLen i) + 2 := by omega
      exact this
    · intro r hr; simp at hr

theorem State.Inv.providerError {s : State} (I : s.Inv) (c : Word) (pv : Provider) :
    ({ s with prov := pv, hw := s.hw.received.raise .blockCipherError c } : State).Inv := by
  apply State.Inv.ofIdle <;> simp only
  · exact I.memCanonical
  · exact I.memMapped
  · simp
  · simp
  · simp
  · simp [errorCode]
  · intro _; rfl
  · exact I.sklLegal
  · exact I.keyPadding
  · exact I.noSession
  · exact I.sessionKey
  · exact I.freshSession
  · exact I.usedCounter
  · exact I.hiddenOutput
  · exact I.shownOutput
  · exact I.outLenFits

theorem lengthsFit_of_not_tooLong {s : State} (h : s.lengthsTooLong = false) : s.lengthsFit := by
  simp [State.lengthsTooLong] at h; exact h

theorem State.Inv.encryptStep {s t : State} (I : s.Inv) {w k} (hp : s.hw.phase = .exec w k)
    (hd : decode w = .ok .encrypt)
    (h : execEncrypt s = .next t) : t.Inv := by
  unfold execEncrypt at h
  injection h with h; subst h
  cases hpend : s.hw.pend with
  | some r =>
    simp only
    rcases awaitResponse_cases s r (fun k v h => h.takeBlock (h.data h.dataLen.toNat) k v) with ⟨-, e⟩ | ⟨rest, -,
        e⟩ | ⟨c, rest, -, e⟩
    · rw [e]; exact I
    · rw [e]
      have := State.Inv.receive I (.inl rfl) hp hd hpend (s.prov.value r) { s.prov with answers := rest }
      exact this.congr (by simp only [hp]; rfl) rfl
    · rw [e]; exact State.Inv.providerError I c _
  | none =>
    simp only [hp, Phase.responses]
    match k with
    | 0 =>
      simp only [State.encryptAdvance, State.encryptBegin]
      split
      · exact State.Inv.complete I 7 0 (by decide) (by simp) hpend
      · exact State.Inv.complete I 4 0 (by decide) (by simp) hpend
      · rename_i hf
        split
        · exact State.Inv.claimComplete I 8 (by decide) hf hpend
        · rename_i hl
          exact State.Inv.claimSend I hf (.inl rfl) hp hd (lengthsFit_of_not_tooLong (by simpa using hl)) (by simp)
    | 1 =>
      have P := State.Inv.progressOf I (.inl rfl) hp hd (.inl (by simp))
      refine (State.Inv.sendRequest I (.inl rfl) hp hd (by simp)
          (by simp [blockCount]) s.hw.ctr s.hw.gacc ?_).congr rfl rfl
      simpa [hpend, incrementsMade] using P.2.2.2.2.1
    | j + 2 =>
      simp only [State.encryptAdvance]
      split
      · rename_i hj
        have P := State.Inv.progressOf I (.inl rfl) hp hd (.inl (by simp))
        refine (State.Inv.sendRequest I (.inl rfl) hp hd (by simp) (by simp [HwState.messageLen]; omega)
            (inc128 s.hw.ctr) s.hw.gacc ?_).congr rfl rfl
        have h5 := P.2.2.2.2.1
        simp [hpend, incrementsMade] at h5
        rw [inc128_low h5]
        · omega
        · have := blockCount_le P.2.2.1.2; omega
      · exact State.Inv.encryptFinish I hp hd (by simp) hpend

/-- DECRYPT's tag decision. -/
theorem State.Inv.verifyTag {s : State} (I : s.Inv) {w} (hp : s.hw.phase = .exec w 2)
    (hd : decode w = .ok .decrypt) (hpend : s.hw.pend = none) :
   s.verifyTag.Inv := by
  have P := State.Inv.progressOf I (.inr rfl) hp hd (.inl (by simp))
  unfold State.verifyTag
  split
  · refine (State.Inv.completedAs I 6 0 (by decide) (by simp) hpend s.hw.hashForTag rfl).congr rfl rfl
  · refine (State.Inv.sendRequest I (.inr rfl) hp hd (by simp) (by simp [blockCount])
      (inc128 s.hw.ctr) _ ?_).congr rfl rfl
    have h5 := P.2.2.2.2.1
    simp [hpend, incrementsMade] at h5
    rw [inc128_low h5]
    omega

theorem State.Inv.decryptStep {s t : State} (I : s.Inv) {w k} (hp : s.hw.phase = .exec w k)
    (hd : decode w = .ok .decrypt)
    (h : execDecrypt s = .next t) : t.Inv := by
  unfold execDecrypt at h
  injection h with h; subst h
  cases hpend : s.hw.pend with
  | some r =>
    simp only
    rcases awaitResponse_cases s r (fun k v h => h.takeBlock (h.data h.cipherLen) k v) with ⟨-, e⟩ | ⟨rest, -,
        e⟩ | ⟨c, rest, -, e⟩
    · rw [e]; exact I
    · rw [e]
      have := State.Inv.receive I (.inr rfl) hp hd hpend (s.prov.value r) { s.prov with answers := rest }
      exact this.congr (by simp only [hp]; rfl) rfl
    · rw [e]; exact State.Inv.providerError I c _
  | none =>
    simp only [hp, Phase.responses]
    match k with
    | 0 =>
      simp only [State.decryptAdvance, State.decryptBegin]
      split
      · exact State.Inv.complete I 7 0 (by decide) (by simp) hpend
      · exact State.Inv.complete I 4 0 (by decide) (by simp) hpend
      · rename_i hf
        split
        · exact State.Inv.claimComplete I 8 (by decide) hf hpend
        · rename_i hl
          split
          · exact State.Inv.claimComplete I 3 (by decide) hf hpend
          · rename_i h16
            exact State.Inv.claimSend I hf (.inr rfl) hp hd (lengthsFit_of_not_tooLong (by simpa using hl))
                (by intro _; omega)
    | 1 =>
      have P := State.Inv.progressOf I (.inr rfl) hp hd (.inl (by simp))
      refine (State.Inv.sendRequest I (.inr rfl) hp hd (by simp)
          (by simp [blockCount]) s.hw.ctr s.hw.gacc ?_).congr rfl rfl
      simpa [hpend, incrementsMade] using P.2.2.2.2.1
    | 2 => exact State.Inv.verifyTag I hp hd hpend
    | j + 3 =>
      simp only [State.decryptAdvance]
      split
      · rename_i hj
        have P := State.Inv.progressOf I (.inr rfl) hp hd (.inl (by simp))
        refine (State.Inv.sendRequest I (.inr rfl) hp hd (by simp) (by simp [HwState.messageLen]; omega)
            (inc128 s.hw.ctr) s.hw.gacc ?_).congr rfl rfl
        have h5 := P.2.2.2.2.1
        simp [hpend, incrementsMade] at h5
        rw [inc128_low h5]
        · omega
        · have : s.hw.cipherLen ≤ s.par.maxData := by have := P.2.2.1.2; simp only [HwState.cipherLen]; omega
          have := blockCount_le this; omega
      · exact State.Inv.decryptFinish I hp hd (by simp) hpend

end Sys2Proof.Machine
end

