-- ==== Sys2Proof/Laws/PerInstr.lean ====
section
/-! SUPPORT. Facts per instruction: its command word is legal, its opcode is the table's, and the word's fields are those it was
made of (30_encoding.md R100, R103). -/

namespace Sys2Proof.Laws.Encoding

/-- The command's word has `MBZ = 0` and the command's opcode, the opcode is a legal one, and it selects the command. -/
def Statement (i : Instr) : Prop :=
  (Cmd32.ofWord (encode i)).wellFormed = true ∧
  (Cmd32.ofWord (encode i)).opcode = i.opcode ∧
  instrOfOpcode i.opcode = some i ∧
  i.wellFormed = true

theorem init : Statement .init := by unfold Statement; decide
theorem encrypt : Statement .encrypt := by unfold Statement; decide
theorem decrypt : Statement .decrypt := by unfold Statement; decide
theorem wXor : Statement .wXor := by unfold Statement; decide
theorem wAnd : Statement .wAnd := by unfold Statement; decide
theorem wShr1 : Statement .wShr1 := by unfold Statement; decide
theorem wInc : Statement .wInc := by unfold Statement; decide
theorem wEq : Statement .wEq := by unfold Statement; decide
theorem gfMul : Statement .gfMul := by unfold Statement; decide
theorem ghash : Statement .ghash := by unfold Statement; decide

end Sys2Proof.Laws.Encoding
end

