-- ==== Sys2Proof/Laws/Run.lean ====
section
/-! SUPPORT. Runs of several steps: composition, and the states that ENCRYPT and DECRYPT go through. -/

namespace Sys2Proof.Machine

seal memWrite gfmul

theorem run_zero (s : State) : core.run 0 s = .next s := rfl

theorem run_succ {s t : State} (n : Nat) (h : step s = .next t) : core.run (n+1) s = core.run n t := by
  have hs : core.step s = .next t := h
  simp only [Host.Core.run, hs]

/-- A run in two parts. -/
theorem run_add {s t : State} (a b : Nat) (h : core.run a s = .next t) : core.run (a+b) s = core.run b t := by
  induction a generalizing s with
  | zero => injection h with h; subst h; simp
  | succ a ih =>
    have : ∃ u, step s = .next u := by
      cases hs : step s with
      | next u => exact ⟨u, rfl⟩
      | fault r => have hs : core.step s = .fault r := hs
                   simp [Host.Core.run, hs] at h
      | refused r => have hs : core.step s = .refused r := hs
                     simp [Host.Core.run, hs] at h
    obtain ⟨u, hu⟩ := this
    rw [run_succ _ hu] at h
    rw [show a + 1 + b = (a + b) + 1 by omega, run_succ _ hu]
    exact ih h

/-- With no move to come, a step of a running command is `exec`. -/
theorem step_quiet {s : State} {w k i} (hm : s.env.moves = []) (hp : s.hw.phase = .exec w k) (hd : decode w =
    .ok i) : step s = exec i s := by
  unfold step; rw [hm]; simp only [coreTurn, hp, hd]

/-- A session operation issued at `s`, once j keystream blocks have been taken and none is asked for: what it has written. -/
def mid (s : State) (w : Word) (msg : List Byte) (g : U128) (rest : List Answer) (j : Nat) : State :=
  { s with
    hw := { s.hw.claimed with
      hsub := s.subkey, eky0 := s.tagMask, gacc := g, ctr := counterAfter s.hw.ctr j, phase := .exec w (j+2),
          pend := none, mem := memAfter s.hw.mem msg s.keystream j },
    prov := { s.prov with answers := rest, seen := s.prov.seen ++ List.map s.hw.request (requestBlocks s.hw.ctr j) } }

theorem requestBlocks_succ (c : U128) (j : Nat) : requestBlocks c (j+1) = requestBlocks c j ++ [counterAfter c
    (j+1)] := by
  simp [requestBlocks, List.range_succ]

theorem counterAfter_succ (c : U128) (j : Nat) : inc128 (counterAfter c j) = counterAfter c (j+1) := by
  simp only [inc128, counterAfter, BitVec.add_assoc]
  congr 1
  apply BitVec.eq_of_toNat_eq
  simp [BitVec.toNat_add, BitVec.toNat_ofNat]

theorem value_congr {p q : Provider} (h : p.known = q.known) (r : Request) : p.value r = q.value r := by
  simp only [Provider.value, Provider.cipher, h]

/-- The same with the next keystream block asked for. -/
def waiting (s : State) (w : Word) (msg : List Byte) (g : U128) (rest : List Answer) (j : Nat) : State :=
  (mid s w msg g rest j).requestKeystream

theorem waiting_eq (s : State) (w : Word) (msg : List Byte) (g : U128) (rest) (j : Nat) : waiting s w msg g rest j =
  { s with
    hw := { s.hw.claimed with
      hsub := s.subkey, eky0 := s.tagMask, gacc := g, ctr := counterAfter s.hw.ctr (j+1), phase := .exec w (j+2),
          pend := some (s.hw.request (counterAfter s.hw.ctr (j+1))), mem := memAfter s.hw.mem msg s.keystream j },
    prov := { s.prov with answers := rest, seen := s.prov.seen ++ List.map s.hw.request (requestBlocks s.hw.ctr
        (j+1)) } } := by
  simp only [waiting, State.requestKeystream, mid, State.sendRequest, State.onHw, counterAfter_succ,
      requestBlocks_succ, List.map_append, List.append_assoc]
  rfl

/-- An `ok` answer in `waiting` leads to the next `mid`. -/
theorem take_ok {s : State} {w : Word} {msg : List Byte} {g : U128} {rest} {j : Nat} (take)
   (htake : take (j+2) (s.keystream j) (waiting s w msg g (.ok :: rest) j).hw.received = (waiting s w msg g
       (.ok :: rest) j).hw.received.takeBlock msg (j+2) (s.keystream j)) :
   (waiting s w msg g (.ok :: rest) j).awaitResponse (s.hw.request (counterAfter s.hw.ctr (j+1))) take =
       mid s w msg g rest (j+1) := by
  rw [waiting_eq] at htake ⊢
  simp only [State.awaitResponse, Phase.responses]
  have hv : ∀ x, ({ s.prov with answers := Answer.ok :: rest, seen := x} : Provider).value (s.hw.request
      (counterAfter s.hw.ctr (j+1))) = s.keystream j := fun x => value_congr rfl _
  rw [hv, htake]
  simp only [HwState.takeBlock, HwState.store, mid, memAfter, blkBytes, HwState.received, Phase.next]

theorem mid_phase (s w msg g rest j) : (mid s w msg g rest j).hw.phase = .exec w (j+2) := rfl

theorem counterAfter_zero (c : U128) : counterAfter c 0 = c := by simp [counterAfter]

/-- The first four steps of a session operation: H and Eky0 asked for and taken. -/
theorem first_four {s : State} {w : Word} {i : Instr} (hi : i = .encrypt ∨ i = .decrypt) (hm : s.env.moves = [])
  (hp : s.hw.phase = .exec w 0) (hd : decode w = .ok i) (hpe : s.hw.pend = none) (hf : s.hw.session = .fresh)
      (hl : s.lengthsFit)
  (hs : i = .decrypt → 16 ≤ s.hw.dataLen.toNat) (rest : List Answer) (ha : s.prov.answers = .ok :: .ok :: rest)
      (msg) :
  core.run 4 s = .next (mid s w msg s.hw.gacc rest 0) := by
  have hl' : s.lengthsTooLong = false := by simp [State.lengthsTooLong, hl.1, hl.2]
  let s1 : State := (s.onHw HwState.claimSession).sendRequest 0
  have h1 : step s = .next s1 := by
    rw [step_quiet hm hp hd]
    rcases hi with rfl | rfl
    · simp only [exec, execEncrypt, hpe, hp, Phase.responses, State.encryptAdvance, State.encryptBegin, hf, hl']; rfl
    · have := hs rfl
      simp only [exec, execDecrypt, hpe, hp, Phase.responses, State.decryptAdvance, State.decryptBegin, hf, hl',
          if_neg (show ¬ s.hw.dataLen.toNat < 16 by omega)]; rfl
  let s2 : State :=
    { s1 with
      prov := { s1.prov with answers := .ok :: rest },
      hw := { s1.hw with hsub := s.subkey, phase := .exec w 1, pend := none } }
  have hsub : ∀ p : Provider, p.known = s.prov.known → p.value (s.hw.request 0) =
      s.subkey := fun p hp => value_congr hp _
  have htag : ∀ p : Provider, p.known = s.prov.known → p.value (s.hw.request s.hw.ctr) =
      s.tagMask := fun p hp => value_congr hp _
  have h2 : step s1 = .next s2 := by
    rw [step_quiet (s := s1) hm hp hd]
    rcases hi with rfl | rfl
    · simp only [exec, execEncrypt, s1, State.sendRequest, State.onHw, State.awaitResponse, ha, HwState.takeBlock,
        HwState.claimSession, HwState.hideOutput, hp, Phase.responses, HwState.received, Phase.next, s2]
      exact congrArg _ (by rw [← hsub _ rfl]; rfl)
    · simp only [exec, execDecrypt, s1, State.sendRequest, State.onHw, State.awaitResponse, ha, HwState.takeBlock,
        HwState.claimSession, HwState.hideOutput, hp, Phase.responses, HwState.received, Phase.next, s2]
      exact congrArg _ (by rw [← hsub _ rfl]; rfl)
  let s3 := s2.sendRequest s.hw.ctr
  have h3 : step s2 = .next s3 := by
    rw [step_quiet (s := s2) hm rfl hd]
    rcases hi with rfl | rfl <;> rfl
  have h4 : step s3 = .next (mid s w msg s.hw.gacc rest 0) := by
    rw [step_quiet (s := s3) hm rfl hd]
    have e : s3.hw.ctr = s.hw.ctr := rfl
    rcases hi with rfl | rfl
    · simp only [exec, execEncrypt, s3, s2, s1, State.sendRequest, State.onHw, State.awaitResponse,
        HwState.takeBlock, HwState.claimSession, HwState.hideOutput, Phase.responses, HwState.received, Phase.next,
        mid, memAfter, HwState.claimed, counterAfter_zero, requestBlocks]
      refine congrArg _ ?_
      rw [← htag _ rfl]
      simp only [List.map, List.range_succ, List.range_zero, List.nil_append, counterAfter_zero, List.append_assoc,
          List.cons_append]
      rfl
    · simp only [exec, execDecrypt, s3, s2, s1, State.sendRequest, State.onHw, State.awaitResponse,
        HwState.takeBlock, HwState.claimSession, HwState.hideOutput, Phase.responses, HwState.received, Phase.next,
        mid, memAfter, HwState.claimed, counterAfter_zero, requestBlocks]
      refine congrArg _ ?_
      rw [← htag _ rfl]
      simp only [List.map, List.range_succ, List.range_zero, List.nil_append, counterAfter_zero, List.append_assoc,
          List.cons_append]
      rfl
  rw [run_succ 3 h1, run_succ 2 h2, run_succ 1 h3, run_succ 0 h4]; rfl

theorem data_waiting {s : State} {w msg g rest j} (n : Nat) (hwf : Memory.wf s.hw.mem) (hj : j ≤ msg.length/16+1)
    (hn : dataBase + n ≤ outBase) :
  (waiting s w msg g rest j).hw.received.data n = s.hw.data n := by
  rw [waiting_eq]
  exact memRead_data_after hwf _ _ _ hj n hn

theorem enc_pair {s : State} {w g rest j} (hm : s.env.moves = []) (hd : decode w = .ok .encrypt)
    (hwf : Memory.wf s.hw.mem) (hl : s.lengthsFit)
   (hj : j < blockCount s.hw.dataLen.toNat) :
   core.run 2 (mid s w (s.hw.data s.hw.dataLen.toNat) g (.ok :: rest) j) = .next (mid s w
       (s.hw.data s.hw.dataLen.toNat) g rest (j+1)) := by
  have D := maxData_lt s.par
  have := hl.2
  have h1 : step (mid s w (s.hw.data s.hw.dataLen.toNat) g (.ok :: rest) j) = .next (waiting s w
      (s.hw.data s.hw.dataLen.toNat) g (.ok :: rest) j) := by
    rw [step_quiet (by exact hm) (mid_phase ..) hd]
    simp only [exec]
    unfold execEncrypt
    have e : (mid s w (s.hw.data s.hw.dataLen.toNat) g (.ok :: rest) j).hw.pend = none := rfl
    have e2 : (mid s w (s.hw.data s.hw.dataLen.toNat) g (.ok :: rest) j).hw.dataLen = s.hw.dataLen := rfl
    rw [e, mid_phase]; simp only [Phase.responses, State.encryptAdvance, e2, if_pos hj]; rfl
  have h2 : step (waiting s w (s.hw.data s.hw.dataLen.toNat) g (.ok :: rest) j) = .next (mid s w
      (s.hw.data s.hw.dataLen.toNat) g rest (j+1)) := by
    have e : (waiting s w (s.hw.data s.hw.dataLen.toNat) g (.ok :: rest) j).hw.pend = some (s.hw.request
        (counterAfter s.hw.ctr (j+1))) := by rw [waiting_eq]
    have e3 : (waiting s w (s.hw.data s.hw.dataLen.toNat) g (.ok :: rest) j).hw.phase = .exec w
        (j+2) := by rw [waiting_eq]
    have e4 : (waiting s w (s.hw.data s.hw.dataLen.toNat) g (.ok :: rest) j).hw.received.dataLen =
        s.hw.dataLen := by rw [waiting_eq]; rfl
    rw [step_quiet (by rw [waiting_eq]; exact hm) e3 hd]
    simp only [exec]
    unfold execEncrypt
    rw [e]; simp only
    rw [take_ok]
    show (waiting s w (s.hw.data s.hw.dataLen.toNat) g (.ok :: rest) j).hw.received.takeBlock _ _ _ = _
    rw [e4, data_waiting _ hwf (by simp [HwState.data, blockCount] at *; omega) (by simp [dataBase, outBase]; omega)]
  rw [run_succ 1 h1, run_succ 0 h2]; rfl

/-- ENCRYPT from its first to its j-th keystream block. -/
theorem enc_pairs {s : State} {w g rest} (hm : s.env.moves = []) (hd : decode w = .ok .encrypt)
    (hwf : Memory.wf s.hw.mem) (hl : s.lengthsFit)
   (j : Nat) (hj : j ≤ blockCount s.hw.dataLen.toNat) :
   core.run (2*j) (mid s w (s.hw.data s.hw.dataLen.toNat) g (List.replicate j .ok ++ rest) 0) = .next (mid s w
       (s.hw.data s.hw.dataLen.toNat) g rest j) := by
  induction j generalizing rest with
  | zero => rfl
  | succ j ih =>
    have := ih (rest := .ok :: rest) (by omega)
    rw [show 2*(j+1) = 2*j+2 by omega, run_add _ _ (t := mid s w (s.hw.data s.hw.dataLen.toNat) g (.ok :: rest) j),
        enc_pair hm hd hwf hl (by omega)]
    rw [← this]; congr 2
    rw [List.replicate_succ', List.append_assoc]; rfl

theorem answers_split {s : State} {n : Nat} (h : s.providerOk n) : s.prov.answers =
    List.replicate n .ok ++ s.prov.answers.drop n := by
  conv_lhs => rw [← List.take_append_drop n s.prov.answers]
  rw [h.2]

/-- The hash DECRYPT compares, under the session at its start. -/
def decryptHash (s : State) : U128 := ghash s.subkey s.hw.aad (s.hw.data s.hw.cipherLen)

/-- DECRYPT's tag decision, in terms of `CT_DIFF`. -/
theorem dec_verify {s : State} {w g rest} (hm : s.env.moves = []) (hd : decode w = .ok .decrypt) :
    step (mid s w (s.hw.data s.hw.cipherLen) g rest 0) =
      if ctDiff (s.tagOf (s.hw.data s.hw.cipherLen)) (s.hw.givenTag s.hw.cipherLen) ≠ 0 then
        .next ((mid s w (s.hw.data s.hw.cipherLen) (decryptHash s) rest 0).onHw fun h => h.raise .authTagValidation 0)
      else .next (waiting s w (s.hw.data s.hw.cipherLen) (decryptHash s) rest 0) := by
  rw [step_quiet (by exact hm) (mid_phase ..) hd]
  simp only [exec]
  unfold execDecrypt
  have e : (mid s w (s.hw.data s.hw.cipherLen) g rest 0).hw.pend = none := rfl
  rw [e, mid_phase]; simp only [Phase.responses, State.decryptAdvance]
  have e2 : (mid s w (s.hw.data s.hw.cipherLen) g rest 0).onHw HwState.hashForTag =
      mid s w (s.hw.data s.hw.cipherLen) (decryptHash s) rest 0 := rfl
  have e3 : (mid s w (s.hw.data s.hw.cipherLen) g rest 0).hw.hashForTag.tagDiff =
      ctDiff (s.tagOf (s.hw.data s.hw.cipherLen)) (s.hw.givenTag s.hw.cipherLen) := rfl
  unfold State.verifyTag
  rw [e2, e3]
  split <;> rfl

theorem dec_recv {s : State} {w g rest j} (hm : s.env.moves = []) (hd : decode w = .ok .decrypt)
    (hwf : Memory.wf s.hw.mem) (hl : s.lengthsFit)
   (hj : j < blockCount s.hw.cipherLen) :
   step (waiting s w (s.hw.data s.hw.cipherLen) g (.ok :: rest) j) = .next (mid s w
       (s.hw.data s.hw.cipherLen) g rest (j+1)) := by
  have D := maxData_lt s.par
  have := hl.2
  have e : (waiting s w (s.hw.data s.hw.cipherLen) g (.ok :: rest) j).hw.pend = some (s.hw.request
      (counterAfter s.hw.ctr (j+1))) := by rw [waiting_eq]
  have e3 : (waiting s w (s.hw.data s.hw.cipherLen) g (.ok :: rest) j).hw.phase = .exec w (j+2) := by rw [waiting_eq]
  have e4 : (waiting s w (s.hw.data s.hw.cipherLen) g (.ok :: rest) j).hw.received.cipherLen =
      s.hw.cipherLen := by rw [waiting_eq]; rfl
  rw [step_quiet (by rw [waiting_eq]; exact hm) e3 hd]
  simp only [exec]
  unfold execDecrypt
  rw [e]; simp only
  rw [take_ok]
  show (waiting s w (s.hw.data s.hw.cipherLen) g (.ok :: rest) j).hw.received.takeBlock _ _ _ = _
  have hc : s.hw.cipherLen ≤ s.hw.dataLen.toNat := by simp only [HwState.cipherLen]; omega
  rw [e4, data_waiting _ hwf (by simp [HwState.data, blockCount] at *; omega) (by simp [dataBase, outBase]; omega)]

theorem dec_send {s : State} {w g rest j} (hm : s.env.moves = []) (hd : decode w = .ok .decrypt)
   (hj : j + 1 < blockCount s.hw.cipherLen) :
   step (mid s w (s.hw.data s.hw.cipherLen) g rest (j+1)) = .next (waiting s w (s.hw.data s.hw.cipherLen) g rest
       (j+1)) := by
  rw [step_quiet (by exact hm) (mid_phase ..) hd]
  simp only [exec]
  unfold execDecrypt
  have e : (mid s w (s.hw.data s.hw.cipherLen) g rest (j+1)).hw.pend = none := rfl
  have e2 : (mid s w (s.hw.data s.hw.cipherLen) g rest (j+1)).hw.cipherLen = s.hw.cipherLen := rfl
  rw [e, mid_phase]; simp only [Phase.responses, State.decryptAdvance, e2, if_pos hj]; rfl

/-- DECRYPT from a good tag to its keystream block j + 1. -/
theorem dec_pairs {s : State} {w g rest} (hm : s.env.moves = []) (hd : decode w = .ok .decrypt)
    (hwf : Memory.wf s.hw.mem) (hl : s.lengthsFit)
   (j : Nat) (hj : j < blockCount s.hw.cipherLen) :
   core.run (2*j+1) (waiting s w (s.hw.data s.hw.cipherLen) g (List.replicate (j+1) .ok ++ rest) 0) = .next
       (mid s w (s.hw.data s.hw.cipherLen) g rest (j+1)) := by
  induction j generalizing rest with
  | zero =>
    have h : step (waiting s w (s.hw.data s.hw.cipherLen) g (List.replicate (0+1) .ok ++ rest) 0) = _ := dec_recv
        (rest := rest) hm hd hwf hl hj
    exact (run_succ 0 h).trans rfl
  | succ j ih =>
    have := ih (rest := .ok :: rest) (by omega)
    rw [show 2*(j+1)+1 = (2*j+1)+2 by omega, run_add _ _ (t := mid s w (s.hw.data s.hw.cipherLen) g (.ok :: rest)
        (j+1)), run_succ 1 (dec_send hm hd hj), run_succ 0 (dec_recv hm hd hwf hl hj)]
    · rfl
    · rw [← this]; congr 2
      rw [List.replicate_succ', List.append_assoc]; rfl

end Sys2Proof.Machine
end

