-- ==== Sys2Proof/Laws/Waiting.lean ====
section
/-! SUPPORT. Host transactions at addresses that are not gated do not disturb a running command: a run with such transactions
between the controller's turns follows the run of the controller alone. -/

namespace Sys2Proof.Machine

seal memWrite gfmul setWindowWord setQuadWord

/-- The state with other values of what the host may change while a command runs: `IRQ_EN`, `DONE`, and the outside. -/
def State.withHost (s : State) (b d : Bool) (e : Env) : State :=
  { s with hw := { s.hw with irqEn := b, done := d }, env := e }

@[simp] theorem withHost_phase (s : State) (b d e) : (s.withHost b d e).hw.phase = s.hw.phase := rfl
@[simp] theorem withHost_pend (s : State) (b d e) : (s.withHost b d e).hw.pend = s.hw.pend := rfl
@[simp] theorem withHost_env (s : State) (b d e) : (s.withHost b d e).env = e := rfl
@[simp] theorem withHost_irqEn (s : State) (b d e) : (s.withHost b d e).hw.irqEn = b := rfl
@[simp] theorem withHost_self (s : State) : s.withHost s.hw.irqEn s.hw.done s.env = s := rfl
@[simp] theorem withHost_withHost (s : State) (b d e b' d' e') :
    (s.withHost b d e).withHost b' d' e' = s.withHost b' d' e' := rfl

/-- `f` does not read what the host may change; it completes the command, and so sets `DONE`, or leaves it running. -/
def HostBlind (s : State) (f : State → State) : Prop :=
  ((f s).hw.phase = .idle ∧ ∀ b d e, f (s.withHost b d e) = (f s).withHost b true e) ∨
  ((f s).hw.phase ≠ .idle ∧ ∀ b d e, f (s.withHost b d e) = (f s).withHost b d e)

theorem lengthsTooLong_withHost (s : State) (b d e) : (s.withHost b d e).lengthsTooLong = s.lengthsTooLong := rfl

/-- The receipt of a response, or the wait for one. -/
theorem awaitResponse_blind {s : State} {w k} (hp : s.hw.phase = .exec w k) (r : Request) (n : HwState → Nat)
    (hn : ∀ (h : HwState) b d, n { h with irqEn := b, done := d } = n h) :
    HostBlind s fun s => s.awaitResponse r fun k v h => h.takeBlock (h.data (n h)) k v := by
  unfold HostBlind
  simp only [State.awaitResponse]
  have ea : ∀ b d e, (s.withHost b d e).prov = s.prov := fun _ _ _ => rfl
  simp only [ea, withHost_phase]
  cases ha : s.prov.answers with
  | nil => exact .inr ⟨by simp [hp], fun _ _ _ => rfl⟩
  | cons a rest =>
    cases a with
    | err c => exact .inl ⟨rfl, fun _ _ _ => rfl⟩
    | ok =>
      refine .inr ⟨by simp [hp, HwState.received, Phase.next], fun b d e => ?_⟩
      have hr : ((s.withHost b d e).hw.received) = { s.hw.received with irqEn := b, done := d } := rfl
      simp only [hr, hn]
      unfold HwState.takeBlock
      generalize s.hw.phase.responses = k
      match k with
      | 0 => rfl
      | 1 => rfl
      | j + 2 => rfl

/-- ENCRYPT, with no request out. -/
theorem encryptAdvance_blind {s : State} {w j} (hp : s.hw.phase = .exec w j) (k : Nat) :
    HostBlind s fun s => s.encryptAdvance k := by
  unfold HostBlind
  match k with
  | 0 =>
    simp only [State.encryptAdvance, State.encryptBegin, lengthsTooLong_withHost]
    have es : ∀ b d e, (s.withHost b d e).hw.session = s.hw.session := fun _ _ _ => rfl
    simp only [es]
    cases s.hw.session with
    | none => exact .inl ⟨rfl, fun _ _ _ => rfl⟩
    | used => exact .inl ⟨rfl, fun _ _ _ => rfl⟩
    | fresh =>
      by_cases hl : s.lengthsTooLong = true
      · simp only [if_pos hl]
        exact .inl ⟨rfl, fun _ _ _ => (if_pos hl).trans rfl⟩
      · simp only [if_neg hl]
        exact .inr ⟨fun h => Phase.noConfusion (hp.symm.trans h), fun _ _ _ => (if_neg hl).trans rfl⟩
  | 1 => exact .inr ⟨fun h => Phase.noConfusion (hp.symm.trans h), fun _ _ _ => rfl⟩
  | i + 2 =>
    simp only [State.encryptAdvance]
    have el : ∀ b d e, (s.withHost b d e).hw.dataLen = s.hw.dataLen := fun _ _ _ => rfl
    simp only [el]
    by_cases h : i < blockCount s.hw.dataLen.toNat
    · simp only [if_pos h]
      exact .inr ⟨fun h => Phase.noConfusion (hp.symm.trans h), fun _ _ _ => rfl⟩
    · simp only [if_neg h]
      exact .inl ⟨rfl, fun _ _ _ => rfl⟩

/-- DECRYPT, with no request out. -/
theorem decryptAdvance_blind {s : State} {w j} (hp : s.hw.phase = .exec w j) (k : Nat) :
    HostBlind s fun s => s.decryptAdvance k := by
  unfold HostBlind
  match k with
  | 0 =>
    simp only [State.decryptAdvance, State.decryptBegin, lengthsTooLong_withHost]
    have es : ∀ b d e, (s.withHost b d e).hw.session = s.hw.session := fun _ _ _ => rfl
    have el : ∀ b d e, (s.withHost b d e).hw.dataLen = s.hw.dataLen := fun _ _ _ => rfl
    simp only [es, el]
    cases s.hw.session with
    | none => exact .inl ⟨rfl, fun _ _ _ => rfl⟩
    | used => exact .inl ⟨rfl, fun _ _ _ => rfl⟩
    | fresh =>
      by_cases hl : s.lengthsTooLong = true
      · simp only [if_pos hl]
        exact .inl ⟨rfl, fun _ _ _ => rfl⟩
      · simp only [if_neg hl]
        by_cases h : s.hw.dataLen.toNat < 16
        · simp only [if_pos h]
          exact .inl ⟨rfl, fun _ _ _ => rfl⟩
        · simp only [if_neg h]
          exact .inr ⟨fun h => Phase.noConfusion (hp.symm.trans h), fun _ _ _ => rfl⟩
  | 1 => exact .inr ⟨fun h => Phase.noConfusion (hp.symm.trans h), fun _ _ _ => rfl⟩
  | 2 =>
    simp only [State.decryptAdvance, State.verifyTag]
    have et : ∀ b d e, (s.withHost b d e).hw.hashForTag.tagDiff = s.hw.hashForTag.tagDiff := fun _ _ _ => rfl
    simp only [et]
    by_cases h : s.hw.hashForTag.tagDiff ≠ 0
    · simp only [if_pos h]
      exact .inl ⟨rfl, fun _ _ _ => rfl⟩
    · simp only [if_neg h]
      exact .inr ⟨fun h => Phase.noConfusion (hp.symm.trans h), fun _ _ _ => rfl⟩
  | i + 3 =>
    simp only [State.decryptAdvance]
    have el : ∀ b d e, (s.withHost b d e).hw.cipherLen = s.hw.cipherLen := fun _ _ _ => rfl
    simp only [el]
    by_cases h : i + 1 < blockCount s.hw.cipherLen
    · simp only [if_pos h]
      exact .inr ⟨fun h => Phase.noConfusion (hp.symm.trans h), fun _ _ _ => rfl⟩
    · simp only [if_neg h]
      exact .inl ⟨rfl, fun _ _ _ => rfl⟩

/-- No command reads what the host may change: a step that completes sets `DONE`, any other leaves it. -/
theorem exec_withHost {i : Instr} {s t : State} {w k} (hp : s.hw.phase = .exec w k) (h : exec i s = .next t) :
    (t.hw.phase = .idle ∧ ∀ b d e, exec i (s.withHost b d e) = .next (t.withHost b true e)) ∨
    (t.hw.phase ≠ .idle ∧ ∀ b d e, exec i (s.withHost b d e) = .next (t.withHost b d e)) := by
  have lift : ∀ f : State → State, HostBlind s f → t = f s →
      (∀ b d e, exec i (s.withHost b d e) = .next (f (s.withHost b d e))) →
      (t.hw.phase = .idle ∧ ∀ b d e, exec i (s.withHost b d e) = .next (t.withHost b true e)) ∨
      (t.hw.phase ≠ .idle ∧ ∀ b d e, exec i (s.withHost b d e) = .next (t.withHost b d e)) := by
    rintro f (⟨a, hf⟩ | ⟨a, hf⟩) rfl hx
    · exact .inl ⟨a, fun b d e => by rw [hx, hf]⟩
    · exact .inr ⟨a, fun b d e => by rw [hx, hf]⟩
  have next : ∀ {u : State}, exec i s = .next u → t = u := fun hu => by rw [h] at hu; injection hu
  cases i with
  | encrypt =>
    cases hr : s.hw.pend with
    | some r =>
      exact lift _ (awaitResponse_blind hp r (fun h => h.dataLen.toNat) fun _ _ _ => rfl)
        (next (execEncrypt_await hr)) fun _ _ _ => execEncrypt_await hr
    | none =>
      exact lift _ (encryptAdvance_blind hp k) (next (execEncrypt_advance hp hr)) fun _ _ _ => execEncrypt_advance hp hr
  | decrypt =>
    cases hr : s.hw.pend with
    | some r =>
      exact lift _ (awaitResponse_blind hp r HwState.cipherLen fun _ _ _ => rfl)
        (next (execDecrypt_await hr)) fun _ _ _ => execDecrypt_await hr
    | none =>
      exact lift _ (decryptAdvance_blind hp k) (next (execDecrypt_advance hp hr)) fun _ _ _ => execDecrypt_advance hp hr
  | ghash =>
    injection h with h; subst h
    simp only [exec, execGhash, lengthsTooLong_withHost]
    by_cases hl : s.lengthsTooLong = true
    · simp only [if_pos hl]
      exact .inl ⟨rfl, fun _ _ _ => congrArg _ ((if_pos hl).trans rfl)⟩
    · simp only [if_neg hl]
      exact .inl ⟨rfl, fun _ _ _ => congrArg _ ((if_neg hl).trans rfl)⟩
  | init =>
    injection h with h; subst h
    have hi : ∀ b d e, (s.withHost b d e).onHw HwState.initCommand = (s.onHw HwState.initCommand).withHost b true e := by
      intro b d e
      show State.mk ({ s.hw with irqEn := b, done := d } : HwState).initCommand s.par s.prov e = _
      unfold HwState.initCommand State.onHw
      simp only
      split
      · split <;> rfl
      · rfl
    refine .inl ⟨?_, fun b d e => congrArg _ (hi b d e)⟩
    rcases initCommand_cases s.hw with ⟨-, -, e⟩ | ⟨-, -, e⟩ | ⟨-, e⟩ <;> simp only [State.onHw, e] <;> rfl
  | wXor | wAnd | wShr1 | wInc | wEq | gfMul => injection h with h; subst h; exact .inl ⟨rfl, fun _ _ _ => rfl⟩

/-- The same of the controller's turn. -/
theorem coreTurn_withHost {s t : State} (h : coreTurn s = .next t) (b d : Bool) (e : Env) :
    ∃ d', coreTurn (s.withHost b d e) = .next (t.withHost b d' e) ∧
      (s.hw.phase ≠ .idle → t.hw.phase = .idle → d' = true) := by
  rcases coreTurn_cases h with ⟨hp, rfl⟩ | ⟨w, k, e', hp, hd, rfl⟩ | ⟨w, k, i, hp, hd, hx⟩
  · refine ⟨d, ?_, fun hn => absurd hp hn⟩
    unfold coreTurn; simp only [withHost_phase, hp]
  · refine ⟨true, ?_, fun _ _ => rfl⟩
    unfold coreTurn; simp only [withHost_phase, hp, hd]; rfl
  · have turn : ∀ u, exec i (s.withHost b d e) = .next u → coreTurn (s.withHost b d e) = .next u := by
      intro u hu; unfold coreTurn; simp only [withHost_phase, hp, hd, hu]
    rcases exec_withHost hp hx with ⟨-, hf⟩ | ⟨hn, hf⟩
    · exact ⟨true, turn _ (hf b d e), fun _ _ => rfl⟩
    · exact ⟨d, turn _ (hf b d e), fun _ hi => absurd hi hn⟩

/-- The controller's turn leaves the outside alone. -/
theorem coreTurn_env {s t : State} (h : coreTurn s = .next t) : t.env = s.env := by
  obtain ⟨d', hd, -⟩ := coreTurn_withHost h s.hw.irqEn s.hw.done s.env
  rw [withHost_self, h] at hd
  injection hd with hd
  exact (congrArg State.env hd).trans rfl

/-- Where an address is not gated, the bus check lets the transaction through. -/
theorem busCheck_ungated {a : Word} (ha : ungatedOffset a.toNat) :
    ∃ l : Loc, l.gated = false ∧ (∀ s : State, s.busCheck a = .ok l) ∧
      ((l = .ctrl ∧ a = 0x004) ∨ (l = .status ∧ a ≠ 0x004) ∨
        ((∀ (h : HwState) d, h.writeLoc l d = h) ∧ a ≠ 0x004)) := by
  have ha : a = 0x000 ∨ a = 0x004 ∨ a = 0x008 ∨ a = 0x024 ∨ a = 0x028 ∨ a = 0x02C := by
    simp only [ungatedOffset] at ha
    rcases ha with h | h | h | h | h | h
    · exact .inl (BitVec.eq_of_toNat_eq h)
    · exact .inr (.inl (BitVec.eq_of_toNat_eq h))
    · exact .inr (.inr (.inl (BitVec.eq_of_toNat_eq h)))
    · exact .inr (.inr (.inr (.inl (BitVec.eq_of_toNat_eq h))))
    · exact .inr (.inr (.inr (.inr (.inl (BitVec.eq_of_toNat_eq h)))))
    · exact .inr (.inr (.inr (.inr (.inr (BitVec.eq_of_toNat_eq h)))))
  rcases ha with rfl | rfl | rfl | rfl | rfl | rfl
  · exact ⟨.id, rfl, fun _ => rfl, .inr (.inr ⟨fun _ _ => rfl, by decide⟩)⟩
  · exact ⟨.ctrl, rfl, fun _ => rfl, .inl ⟨rfl, rfl⟩⟩
  · exact ⟨.status, rfl, fun _ => rfl, .inr (.inl ⟨rfl, by decide⟩)⟩
  · exact ⟨.maxAad, rfl, fun _ => rfl, .inr (.inr ⟨fun _ _ => rfl, by decide⟩)⟩
  · exact ⟨.maxData, rfl, fun _ => rfl, .inr (.inr ⟨fun _ _ => rfl, by decide⟩)⟩
  · exact ⟨.hwcfg, rfl, fun _ => rfl, .inr (.inr ⟨fun _ _ => rfl, by decide⟩)⟩

/-- A host transaction between two turns of the controller. -/
theorem step_transaction {t : State} {m : Move} {ms : List Move} (b d : Bool) (e : Env) (hm : e.moves = m :: ms)
    (hw : m.whileBusy) (hc : m ≠ .core) :
    ∃ d' r, step (t.withHost b d e) =
      .next (t.withHost (irqEnAfter b m) d' { moves := ms, resp := r, fault := e.fault }) := by
  have hpop : (t.withHost b d e).popMove = t.withHost b d { e with moves := ms } := by
    simp only [State.popMove, withHost_env, hm]; rfl
  cases m with
  | core => exact absurd rfl hc
  | reset => exact hw.elim
  | read a =>
    obtain ⟨l, -, hl, -⟩ := busCheck_ungated hw
    refine ⟨d, some (.data ((t.withHost b d { e with moves := ms }).readLoc l)), ?_⟩
    unfold step
    simp only [withHost_env, hm, hpop]
    rw [busRead_of (hl _)]; rfl
  | write a x =>
    obtain ⟨l, -, hl, hx⟩ := busCheck_ungated hw
    unfold step
    simp only [withHost_env, hm, hpop]
    rw [busWrite_of (hl _)]
    rcases hx with ⟨rfl, rfl⟩ | ⟨rfl, ha⟩ | ⟨hwr, ha⟩
    · exact ⟨d, some .written, rfl⟩
    · simp only [irqEnAfter, if_neg ha]
      refine ⟨if x.getLsbD 1 then false else d, some .written, ?_⟩
      simp only [State.onHw, HwState.writeLoc_status, HwState.writeStatus]
      split <;> rfl
    · simp only [irqEnAfter, if_neg ha]
      refine ⟨d, some .written, ?_⟩
      simp only [State.onHw, hwr]; rfl

theorem coreTurnsIn_core (ms : List Move) (N : Nat) : coreTurnsIn (.core :: ms) (N + 1) = coreTurnsIn ms N + 1 := by
  simp only [coreTurnsIn, List.take_succ_cons, List.count_cons_self, List.length_cons]; omega

theorem coreTurnsIn_other {m : Move} (h : m ≠ .core) (ms : List Move) (N : Nat) :
    coreTurnsIn (m :: ms) (N + 1) = coreTurnsIn ms N := by
  simp only [coreTurnsIn, List.take_succ_cons, List.length_cons, List.count_cons_of_ne h]; omega

theorem coreTurnsIn_nil (N : Nat) : coreTurnsIn [] N = N := by simp [coreTurnsIn]

/-- A run with host transactions at ungated addresses between the controller's turns follows the controller alone. -/
theorem run_withHost (N : Nat) {s t : State} (b d : Bool) (e : Env) (hs : s.env.moves = [])
    (hw : ∀ m ∈ e.moves.take N, m.whileBusy) (hr : core.run (coreTurnsIn e.moves N) s = .next t) :
    ∃ d' r, core.run N (s.withHost b d e) =
        .next (t.withHost ((e.moves.take N).foldl irqEnAfter b) d'
          { moves := e.moves.drop N, resp := r, fault := e.fault }) ∧
      ((∀ m ∈ e.moves.take N, m = .core) → r = e.resp) := by
  induction N generalizing s b d e with
  | zero =>
    have : coreTurnsIn e.moves 0 = 0 := by simp [coreTurnsIn]
    rw [this] at hr
    injection hr with hr; subst hr
    exact ⟨d, e.resp, rfl, fun _ => rfl⟩
  | succ N ih =>
    -- the controller's turn, whatever list it comes from
    have turn : ∀ ms, (s.withHost b d e).popMove = s.withHost b d { e with moves := ms } →
        step (s.withHost b d e) = coreTurn (s.withHost b d { e with moves := ms }) →
        (∀ m ∈ ms.take N, m.whileBusy) → core.run (coreTurnsIn ms N + 1) s = .next t →
        ∃ d' r, core.run (N + 1) (s.withHost b d e) =
            .next (t.withHost ((ms.take N).foldl irqEnAfter b) d'
              { moves := ms.drop N, resp := r, fault := e.fault }) ∧
          ((∀ m ∈ ms.take N, m = .core) → r = e.resp) := by
      intro ms _ hst hms hrun
      have : ∃ u, step s = .next u := by
        cases h : step s with
        | next u => exact ⟨u, rfl⟩
        | fault r => have h : core.step s = .fault r := h
                     simp [Host.Core.run, h] at hrun
        | refused r => have h : core.step s = .refused r := h
                       simp [Host.Core.run, h] at hrun
      obtain ⟨u, hu⟩ := this
      have hc : coreTurn s = .next u := by rw [← hu]; unfold step; rw [hs]
      rw [run_succ _ hu] at hrun
      obtain ⟨d1, h1, -⟩ := coreTurn_withHost hc b d { e with moves := ms }
      rw [run_succ N (hst.trans h1)]
      exact ih b d1 { e with moves := ms } (by rw [coreTurn_env hc, hs]) hms hrun
    match hm : e.moves with
    | [] =>
      rw [hm, coreTurnsIn_nil] at hr
      have he : { e with moves := [] } = e := by cases e; simp_all
      have := turn [] (by rw [State.popMove_of_nil hm, he]) (by unfold step; simp only [withHost_env, hm]; rw [he])
        (by simp) (by rw [coreTurnsIn_nil]; exact hr)
      simpa using this
    | .core :: ms =>
      rw [hm, coreTurnsIn_core] at hr
      rw [hm] at hw
      have hpop : (s.withHost b d e).popMove = s.withHost b d { e with moves := ms } := by
        simp only [State.popMove, withHost_env, hm]; rfl
      have := turn ms hpop (by unfold step; simp only [withHost_env, hm]; rw [hpop])
        (fun m h => hw m (by simp [h])) hr
      simpa [irqEnAfter] using this
    | .read a :: ms | .write a x :: ms | .reset :: ms =>
      rw [hm, coreTurnsIn_other (by simp)] at hr
      rw [hm] at hw
      obtain ⟨d1, r1, h1⟩ := step_transaction (t := s) b d e hm (hw _ (by simp)) (by simp)
      obtain ⟨d', r, h2, -⟩ := ih _ d1 { moves := ms, resp := r1, fault := e.fault } hs
        (fun m h => hw m (by simp [h])) hr
      rw [run_succ N h1]
      exact ⟨d', r, by simpa using h2, fun h => by simp at h⟩

/-- A host that makes no transaction waits. -/
theorem waits_of_noMoves {s : State} (h : s.env.moves = []) (c : Nat) : s.Waits (c + 1) (c + 1) where
  moves := by simp [h]
  turns := by rw [h, coreTurnsIn_nil]
  last := by rw [h, coreTurnsIn_nil]; omega

/-- Where the count of the controller's turns rises, the move is one. -/
theorem coreTurnsIn_rises (ms : List Move) (M : Nat) (h : coreTurnsIn ms M < coreTurnsIn ms (M + 1)) :
    coreTurnsIn ms (M + 1) = coreTurnsIn ms M + 1 ∧ (ms.drop M = [] ∨ ∃ r, ms.drop M = .core :: r) := by
  induction M generalizing ms with
  | zero =>
    cases ms with
    | nil => simp [coreTurnsIn]
    | cons m r =>
      have h0 : ∀ l, coreTurnsIn l 0 = 0 := fun l => by simp [coreTurnsIn]
      by_cases hm : m = .core
      · subst hm; simp [coreTurnsIn_core, h0]
      · rw [coreTurnsIn_other hm, h0, h0] at h; exact absurd h (Nat.lt_irrefl _)
  | succ M ih =>
    cases ms with
    | nil => simp [coreTurnsIn_nil]
    | cons m r =>
      by_cases hm : m = .core
      · subst hm
        rw [coreTurnsIn_core, coreTurnsIn_core] at h ⊢
        have := ih r (by omega)
        exact ⟨by rw [this.1], by simpa using this.2⟩
      · rw [coreTurnsIn_other hm, coreTurnsIn_other hm] at h ⊢
        have := ih r h
        exact ⟨this.1, by simpa using this.2⟩

/-- A command that the controller alone ends with its last turn ends too when the host waits meanwhile. -/
theorem run_waits {s p t : State} {N c : Nat} (W : s.Waits N (c + 1))
    (hp : core.run c { s with env := { s.env with moves := [] } } = .next p) (hb : p.hw.phase ≠ .idle)
    (ht : coreTurn p = .next t) (hi : t.hw.phase = .idle) :
    ∃ u, core.run N s = .next u ∧ HostWaited s u N ∧ u = t.withHost u.hw.irqEn true u.env := by
  obtain ⟨W1, W2, W3⟩ := W
  cases N with
  | zero => rw [W2] at W3; exact absurd W3 (Nat.lt_irrefl _)
  | succ M =>
    rw [Nat.add_sub_cancel, ← W2] at W3
    obtain ⟨h1, h2⟩ := coreTurnsIn_rises _ _ W3
    have hc : coreTurnsIn s.env.moves M = c := by omega
    obtain ⟨d', r, h3, h4⟩ := run_withHost M (s := { s with env := { s.env with moves := [] } }) s.hw.irqEn s.hw.done s.env
      rfl (fun m h => W1 m (List.mem_of_mem_take (by rw [List.take_take, Nat.min_eq_left (Nat.le_succ M)]; exact h)))
      (by rw [hc]; exact hp)
    have h3 : core.run M s = _ := h3
    obtain ⟨d1, h5, h6⟩ := coreTurn_withHost ht ((s.env.moves.take M).foldl irqEnAfter s.hw.irqEn) d'
      { moves := s.env.moves.drop (M + 1), resp := r, fault := s.env.fault }
    obtain rfl := h6 hb hi
    have hdrop : s.env.moves.drop (M + 1) = (s.env.moves.drop M).drop 1 := by rw [List.drop_drop]
    have h7 : step (p.withHost ((s.env.moves.take M).foldl irqEnAfter s.hw.irqEn) d'
        { moves := s.env.moves.drop M, resp := r, fault := s.env.fault }) =
        .next (t.withHost ((s.env.moves.take M).foldl irqEnAfter s.hw.irqEn) true
          { moves := s.env.moves.drop (M + 1), resp := r, fault := s.env.fault }) := by
      refine Eq.trans ?_ h5
      rcases h2 with h2 | ⟨r', h2⟩
      · rw [hdrop]; unfold step; simp only [withHost_env, h2]; rfl
      · rw [hdrop]; unfold step; simp only [withHost_env, h2]
        congr 1
    refine ⟨t.withHost ((s.env.moves.take M).foldl irqEnAfter s.hw.irqEn) true
        { moves := s.env.moves.drop (M + 1), resp := r, fault := s.env.fault },
      by rw [run_add M 1 h3, run_succ 0 h7]; rfl, ⟨rfl, rfl, fun h => ?_, ?_⟩, rfl⟩
    · exact h4 fun m hm => h m (List.mem_of_mem_take
        (by rw [List.take_take, Nat.min_eq_left (Nat.le_succ M)]; exact hm))
    · show List.foldl irqEnAfter s.hw.irqEn (s.env.moves.take M) = _
      rcases h2 with h2 | ⟨r', h2⟩
      · rw [List.take_of_length_le (List.drop_eq_nil_iff.mp h2),
          List.take_of_length_le (Nat.le_succ_of_le (List.drop_eq_nil_iff.mp h2))]
      · have : s.env.moves.take (M + 1) = s.env.moves.take M ++ [.core] := by
          rw [List.take_add, h2]; rfl
        rw [this, List.foldl_append]; rfl

end Sys2Proof.Machine
end

