-- ==== Sys2Proof/Machine/HostProgram.lean ====
section
/-! DEFINITION. The pseudo-instructions of host programs as lists of moves (30_encoding.md R107, R108). They are the host's,
not the block's: no step depends on this file. -/

namespace Sys2Proof.Machine

/-- `wr NAME, VALUE` at a register's or buffer word's offset (R107). -/
def wr (addr : Nat) (d : Word) : List Move := [.write (BitVec.ofNat 32 addr) d]

/-- `rd NAME` (R107). -/
def rd (addr : Nat) : List Move := [.read (BitVec.ofNat 32 addr)]

/-- `cmd MNEMONIC` (R108). -/
def cmd (i : Instr) : List Move := wr 0x00C (encode i)

/-- `wait` (R108) as it comes out after a number of controller turns, the host polling `STATUS` after each; the loop itself is
the host's (assumption log 20). -/
def waitPolls (turns : Nat) : List Move := (List.replicate turns (Move.core :: rd 0x008)).flatten

/-- `run MNEMONIC` (R108), with a number of polls. -/
def run (i : Instr) (turns : Nat) : List Move := cmd i ++ waitPolls turns

/-- `ld128 X, v` for the register at offset `base` (R108). -/
def ld128 (base : Nat) (v : U128) : List Move :=
  wr base (quadWord v 0) ++ wr (base + 4) (quadWord v 1) ++ wr (base + 8) (quadWord v 2) ++ wr (base + 12) (quadWord v 3)

/-- `rd128 X` for the register at offset `base` (R108). -/
def rd128 (base : Nat) : List Move := rd base ++ rd (base + 4) ++ rd (base + 8) ++ rd (base + 12)

/-- `ldbytes BUF, hexstring` for the buffer at `base`: the last group is padded with zero bytes (R108). -/
def ldbytes (base : Nat) (bs : List Byte) : List Move :=
  ((List.range ((bs.length + 3) / 4)).map fun j =>
    wr (base + 4 * j)
      (wordOfBytes (bs.getD (4 * j) 0) (bs.getD (4 * j + 1) 0) (bs.getD (4 * j + 2) 0) (bs.getD (4 * j + 3) 0))).flatten

/-- `clrdone` (R108). -/
def clrdone : List Move := wr 0x008 0x00000002

end Sys2Proof.Machine
end

