-- ==== Sys2Proof/Tests/Slice0.lean ====
section
/-! SUPPORT. The model's own tests, each with the source of its expected value, and the witnesses: concrete states that meet the
hypotheses of the statements in Certificates/Slice0/Obligations.lean. -/

namespace Sys2Proof.Machine

set_option maxRecDepth 100000

/-! ### Well-formedness and decoding (30_encoding.md R100, R103, R104) -/

theorem test_mbz_refused : Cmd32.wellFormed { opcode := 0x01, mbz := 1 } = false := by decide
theorem test_top_mbz_bit_refused : Cmd32.wellFormed { opcode := 0x21, mbz := 0x800000 } = false := by decide
theorem test_unassigned_opcodes_refused :
    ∀ op ∈ ([0x00, 0x04, 0x0F, 0x15, 0x1F, 0x22, 0xFF] : List (BitVec 8)),
      Cmd32.wellFormed { opcode := op, mbz := 0 } = false := by decide
theorem test_legal_word_accepted : Cmd32.wellFormed { opcode := 0x14, mbz := 0 } = true := by decide

theorem test_decode_init : decode 0b00000000000000000000000000000001 = .ok .init := by decide
theorem test_decode_encrypt : decode 0b00000000000000000000000000000010 = .ok .encrypt := by decide
theorem test_decode_decrypt : decode 0b00000000000000000000000000000011 = .ok .decrypt := by decide
theorem test_decode_w_xor : decode 0b00000000000000000000000000010000 = .ok .wXor := by decide
theorem test_decode_w_and : decode 0b00000000000000000000000000010001 = .ok .wAnd := by decide
theorem test_decode_w_shr1 : decode 0b00000000000000000000000000010010 = .ok .wShr1 := by decide
theorem test_decode_w_inc : decode 0b00000000000000000000000000010011 = .ok .wInc := by decide
theorem test_decode_w_eq : decode 0b00000000000000000000000000010100 = .ok .wEq := by decide
theorem test_decode_gf_mul : decode 0b00000000000000000000000000100000 = .ok .gfMul := by decide
theorem test_decode_ghash : decode 0b00000000000000000000000000100001 = .ok .ghash := by decide
/-- V-BUS-7, V-BUS-8: why the words 0x00000101 and 0x00000000 are no commands. -/
theorem test_decode_names_the_reason :
    decode 0x00000101 = .error (.mbzNonzero 1) ∧ decode 0x00000000 = .error (.unassignedOpcode 0) := by decide
theorem test_table_words : decodeTableWord 32 0x13 = some .wInc ∧ decodeTableWord 8 0x21 = some .ghash ∧
    decodeTableWord 32 0x04 = none := by decide

/-! ### Small states -/

/-- A core with 64-byte buffers around the block `h`, the provider `p`. -/
def demoOf (h : HwState) (p : Provider) : State where
  hw := h
  par := { aadUnits := ⟨3, by decide⟩, dataUnits := ⟨3, by decide⟩, multImpl := false }
  prov := p
  env := { moves := [], resp := none, fault := none }

/-- A provider that is silent. -/
def mute : Provider := { known := [], answers := [], seen := [] }

/-- The idle block after reset. -/
def idleHw : HwState := HwState.atReset []

/-- The same with a command word in `PHASE`, having received k responses. -/
def runningHw (w : Word) (k : Nat) : HwState := { idleHw with busy := true, phase := .exec w k }

/-- The block with two operands, running `w`. -/
def operands (w : Word) (a b : U128) : State := demoOf { runningHw w 0 with opa := a, opb := b } mute

/-- What holds of the next state; false where a step does not answer one. -/
def nextHolds (o : Host.Outcome State Fault Refusal) (p : State → Bool) : Bool :=
  match o with
  | .next t => p t
  | .fault _ => false
  | .refused _ => false

/-- The next state, or the given state where there is none. -/
def nextOr (o : Host.Outcome State Fault Refusal) (d : State) : State :=
  match o with
  | .next t => t
  | .fault _ => d
  | .refused _ => d

theorem eq_next_of_holds {o : Host.Outcome State Fault Refusal} {p : State → Bool} (h : nextHolds o p = true) (d : State) :
    o = .next (nextOr o d) := by
  cases o with
  | next t => rfl
  | fault r => simp [nextHolds] at h
  | refused r => simp [nextHolds] at h

/-! ### WideInt128 (95_test_vectors.md, section 2) -/

/-- V-W-1. -/
theorem test_w_xor :
    nextHolds (step (operands 0x10 0x0123456789ABCDEFFEDCBA9876543210 0xFFFFFFFFFFFFFFFF0000000000000000))
      (fun t => t.hw.res == 0xFEDCBA9876543210FEDCBA9876543210 && t.hw.done && !t.hw.busy) = true := by decide
/-- V-W-3. -/
theorem test_w_and :
    nextHolds (step (operands 0x11 0x0123456789ABCDEFFEDCBA9876543210 0xFFFFFFFFFFFFFFFF0000000000000000))
      (fun t => t.hw.res == 0x0123456789ABCDEF0000000000000000 && t.hw.errcode == 0) = true := by decide
/-- V-W-5: the carry between the halves. -/
theorem test_w_shr1_carry :
    nextHolds (step (operands 0x12 0x00000000000000010000000000000000 0))
      (fun t => t.hw.res == 0x00000000000000008000000000000000) = true := by decide
/-- V-W-6: the top bit is filled with 0. -/
theorem test_w_shr1_fill :
    nextHolds (step (operands 0x12 0xFFFFFFFFFFFFFFFFFFFFFFFFFFFFFFFF 0))
      (fun t => t.hw.res == 0x7FFFFFFFFFFFFFFFFFFFFFFFFFFFFFFF) = true := by decide
/-- V-W-9: the carry into the high half. -/
theorem test_w_inc_carry :
    nextHolds (step (operands 0x13 0x0000000000000000FFFFFFFFFFFFFFFF 0))
      (fun t => t.hw.res == 0x00000000000000010000000000000000) = true := by decide
/-- V-W-10: rollover. -/
theorem test_w_inc_rollover :
    nextHolds (step (operands 0x13 0xFFFFFFFFFFFFFFFFFFFFFFFFFFFFFFFF 0)) (fun t => t.hw.res == 0) = true := by decide
/-- V-W-13. -/
theorem test_w_eq_same :
    nextHolds (step (operands 0x14 0x66E94BD4EF8A2C3B884CFA59CA342B2E 0x66E94BD4EF8A2C3B884CFA59CA342B2E))
      (fun t => t.hw.eq && t.hw.res == 0) = true := by decide
/-- V-W-15: a difference in bit 127 alone. -/
theorem test_w_eq_top_bit :
    nextHolds (step (operands 0x14 0x80000000000000000000000000000000 0)) (fun t => !t.hw.eq && t.hw.done) = true := by
  decide

/-! ### Multiplier and GHASH (95_test_vectors.md, section 3) -/

/-- V-GF-5: the reduction. -/
theorem test_gf_mul_reduction :
    nextHolds (step (operands 0x20 1 0x40000000000000000000000000000000))
      (fun t => t.hw.res == 0xE1000000000000000000000000000000) = true := by decide
/-- V-GF-6: a square. -/
theorem test_gf_mul_square :
    nextHolds (step (operands 0x20 0x66E94BD4EF8A2C3B884CFA59CA342B2E 0x66E94BD4EF8A2C3B884CFA59CA342B2E))
      (fun t => t.hw.res == 0xA569901BB4B18906F5059D24465C904D) = true := by decide
/-- V-GH-3: the data block, the extra zero block and the length block. -/
theorem test_ghash_aligned_data :
    nextHolds (step (demoOf { runningHw 0x21 0 with
        opa := 0x66E94BD4EF8A2C3B884CFA59CA342B2E, dataLen := 16,
        mem := memWrite [] dataBase (ser128 0x0388dace60b6a392f328c2b971b2fe78) } mute))
      (fun t => t.hw.res == 0x45D270DCDDFD2395BAFFE6C5CBBE3AD2) = true := by decide
/-- V-GH-7: `AAD_LEN = MAX_AAD_BYTES + 1`. -/
theorem test_ghash_length_error :
    nextHolds (step (demoOf { runningHw 0x21 0 with aadLen := 65, res := 5 } mute))
      (fun t => t.hw.errcode == 0x08 && t.hw.res == 5) = true := by decide
/-- 41_galois.md R155: the corner cases of PAD. -/
theorem test_pad_lengths :
    ([0, 1, 15, 16, 17, 60, 64].map fun n => (pad (List.replicate n 7)).length) = [16, 16, 16, 32, 32, 64, 80] := by
  decide

/-! ### INIT, ENCRYPT and DECRYPT (95_test_vectors.md, sections 4 to 6) -/

/-- The example of 42_session.md R190. -/
theorem test_init_counter :
    nextHolds (step (demoOf { runningHw 0x01 0 with
        keyLen := 16, nonceLen := 12,
        nonceb := #v[0xca, 0xfe, 0xba, 0xbe, 0xfa, 0xce, 0xdb, 0xad, 0xde, 0xca, 0xf8, 0x88] } mute))
      (fun t => t.hw.session == .fresh && t.hw.ctr == 0xCAFEBABEFACEDBADDECAF88800000001) = true := by decide
/-- 42_session.md R190: the key check comes first, and a failed INIT clears the session. -/
theorem test_init_key_size :
    nextHolds (step (demoOf { runningHw 0x01 0 with keyLen := 17, nonceLen := 0, session := .used, skl := 16 } mute))
      (fun t => t.hw.errcode == 0x01 && t.hw.session == .none && t.hw.skl == 0) = true := by decide

/-- The TOY key of V-ENC-5. -/
def toyKey : U128 := 0x000102030405060708090a0b0c0d0e0f

/-- `counter0` of V-ENC-5. -/
def toyCounter : U128 := 0x101112131415161718191a1b00000001

/-- The FRESH session of V-ENC-5. -/
def toyHw (w : Word) (k : Nat) : HwState :=
  { runningHw w k with
    session := .fresh, skeyb := Vector.ofFn (fun i => if i.val < 16 then BitVec.ofNat 8 i.val else 0), skl := 16,
    ctr := toyCounter }

/-- Values of a cipher at the first requests of the TOY session: all zero, or those of the TOY cipher `block xor key`. -/
def toyKnown (f : U128 → U128) : List (CipherPoint × U128) :=
  ([0, toyCounter, toyCounter + 1, toyCounter + 2] : List U128).map fun b =>
    ({ keylen := 16, key := ser128 toyKey, block := b }, f b)

/-- The AAD of V-ENC-5d in `AADBUF` and its ciphertext at `base`. -/
def toyMem (base : Nat) : List Host.Cell :=
  memWrite (memWrite (memWrite [] aadBase [0xaa, 0xbb, 0xcc]) base (ser128 0x101112131415161718191a1b00000002))
    (base + 16) [0x00, 0x01, 0x02, 0x03]

/-- V-ENC-5d, the last step: the tag behind the 20 bytes of ciphertext. -/
theorem test_encrypt_tag :
    nextHolds (step (demoOf { toyHw 0x02 4 with
        session := .used, hsub := toyKey, eky0 := 0x1010101010101010101010100c0d0e0e, aadLen := 3, dataLen := 20,
        mem := toyMem outBase } mute))
      (fun t => memRead t.hw.mem (outBase + 20) 16 == ser128 0x8a5c87f5246851e6c287cdeeb258b30a &&
        t.hw.outLen == 36 && t.hw.outValid && t.hw.errcode == 0) = true := by decide
/-- V-ENC-5b, the keystream block: `0x41 xor 0x10 = 0x51`. -/
theorem test_encrypt_keystream_byte :
    nextHolds (step (demoOf { toyHw 0x02 2 with
        session := .used, dataLen := 1, mem := memWrite [] dataBase [0x41],
        ctr := toyCounter + 1, pend := some ((toyHw 0x02 2).request (toyCounter + 1)) }
        { known := toyKnown (· ^^^ toyKey), answers := [.ok], seen := [] }))
      (fun t => t.hw.mem == [(dataBase, 0x41), (outBase, 0x51)] && t.hw.pend == none) = true := by decide
/-- V-DEC-10: a changed ciphertext byte. -/
theorem test_decrypt_tag_mismatch :
    nextHolds (step (demoOf { toyHw 0x03 2 with
        session := .used, hsub := toyKey, eky0 := 0x1010101010101010101010100c0d0e0e, aadLen := 3, dataLen := 36,
        mem := memWrite (memWrite (toyMem dataBase) (dataBase + 20) (ser128 0x8a5c87f5246851e6c287cdeeb258b30a))
          dataBase [0x11] } mute))
      (fun t => t.hw.errcode == 0x06 && t.hw.pend == none && !t.hw.outValid &&
        t.hw.gacc ^^^ t.hw.eky0 == 0x30568D7E5A3A0FE67B71393B31913A25) = true := by decide
/-- V-DEC-9, the tag decision: the tag is good and the first keystream block is asked for. -/
theorem test_decrypt_tag_match :
    nextHolds (step (demoOf { toyHw 0x03 2 with
        session := .used, hsub := toyKey, eky0 := 0x1010101010101010101010100c0d0e0e, aadLen := 3, dataLen := 36,
        mem := memWrite (toyMem dataBase) (dataBase + 20) (ser128 0x8a5c87f5246851e6c287cdeeb258b30a) } mute))
      (fun t => t.hw.busy && (t.hw.pend.map (·.block)) == some (toyCounter + 1)) = true := by decide

/-! ### Bus (95_test_vectors.md, section 7) -/

/-- V-BUS-1 to V-BUS-3. -/
theorem test_bus_errors :
    (demoOf idleHw mute).readResp 0x000 = some (.data 0x47434D07) ∧
    (demoOf idleHw mute).readResp 0x002 = some .busErr ∧
    (demoOf idleHw mute).readResp 0x030 = some .busErr := by decide
/-- V-BUS-4: `KEYB` reads 0. -/
theorem test_key_reads_zero :
    ((demoOf idleHw mute).afterWrite 0x040 0x12345678).readResp 0x040 = some (.data 0) ∧
    ((demoOf idleHw mute).afterWrite 0x040 0x12345678).hw.keyb[1] = 0x34 := by decide
/-- V-BUS-5, V-BUS-6. -/
theorem test_busy_gate :
    ((demoOf (runningHw 0x10 0) mute).afterWrite 0x00C 0x20).env.resp = some .busErr ∧
    ((demoOf (runningHw 0x10 0) mute).afterWrite 0x00C 0x20).hw = runningHw 0x10 0 ∧
    (demoOf (runningHw 0x10 0) mute).readResp 0x008 = some (.data 0x00000001) := by decide
/-- V-BUS-7: an illegal word. -/
theorem test_illegal_word :
    nextHolds (step (demoOf (runningHw 0x101 0) mute)) (fun t => t.hw.errcode == 0x09 && t.hw.done) = true := by decide
/-- V-BUS-7 with the host's `wait` to come (30_encoding.md R108). -/
theorem test_illegal_word_polled :
    nextHolds (step { demoOf (runningHw 0x101 0) mute with
        env := { moves := [.core, .read 0x008], resp := none, fault := none } })
      (fun t => t.hw.errcode == 0x09 && t.hw.done && t.env.moves == [.read 0x008]) = true := by decide
/-- V-BUS-9: the acknowledgement. -/
theorem test_ack :
    ((demoOf { idleHw with done := true, irqEn := true } mute).afterWrite 0x008 2).hw.irq = false := by decide
/-- V-BUS-11: the last word of the output of V-ENC-5b. -/
theorem test_output_edge :
    (demoOf { idleHw with
        outValid := true, outLen := 17, mem := memWrite [] (outBase + 16) [0xBA, 1, 2, 3] } mute).readResp 0xC0000010
      = some (.data 0xBA000000) := by decide

/-! ### Witnesses

Each theorem `witness_<Name>` shows that the hypotheses of `Obligations.<Name>` are met together, clause by clause, at
boundary values where a clause has a range. -/

/-- The idle demo core. -/
def idleDemo : State := demoOf idleHw mute

/-- The demo core running a command word, k responses received. -/
def runningDemo (w : Word) (k : Nat) : State := demoOf (runningHw w k) mute

theorem witness_LegalWords : idleDemo.hw.busy = false := rfl
theorem witness_OperandRegisters :
    idleDemo.hw.busy = false ∧ nextHolds (coreTurn idleDemo) (fun _ => true) = true := ⟨rfl, by decide⟩
theorem witness_KeyAndNonceWindows :
    idleDemo.hw.busy = false ∧ Instr.wXor ≠ .init ∧
    (let s := demoOf { idleHw with keyLen := 32 } mute
     s.hw.keyLen = 32 ∧ ∀ x, x < s.hw.keyLen.toNat → windowByte s.hw.keyb x = windowByte s.hw.keyb x) :=
  ⟨rfl, by decide, rfl, fun _ _ => rfl⟩
theorem witness_ControlRegisters : idleDemo.hw.busy = false := rfl

/-- Both ends of every range of rule R104; the phase, whatever moves are to come. -/
theorem witness_IllegalWordCompletes :
    (∀ (w : Word) (e : Env), ({ runningDemo w 0 with env := e } : State).hw.phase = .exec w 0) ∧
    (0x00000101 : Word).extractLsb' 8 24 ≠ 0 ∧ (0x80000001 : Word).extractLsb' 8 24 ≠ 0 ∧
    ((0x00000000 : Word).extractLsb' 0 8).toNat = 0x00 ∧
    ((0x00000004 : Word).extractLsb' 0 8).toNat = 0x04 ∧ ((0x0000000F : Word).extractLsb' 0 8).toNat = 0x0F ∧
    ((0x00000015 : Word).extractLsb' 0 8).toNat = 0x15 ∧ ((0x0000001F : Word).extractLsb' 0 8).toNat = 0x1F ∧
    ((0x00000022 : Word).extractLsb' 0 8).toNat = 0x22 :=
  ⟨fun _ _ => rfl, by decide, by decide, by decide, by decide, by decide, by decide, by decide, by decide⟩

/-- A word that decodes to nothing. -/
theorem decode_0x100 : ∀ i, decode 0x100 ≠ .ok i := fun i h => by
  rw [show decode 0x100 = .error (.mbzNonzero 1) by decide] at h; cases h

theorem witness_CommandIssue :
    (runningDemo 0x10 0).hw.busy = true ∧ idleDemo.hw.busy = false ∧
    (runningDemo 0x10 0).hw.phase = .exec 0x10 0 ∧ decode 0x10 = .ok .wXor ∧
    (runningDemo 0x100 0).hw.phase = .exec 0x100 0 ∧ ∀ i, decode 0x100 ≠ .ok i :=
  ⟨rfl, rfl, rfl, by decide, rfl, decode_0x100⟩

theorem witness_StepMakesTheNextMove :
    ((runningDemo 0x14 0).env.moves = [] ∧ (runningDemo 0x14 0).hw.phase = .exec 0x14 0 ∧ decode 0x14 = .ok .wEq) ∧
    ((runningDemo 0x100 0).env.moves = [] ∧ (runningDemo 0x100 0).hw.phase = .exec 0x100 0 ∧
      ∀ i, decode 0x100 ≠ .ok i) ∧
    (idleDemo.env.moves = [] ∧ idleDemo.hw.phase = .idle) ∧
    ∀ (s : State) (m : Move),
      ({ s with env := { s.env with moves := [m] } } : State).env.moves = m :: [] ∧
      ({ s with env := { s.env with moves := [m] } } : State).hw = s.hw :=
  ⟨⟨rfl, rfl, by decide⟩, ⟨rfl, rfl, decode_0x100⟩, ⟨rfl, rfl⟩, fun _ _ => ⟨rfl, rfl⟩⟩

theorem witness_WideIntIsPure :
    Instr.wXor ∈ ([.wXor, .wAnd, .wShr1, .wInc, .wEq] : List Instr) ∧
    Instr.wEq ∈ ([.wXor, .wAnd, .wShr1, .wInc, .wEq] : List Instr) ∧
    (operands 0x10 3 5).hw.opa = (demoOf { toyHw 0x10 0 with opa := 3, opb := 5 } mute).hw.opa ∧
    (operands 0x10 3 5).hw.opb = (demoOf { toyHw 0x10 0 with opa := 3, opb := 5 } mute).hw.opb := by decide

theorem witness_GfMulResult :
    (operands 0x20 0 7).hw.opa = 0 ∧ (operands 0x20 7 0).hw.opb = 0 ∧
    (operands 0x20 7 ((1 : U128) <<< 127)).hw.opb = (1 : U128) <<< 127 ∧
    (operands 0x20 1 ((1 : U128) <<< 126)).hw.opa = 1 ∧
    (operands 0x20 1 ((1 : U128) <<< 126)).hw.opb = (1 : U128) <<< 126 := ⟨rfl, rfl, rfl, rfl, rfl⟩

theorem witness_GhashBlockOrder :
    ([] : List Byte).length < 2 ^ 32 ∧ (List.replicate 64 (1 : Byte)).length < 2 ^ 32 := by decide

/-- The lengths fit at 0 and at the buffer size, and not one past it. -/
theorem witness_GhashResult :
    (demoOf { idleHw with aadLen := 64, dataLen := 64 } mute).lengthsFit ∧
    ¬ (demoOf { idleHw with aadLen := 65 } mute).lengthsFit ∧
    ¬ (demoOf { idleHw with dataLen := 65 } mute).lengthsFit ∧
    (idleDemo.lengthsFit ∧ idleDemo.hw.aadLen = 0 ∧ idleDemo.hw.dataLen = 0 ∧ idleDemo.hw.opa = 0) ∧
    ((demoOf { idleHw with opa := (1 : U128) <<< 127 } mute).lengthsFit ∧
      (demoOf { idleHw with opa := (1 : U128) <<< 127 } mute).hw.opa = (1 : U128) <<< 127) := by
  unfold State.lengthsFit; decide

theorem witness_InitResult :
    (∀ kl ∈ ([16, 24, 32] : List Byte), (kl = 16 ∨ kl = 24 ∨ kl = 32) ∧
      (demoOf { idleHw with keyLen := kl, nonceLen := 12 } mute).hw.keyLen = kl ∧
      (demoOf { idleHw with keyLen := kl, nonceLen := 12 } mute).hw.nonceLen = 12 ∧
      (demoOf { idleHw with keyLen := kl, nonceLen := 13 } mute).hw.nonceLen ≠ 12) ∧
    (∀ kl ∈ ([0, 15, 17, 255] : List Byte), kl ≠ 16 ∧ kl ≠ 24 ∧ kl ≠ 32 ∧
      (demoOf { idleHw with keyLen := kl } mute).hw.keyLen = kl) := by decide

/-- The issued command words of the two session operations. -/
theorem issued_running (h : HwState) (p : Provider) (w : Word) (i : Instr) (hp : h.phase = .exec w 0) (hn : h.pend = none)
    (hd : decode w = .ok i) : (demoOf h p).issued i :=
  And.intro (Exists.intro w (And.intro hp hd)) hn

theorem witness_RejectedSessionOperations :
    ((runningDemo 0x02 0).issued .encrypt ∧ (runningDemo 0x02 0).hw.session = .none) ∧
    ((runningDemo 0x03 0).issued .decrypt ∧ (runningDemo 0x03 0).hw.session = .none) ∧
    ((demoOf { toyHw 0x02 0 with session := .used } mute).issued .encrypt ∧
      (demoOf { toyHw 0x02 0 with session := .used } mute).hw.session = .used) ∧
    ((demoOf { toyHw 0x03 0 with session := .used } mute).issued .decrypt ∧
      (demoOf { toyHw 0x03 0 with session := .used } mute).hw.session = .used) :=
  ⟨⟨issued_running _ _ _ _ rfl rfl (by decide), rfl⟩, ⟨issued_running _ _ _ _ rfl rfl (by decide), rfl⟩,
    ⟨issued_running _ _ _ _ rfl rfl (by decide), rfl⟩, ⟨issued_running _ _ _ _ rfl rfl (by decide), rfl⟩⟩

theorem witness_LengthCheck :
    ((demoOf { toyHw 0x02 0 with aadLen := 65 } mute).par.maxAad <
        (demoOf { toyHw 0x02 0 with aadLen := 65 } mute).hw.aadLen.toNat ∧
      (demoOf { toyHw 0x02 0 with aadLen := 65 } mute).issued .encrypt ∧
      (demoOf { toyHw 0x02 0 with aadLen := 65 } mute).hw.session = .fresh) ∧
    ((demoOf { toyHw 0x03 0 with dataLen := 0xFFFFFFFF } mute).par.maxData <
        (demoOf { toyHw 0x03 0 with dataLen := 0xFFFFFFFF } mute).hw.dataLen.toNat ∧
      (demoOf { toyHw 0x03 0 with dataLen := 0xFFFFFFFF } mute).issued .decrypt ∧
      (demoOf { toyHw 0x03 0 with dataLen := 0xFFFFFFFF } mute).hw.session = .fresh) :=
  ⟨⟨by decide, issued_running _ _ _ _ rfl rfl (by decide), rfl⟩,
    ⟨by decide, issued_running _ _ _ _ rfl rfl (by decide), rfl⟩⟩

theorem witness_RejectedSessionOperations_too_short :
    (demoOf { toyHw 0x03 0 with dataLen := 15 } mute).issued .decrypt ∧
    (demoOf { toyHw 0x03 0 with dataLen := 15 } mute).hw.session = .fresh ∧
    (demoOf { toyHw 0x03 0 with dataLen := 15 } mute).lengthsFit ∧
    (demoOf { toyHw 0x03 0 with dataLen := 15 } mute).hw.dataLen.toNat < 16 :=
  ⟨issued_running _ _ _ _ rfl rfl (by decide), rfl, And.intro (by decide) (by decide), by decide⟩

/-- ENCRYPT of 16 bytes (two blocks) with no request out, at every position; in FRESH at position 0. -/
theorem witness_EncryptController :
    ∀ k : Nat, (demoOf { toyHw 0x02 k with dataLen := 16 } mute).hw.runs .encrypt k ∧
      (demoOf { toyHw 0x02 k with dataLen := 16 } mute).hw.pend = none ∧
      (demoOf { toyHw 0x02 k with dataLen := 16 } mute).hw.session = .fresh ∧
      (demoOf { toyHw 0x02 k with dataLen := 16 } mute).lengthsFit ∧
      (2 ≤ 2 ∧ 2 < 16 / 16 + 3) ∧ (2 ≤ 3 ∧ 3 < 16 / 16 + 3) ∧ 4 = 16 / 16 + 3 :=
  fun k => ⟨Exists.intro 0x02 (And.intro rfl (by decide)), rfl, rfl,
    And.intro (show (0 : Word).toNat ≤ 64 by decide) (show (16 : Word).toNat ≤ 64 by decide), by decide, by decide, rfl⟩

/-- DECRYPT of 32 bytes (two blocks) with no request out, at every position; the tag decision both ways. -/
theorem witness_DecryptController :
    (∀ k : Nat, (demoOf { toyHw 0x03 k with dataLen := 32 } mute).hw.runs .decrypt k ∧
      (demoOf { toyHw 0x03 k with dataLen := 32 } mute).hw.pend = none ∧
      (demoOf { toyHw 0x03 k with dataLen := 32 } mute).hw.session = .fresh ∧
      (demoOf { toyHw 0x03 k with dataLen := 32 } mute).lengthsFit ∧
      16 ≤ (demoOf { toyHw 0x03 k with dataLen := 32 } mute).hw.dataLen.toNat ∧
      (3 ≤ 3 ∧ 3 < 16 / 16 + 3) ∧ 4 = 16 / 16 + 3) ∧
    (let h : HwState := { toyHw 0x03 2 with dataLen := 32 }
     ghash h.hsub h.aad (memRead h.mem dataBase 16) ^^^ h.eky0 = be128 (memRead h.mem (dataBase + 16) 16)) ∧
    (let h : HwState := { toyHw 0x03 2 with dataLen := 32, eky0 := 1 }
     ghash h.hsub h.aad (memRead h.mem dataBase 16) ^^^ h.eky0 ≠ be128 (memRead h.mem (dataBase + 16) 16)) :=
  ⟨fun k => ⟨Exists.intro 0x03 (And.intro rfl (by decide)), rfl, rfl,
    And.intro (show (0 : Word).toNat ≤ 64 by decide) (show (32 : Word).toNat ≤ 64 by decide),
    (show 16 ≤ (32 : Word).toNat by decide), by decide, rfl⟩, by decide, by decide⟩

/-- A TOY session operation waiting for a response at position k. -/
def waitingDemo (w : Word) (k : Nat) (answers : List Answer) : State :=
  demoOf { toyHw w k with session := .used, pend := some ((toyHw w k).request 0), dataLen := 20 }
    { known := toyKnown (· ^^^ toyKey), answers := answers, seen := [] }

theorem witness_ProviderResponse :
    ∀ k : Nat,
      ((waitingDemo 0x02 k []).hw.phase = .exec 0x02 k ∧ decode 0x02 = .ok .encrypt ∧
        (waitingDemo 0x02 k []).hw.pend = some ((toyHw 0x02 k).request 0) ∧ (waitingDemo 0x02 k []).prov.answers = []) ∧
      (waitingDemo 0x03 k [.ok]).hw.phase = .exec 0x03 k ∧ decode 0x03 = .ok .decrypt ∧
      (waitingDemo 0x03 k [.ok]).prov.answers = .ok :: [] ∧
      (waitingDemo 0x02 k [.err 7]).prov.answers = .err 7 :: [] :=
  fun _ => ⟨⟨rfl, by decide, rfl, rfl⟩, rfl, by decide, rfl, rfl⟩

/-- A FRESH TOY session with a cipher that answers 0 at the listed blocks, `n` bytes and a list of answers. -/
def freshDemo (w : Word) (len : Word) (mem : List Host.Cell) (answers : List Answer) : State :=
  demoOf { toyHw w 0 with dataLen := len, mem := mem } { known := toyKnown fun _ => 0, answers := answers, seen := [] }

theorem freshDemo_ready_encrypt (len : Word) (mem : List Host.Cell) (answers : List Answer) (hl : len.toNat ≤ 64)
    (hm : Memory.wf mem) : (freshDemo 0x02 len mem answers).ReadyFor .encrypt len.toNat where
  issued := issued_running _ _ _ _ rfl rfl (by decide)
  fresh := rfl
  lengths := And.intro (show (0 : Word).toNat ≤ 64 by decide) hl
  short := fun h => by cases h
  message := rfl
  canonical := hm

theorem freshDemo_ready_decrypt (len : Word) (mem : List Host.Cell) (answers : List Answer) (hl : len.toNat ≤ 64)
    (hs : 16 ≤ len.toNat) (hm : Memory.wf mem) :
    (freshDemo 0x03 len mem answers).ReadyFor .decrypt (len.toNat - 16) where
  issued := issued_running _ _ _ _ rfl rfl (by decide)
  fresh := rfl
  lengths := And.intro (show (0 : Word).toNat ≤ 64 by decide) hl
  short := fun _ => hs
  message := rfl
  canonical := hm

/-- The state with the polls of `wait` to come after each of its controller turns (30_encoding.md R108). -/
def polling (s : State) (turns : Nat) : State := { s with env := { s.env with moves := waitPolls turns } }

theorem polling_ready {s : State} {i : Instr} {n : Nat} (h : s.ReadyFor i n) (turns : Nat) : (polling s turns).ReadyFor i n where
  issued := h.issued
  fresh := h.fresh
  lengths := h.lengths
  short := h.short
  message := h.message
  canonical := h.canonical

theorem waitPolls_whileBusy (turns : Nat) : ∀ m ∈ waitPolls turns, m.whileBusy := by
  intro m h
  simp only [waitPolls, rd, List.mem_flatten, List.mem_replicate] at h
  obtain ⟨l, ⟨-, rfl⟩, h⟩ := h
  simp only [List.mem_cons, List.not_mem_nil, or_false] at h
  rcases h with rfl | rfl
  · trivial
  · exact .inr (.inr (.inl rfl))

/-- A host that polls after each turn waits, for every N whose last move is turn number c. -/
theorem polling_waits (s : State) (turns N c : Nat) (h : coreTurnsIn (waitPolls turns) N = c)
    (h' : coreTurnsIn (waitPolls turns) (N - 1) < c) : (polling s turns).Waits N c where
  moves := fun m hm => waitPolls_whileBusy turns m (List.mem_of_mem_take hm)
  turns := h
  last := h'

/-- No byte, and a full buffer (five blocks, seven requests), the host polling after each turn. -/
theorem witness_EncryptRunsToCompletion :
    ((freshDemo 0x02 0 [] (List.replicate 3 .ok)).ReadyFor .encrypt 0 ∧
      (freshDemo 0x02 0 [] (List.replicate 3 .ok)).providerOk (blockCount 0 + 2) ∧
      (freshDemo 0x02 0 [] (List.replicate 3 .ok)).Waits 7 (2 * (blockCount 0 + 2) + 1)) ∧
    ((polling (freshDemo 0x02 64 [] (List.replicate 7 .ok)) 15).ReadyFor .encrypt 64 ∧
      (polling (freshDemo 0x02 64 [] (List.replicate 7 .ok)) 15).providerOk (blockCount 64 + 2) ∧
      (polling (freshDemo 0x02 64 [] (List.replicate 7 .ok)) 15).Waits 29 (2 * (blockCount 64 + 2) + 1)) :=
  ⟨⟨freshDemo_ready_encrypt 0 [] _ (by decide) (by decide), And.intro (Nat.le_refl _) rfl, waits_of_noMoves rfl 6⟩,
    ⟨polling_ready (freshDemo_ready_encrypt 64 [] _ (by decide) (by decide)) 15, And.intro (Nat.le_refl _) rfl,
      polling_waits _ 15 29 _ (by decide) (by decide)⟩⟩

/-- A tag alone, and 20 bytes with their tag, the host polling after each turn. -/
theorem witness_DecryptRunsToCompletion :
    ((freshDemo 0x03 16 [] (List.replicate 3 .ok)).ReadyFor .decrypt 0 ∧
      (freshDemo 0x03 16 [] (List.replicate 3 .ok)).providerOk (blockCount 0 + 2) ∧
      (freshDemo 0x03 16 [] (List.replicate 3 .ok)).hw.givenTag 0 =
        (freshDemo 0x03 16 [] (List.replicate 3 .ok)).tagOf
          ((freshDemo 0x03 16 [] (List.replicate 3 .ok)).hw.data 0) ∧
      (freshDemo 0x03 16 [] (List.replicate 3 .ok)).Waits 7 (2 * (blockCount 0 + 2) + 1)) ∧
    ((polling (freshDemo 0x03 36 [] (List.replicate 4 .ok)) 9).ReadyFor .decrypt 20 ∧
      (polling (freshDemo 0x03 36 [] (List.replicate 4 .ok)) 9).providerOk (blockCount 20 + 2) ∧
      (polling (freshDemo 0x03 36 [] (List.replicate 4 .ok)) 9).hw.givenTag 20 =
        (polling (freshDemo 0x03 36 [] (List.replicate 4 .ok)) 9).tagOf
          ((polling (freshDemo 0x03 36 [] (List.replicate 4 .ok)) 9).hw.data 20) ∧
      (polling (freshDemo 0x03 36 [] (List.replicate 4 .ok)) 9).Waits 17 (2 * (blockCount 20 + 2) + 1)) :=
  ⟨⟨freshDemo_ready_decrypt 16 [] _ (by decide) (by decide) (by decide), And.intro (Nat.le_refl _) rfl, by decide,
      waits_of_noMoves rfl 6⟩,
    ⟨polling_ready (freshDemo_ready_decrypt 36 [] _ (by decide) (by decide) (by decide)) 9,
      And.intro (Nat.le_refl _) rfl, by decide, polling_waits _ 9 17 _ (by decide) (by decide)⟩⟩

/-- The last bit of the tag flipped, the host polling after each turn. -/
theorem witness_DecryptFailsClosed :
    (polling (freshDemo 0x03 36 [(dataBase + 35, 1)] [.ok, .ok]) 5).ReadyFor .decrypt 20 ∧
    (polling (freshDemo 0x03 36 [(dataBase + 35, 1)] [.ok, .ok]) 5).providerOk 2 ∧
    (polling (freshDemo 0x03 36 [(dataBase + 35, 1)] [.ok, .ok]) 5).hw.givenTag 20 ≠
      (polling (freshDemo 0x03 36 [(dataBase + 35, 1)] [.ok, .ok]) 5).tagOf
        ((polling (freshDemo 0x03 36 [(dataBase + 35, 1)] [.ok, .ok]) 5).hw.data 20) ∧
    (polling (freshDemo 0x03 36 [(dataBase + 35, 1)] [.ok, .ok]) 5).Waits 9 5 :=
  ⟨polling_ready (freshDemo_ready_decrypt 36 _ _ (by decide) (by decide) (by decide)) 5, And.intro (Nat.le_refl _) rfl,
    by decide, polling_waits _ 5 9 _ (by decide) (by decide)⟩

/-- The first request and the last (20 bytes: four requests); DECRYPT at the last, after a good tag, the host polling after
each turn. -/
theorem witness_ProviderFailureEndsTheCommand :
    ((freshDemo 0x02 20 [] [.err 7]).ReadyFor .encrypt 20 ∧ 0 < blockCount 20 + 2 ∧
      (freshDemo 0x02 20 [] [.err 7]).prov.answers = List.replicate 0 .ok ++ .err 7 :: [] ∧
      (freshDemo 0x02 20 [] [.err 7]).Waits 2 (2 * (0 + 1))) ∧
    ((polling (freshDemo 0x03 36 [] [.ok, .ok, .ok, .err 7]) 8).ReadyFor .decrypt 20 ∧ 3 < blockCount 20 + 2 ∧
      (polling (freshDemo 0x03 36 [] [.ok, .ok, .ok, .err 7]) 8).prov.answers = List.replicate 3 .ok ++ .err 7 :: [] ∧
      (polling (freshDemo 0x03 36 [] [.ok, .ok, .ok, .err 7]) 8).hw.givenTag 20 =
        (polling (freshDemo 0x03 36 [] [.ok, .ok, .ok, .err 7]) 8).tagOf
          ((polling (freshDemo 0x03 36 [] [.ok, .ok, .ok, .err 7]) 8).hw.data 20) ∧
      (polling (freshDemo 0x03 36 [] [.ok, .ok, .ok, .err 7]) 8).Waits 15 (2 * (3 + 1))) :=
  ⟨⟨freshDemo_ready_encrypt 20 [] _ (by decide) (by decide), by decide, rfl, waits_of_noMoves rfl 1⟩,
    ⟨polling_ready (freshDemo_ready_decrypt 36 [] _ (by decide) (by decide) (by decide)) 8, by decide, rfl, by decide,
      polling_waits _ 8 15 _ (by decide) (by decide)⟩⟩

/-- The block that INIT turns into the TOY session; `tail` is the last key byte, which a 16-byte key does not use. -/
def initDemo (tail : Byte) : State :=
  demoOf { runningHw 0x01 0 with
      keyLen := 16, nonceLen := 12,
      keyb := Vector.ofFn (fun i => if i.val < 16 then BitVec.ofNat 8 i.val else tail),
      nonceb := #v[0x10, 0x11, 0x12, 0x13, 0x14, 0x15, 0x16, 0x17, 0x18, 0x19, 0x1a, 0x1b] } mute

/-- The ENCRYPT of one byte in that session. -/
def oneByte : State := freshDemo 0x02 1 [(dataBase, 0x41)] (List.replicate 3 .ok)

theorem witness_RoundTrip :
    (initDemo 0).hw.keyLen = (initDemo 9).hw.keyLen ∧ (initDemo 0).hw.nonceb = (initDemo 9).hw.nonceb ∧
    (∀ i, i < (initDemo 0).hw.keyLen.toNat → windowByte (initDemo 0).hw.keyb i = windowByte (initDemo 9).hw.keyb i) ∧
    ∃ (s₁ u₁ t : State), exec .init (initDemo 0) = .next s₁ ∧ exec .init (initDemo 9) = .next u₁ ∧
      SameSession oneByte.hw s₁.hw ∧
      SameSession (freshDemo 0x03 17 [(dataBase, 0x41)] (List.replicate 3 .ok)).hw u₁.hw ∧
      oneByte.ReadyFor .encrypt 1 ∧ oneByte.providerOk (blockCount 1 + 2) ∧
      oneByte.Waits 7 (2 * (blockCount 1 + 2) + 1) ∧ core.run 7 oneByte = .next t ∧
      (freshDemo 0x03 17 [(dataBase, 0x41)] (List.replicate 3 .ok)).ReadyFor .decrypt 1 ∧
      (freshDemo 0x03 17 [(dataBase, 0x41)] (List.replicate 3 .ok)).providerOk (blockCount 1 + 2) ∧
      (freshDemo 0x03 17 [(dataBase, 0x41)] (List.replicate 3 .ok)).Waits 7 (2 * (blockCount 1 + 2) + 1) ∧
      (freshDemo 0x03 17 [(dataBase, 0x41)] (List.replicate 3 .ok)).prov.known = oneByte.prov.known ∧
      (freshDemo 0x03 17 [(dataBase, 0x41)] (List.replicate 3 .ok)).hw.aad = oneByte.hw.aad ∧
      (freshDemo 0x03 17 [(dataBase, 0x41)] (List.replicate 3 .ok)).hw.data (1 + 16) =
        t.hw.outBytes t.hw.outLen.toNat :=
  ⟨rfl, rfl, by decide, nextOr (exec .init (initDemo 0)) idleDemo, nextOr (exec .init (initDemo 9)) idleDemo,
    nextOr (core.run 7 oneByte) idleDemo, rfl, rfl, ⟨by decide, by decide, by decide, by decide⟩,
    ⟨by decide, by decide, by decide, by decide⟩, freshDemo_ready_encrypt 1 _ _ (by decide) (by decide),
    And.intro (Nat.le_refl _) rfl, waits_of_noMoves rfl 6, eq_next_of_holds (p := fun _ => true) (by decide) idleDemo,
    freshDemo_ready_decrypt 17 _ _ (by decide) (by decide) (by decide), And.intro (Nat.le_refl _) rfl,
    waits_of_noMoves rfl 6, rfl, rfl,
    by decide⟩

theorem witness_SilentProviderHangs :
    ((waitingDemo 0x02 0 []).hw.runs .encrypt 0 ∧
      (waitingDemo 0x02 0 []).hw.pend = some ((toyHw 0x02 0).request 0) ∧ (waitingDemo 0x02 0 []).hw.busy = true ∧
      (waitingDemo 0x02 0 []).hw.done = false ∧ (waitingDemo 0x02 0 []).prov.answers = [] ∧
      Move.reset ∉ (waitingDemo 0x02 0 []).env.moves) ∧
    ({ idleDemo with env := { idleDemo.env with moves := [.reset] } } : State).env.moves = .reset :: [] :=
  ⟨⟨Exists.intro 0x02 (And.intro rfl (by decide)), rfl, rfl, rfl, rfl, by decide⟩, rfl⟩

/-- An idle core with a used session, a second ENCRYPT to come. -/
def usedDemo : State :=
  { demoOf { toyHw 0 0 with busy := false, phase := .idle, session := .used } mute with
    env := { moves := [.write 0x00C 0x00000002, .core], resp := none, fault := none } }

theorem witness_UsedSessionStaysUsed :
    usedDemo.hw.session = .used ∧ (∀ w k, usedDemo.hw.phase = .exec w k → decode w ≠ .ok .init) ∧
    Move.reset ∉ usedDemo.env.moves ∧
    (∀ w, Move.write 0x00C w ∈ usedDemo.env.moves → decode w ≠ .ok .init) := by
  refine ⟨rfl, fun w k h => ?_, by decide, fun w h => ?_⟩
  · cases h
  · simp only [usedDemo, List.mem_cons, Move.write.injEq, true_and, reduceCtorEq, List.not_mem_nil, or_false] at h
    subst h; decide

/-- The invariant of the idle demo core. -/
theorem idleDemo_inv : idleDemo.Inv := by
  apply State.Inv.ofIdle <;> simp [idleDemo, demoOf, idleHw, HwState.atReset, windowByte]
  decide

/-- The idle core with the TOY session in a given state. -/
def sessionDemo (x : Session) : State := demoOf { toyHw 0 0 with busy := false, phase := .idle, session := x } mute

theorem sessionDemo_inv {x : Session} (hx : x ≠ .none) : (sessionDemo x).Inv := by
  have hk : ∀ i, 16 ≤ i → windowByte (sessionDemo x).hw.skeyb i = 0 := by
    intro i hi
    by_cases h : i < 32
    · simp [sessionDemo, demoOf, toyHw, windowByte, h, show ¬ i < 16 by omega]
    · simp [windowByte, h]
  apply State.Inv.ofIdle
  case h2 => exact hk
  all_goals simp [sessionDemo, demoOf, toyHw, runningHw, idleHw, HwState.atReset, hx, toyCounter] <;> decide

/-- A core with a command word just issued. -/
def issuedDemo (s : State) (w : Word) : State := s.onHw fun h => h.issue w

/-- Each command in each session state it distinguishes, from a state that meets the invariant. -/
theorem witness_SessionTransitions :
    (∀ w : Word, (issuedDemo idleDemo w).Inv ∧ (issuedDemo idleDemo w).hw.phase = .exec w 0 ∧
      (issuedDemo idleDemo w).hw.session = .none) ∧
    (∀ w : Word, (issuedDemo (sessionDemo .fresh) w).Inv ∧
      (issuedDemo (sessionDemo .fresh) w).hw.phase = .exec w 0 ∧
      (issuedDemo (sessionDemo .fresh) w).hw.session = .fresh) ∧
    (∀ w : Word, (issuedDemo (sessionDemo .used) w).Inv ∧
      (issuedDemo (sessionDemo .used) w).hw.phase = .exec w 0 ∧ (issuedDemo (sessionDemo .used) w).hw.pend = none ∧
      (issuedDemo (sessionDemo .used) w).hw.session = .used) ∧
    (decode 0x01 = .ok .init ∧ decode 0x02 = .ok .encrypt ∧ decode 0x03 = .ok .decrypt) ∧
    (decode 0x10 ≠ .ok .init ∧ decode 0x10 ≠ .ok .encrypt ∧ decode 0x10 ≠ .ok .decrypt) ∧
    nextHolds (coreTurn (issuedDemo idleDemo 0x00)) (fun _ => true) = true ∧
    nextHolds (coreTurn (issuedDemo idleDemo 0x01)) (fun _ => true) = true ∧
    nextHolds (coreTurn (issuedDemo idleDemo 0x02)) (fun _ => true) = true ∧
    nextHolds (coreTurn (issuedDemo idleDemo 0x10)) (fun _ => true) = true :=
  ⟨fun w => ⟨idleDemo_inv.issue rfl w, rfl, rfl⟩, fun w => ⟨(sessionDemo_inv (by decide)).issue rfl w, rfl, rfl⟩,
    fun w => ⟨(sessionDemo_inv (by decide)).issue rfl w, rfl, rfl, rfl⟩, by decide, by decide, by decide, by decide,
    by decide, by decide⟩

/-- A step that sends a request, and one that takes a response. -/
theorem witness_RequestsCarryTheSessionKey :
    nextHolds (step (freshDemo 0x02 0 [] [])) (fun t => t.prov.seen.length == 1) = true ∧
    nextHolds (step (waitingDemo 0x02 0 [.ok])) (fun t => t.prov.answers == []) = true := by decide

theorem witness_CounterNeverCarries :
    (issuedDemo (sessionDemo .fresh) 0x02).Inv ∧ (issuedDemo (sessionDemo .fresh) 0x02).hw.runs .encrypt 0 ∧
    nextHolds (exec .encrypt (issuedDemo (sessionDemo .fresh) 0x02)) (fun _ => true) = true :=
  ⟨(sessionDemo_inv (by decide)).issue rfl _, Exists.intro 0x02 (And.intro rfl (by decide)), by decide⟩

/-- An INIT with a bad key length, an ENCRYPT without a session, and one in a USED session. -/
theorem witness_NoPartialResults :
    ((issuedDemo idleDemo 0x01).Inv ∧ (issuedDemo idleDemo 0x01).hw.runs .init 0 ∧
      nextHolds (exec .init (issuedDemo idleDemo 0x01)) (fun t => t.hw.phase == .idle && t.hw.errcode == 1) = true) ∧
    ((issuedDemo idleDemo 0x02).Inv ∧ (issuedDemo idleDemo 0x02).hw.runs .encrypt 0 ∧
      nextHolds (exec .encrypt (issuedDemo idleDemo 0x02)) (fun t => t.hw.phase == .idle && t.hw.errcode == 7) = true) ∧
    ((issuedDemo (sessionDemo .used) 0x03).Inv ∧ (issuedDemo (sessionDemo .used) 0x03).hw.runs .decrypt 0 ∧
      nextHolds (exec .decrypt (issuedDemo (sessionDemo .used) 0x03))
        (fun t => t.hw.phase == .idle && t.hw.errcode == 4) = true) ∧
    ((issuedDemo (sessionDemo .fresh) 0x03).Inv ∧ (issuedDemo (sessionDemo .fresh) 0x03).hw.runs .decrypt 0 ∧
      nextHolds (exec .decrypt (issuedDemo (sessionDemo .fresh) 0x03))
        (fun t => t.hw.phase == .idle && t.hw.errcode == 3) = true) :=
  ⟨⟨idleDemo_inv.issue rfl _, Exists.intro 0x01 (And.intro rfl (by decide)), by decide⟩,
    ⟨idleDemo_inv.issue rfl _, Exists.intro 0x02 (And.intro rfl (by decide)), by decide⟩,
    ⟨(sessionDemo_inv (by decide)).issue rfl _, Exists.intro 0x03 (And.intro rfl (by decide)), by decide⟩,
    ⟨(sessionDemo_inv (by decide)).issue rfl _, Exists.intro 0x03 (And.intro rfl (by decide)), by decide⟩⟩

theorem witness_FrameOfCommandsThatStoreNothing :
    ∀ i ∈ ([.init, .wXor, .wAnd, .wShr1, .wInc, .wEq, .gfMul, .ghash] : List Instr),
      ¬ sessionOperation i ∧ nextHolds (exec i idleDemo) (fun _ => true) = true := by decide

/-- A keystream block of ENCRYPT, which stores, and the tag decision of DECRYPT, which does not. -/
theorem witness_FrameOfSessionOperations :
    (nextHolds (exec .encrypt (waitingDemo 0x02 2 [.ok])) (fun _ => true) = true ∧
      (waitingDemo 0x02 2 [.ok]).storesTo .encrypt = (outBase, 16) ∧
      (waitingDemo 0x02 3 [.ok]).storesTo .encrypt = (outBase + 16, 4)) ∧
    (nextHolds (exec .decrypt (demoOf { toyHw 0x03 2 with dataLen := 32 } mute)) (fun _ => true) = true ∧
      (demoOf { toyHw 0x03 2 with dataLen := 32 } mute).storesTo .decrypt = (outBase, 0)) := by decide

theorem witness_ResChangesOnlyByItsCommands :
    nextHolds (step (operands 0x10 3 5)) (fun t => t.hw.res != (operands 0x10 3 5).hw.res) = true := by decide

theorem witness_EqChangesOnlyByWEq :
    nextHolds (step (operands 0x14 3 3)) (fun t => t.hw.eq != (operands 0x14 3 3).hw.eq) = true := by decide

/-- The controller's turn in IDLE and with a command. -/
theorem witness_CoreAndItsInputs_turns :
    nextHolds (coreTurn idleDemo) (fun _ => true) = true ∧
    nextHolds (coreTurn (runningDemo 0x10 0)) (fun _ => true) = true := by decide

/-- A GHASH of no bytes, the first byte of `AADBUF` differing. -/
theorem witness_CoreAndItsInputs :
    (issuedDemo idleDemo 0x21).Inv ∧ (issuedDemo idleDemo 0x21).hw.runs .ghash 0 ∧
    Memory.wf [(aadBase, 1)] ∧ (issuedDemo idleDemo 0x21).lengthsFit ∧
    (∀ j, j < (issuedDemo idleDemo 0x21).hw.aadLen.toNat →
      Memory.read [(aadBase, 1)] (aadBase + j) = Memory.read (issuedDemo idleDemo 0x21).hw.mem (aadBase + j)) ∧
    (∀ j, j < (issuedDemo idleDemo 0x21).hw.dataLen.toNat →
      Memory.read [(aadBase, 1)] (dataBase + j) = Memory.read (issuedDemo idleDemo 0x21).hw.mem (dataBase + j)) ∧
    (∀ a, outBase ≤ a → Memory.read [(aadBase, 1)] a = Memory.read (issuedDemo idleDemo 0x21).hw.mem a) := by
  refine ⟨idleDemo_inv.issue rfl _, Exists.intro 0x21 (And.intro rfl (by decide)), by decide,
    And.intro (by decide) (by decide), fun j h => absurd h (Nat.not_lt_zero j), fun j h => absurd h (Nat.not_lt_zero j),
    fun a h => ?_⟩
  have : aadBase ≠ a := by simp only [aadBase, outBase] at h ⊢; omega
  simp [Memory.read, this, issuedDemo, idleDemo, demoOf, idleHw, HwState.atReset]

/-- A misaligned, an unmapped and a gated address; the last words of the three buffers, which are accepted; a recorded fault. -/
theorem witness_BusErrors :
    idleDemo.busFault 0x002 (.misaligned 0x002) ∧ idleDemo.busFault 0x030 (.unmapped 0x030) ∧
    idleDemo.busFault 0x40000040 (.unmapped 0x40000040) ∧ (runningDemo 0x10 0).busFault 0x0AC (.gated 0x0AC) ∧
    idleDemo.accepts 0x000 ∧ idleDemo.accepts 0x0AC ∧ idleDemo.accepts 0x4000003C ∧ idleDemo.accepts 0x8000003C ∧
    idleDemo.accepts 0xC000004C := by
  unfold State.busFault State.accepts mappedOffset ungatedOffset registerOffset inBuffer
  refine ⟨?_, ?_, ?_, ?_, ?_, ?_, ?_, ?_, ?_⟩ <;> decide
theorem witness_BusErrors_recorded :
    ({ idleDemo with env := { idleDemo.env with fault := some (.misaligned 2) } } : State).env.fault =
      some (.misaligned 2) ∧
    nextHolds (step { idleDemo with env := { idleDemo.env with fault := some (.misaligned 2) } }) (fun _ => true) =
      true := ⟨rfl, by decide⟩

theorem witness_BusyGate :
    (runningDemo 0x10 0).hw.busy = true ∧
    mappedOffset (runningDemo 0x10 0).par 0x00C ∧ ¬ ungatedOffset 0x00C ∧
    mappedOffset (runningDemo 0x10 0).par 0x0AC ∧ ¬ ungatedOffset 0x0AC ∧
    mappedOffset (runningDemo 0x10 0).par 0xC000004C ∧ ¬ ungatedOffset 0xC000004C ∧
    mappedOffset (runningDemo 0x10 0).par 0x000 ∧ ungatedOffset 0x000 ∧
    mappedOffset (runningDemo 0x10 0).par 0x02C ∧ ungatedOffset 0x02C := by
  unfold mappedOffset ungatedOffset registerOffset inBuffer
  refine ⟨?_, ?_, ?_, ?_, ?_, ?_, ?_, ?_, ?_, ?_, ?_⟩ <;> decide

theorem witness_BufferWords :
    idleDemo.par.maxAad = 64 ∧ idleDemo.par.maxData = 64 ∧ idleDemo.hw.busy = false ∧ Memory.wf idleDemo.hw.mem ∧
    60 % 4 = 0 ∧ 60 < 64 := by decide

theorem witness_OutbufReads :
    idleDemo.hw.busy = false ∧ 0 % 4 = 0 ∧ 76 % 4 = 0 ∧ 76 < idleDemo.par.maxData + 16 ∧
    ¬ 80 < idleDemo.par.maxData + 16 := by decide
/-- An ENCRYPT that goes on, and one that is rejected. -/
theorem witness_OutbufReads_hidden :
    ((issuedDemo (sessionDemo .fresh) 0x02).Inv ∧ (issuedDemo (sessionDemo .fresh) 0x02).hw.runs .encrypt 0 ∧
      nextHolds (exec .encrypt (issuedDemo (sessionDemo .fresh) 0x02)) (fun t => t.hw.phase != .idle) = true) ∧
    ((issuedDemo (sessionDemo .used) 0x02).Inv ∧ (issuedDemo (sessionDemo .used) 0x02).hw.runs .encrypt 0 ∧
      nextHolds (exec .encrypt (issuedDemo (sessionDemo .used) 0x02)) (fun t => t.hw.errcode != 0) = true) :=
  ⟨⟨(sessionDemo_inv (by decide)).issue rfl _, Exists.intro 0x02 (And.intro rfl (by decide)), by decide⟩,
    ⟨(sessionDemo_inv (by decide)).issue rfl _, Exists.intro 0x02 (And.intro rfl (by decide)), by decide⟩⟩

/-- INIT, which completes, from a running state. -/
theorem witness_InterruptLevel :
    (runningDemo 0x01 0).hw.phase ≠ .idle ∧
    nextHolds (coreTurn (runningDemo 0x01 0)) (fun t => t.hw.phase == .idle) = true := by decide

/-- Output of two bytes, the third differing. -/
theorem witness_SecretsAreUnreadable :
    let s : State := demoOf { idleHw with outValid := true, outLen := 2 } mute
    (∀ x, x < outBase → Memory.read [(outBase + 2, 1)] x = Memory.read s.hw.mem x) ∧
    (∀ off, s.hw.outValid = true → off < s.hw.outLen.toNat →
      Memory.read [(outBase + 2, 1)] (outBase + off) = Memory.read s.hw.mem (outBase + off)) := by
  refine ⟨fun x h => ?_, fun off _ h => ?_⟩
  · simp [Memory.read, show outBase + 2 ≠ x by omega, demoOf, idleHw, HwState.atReset]
  · have h : off < 2 := h
    simp [Memory.read, show 2 ≠ off by omega, demoOf, idleHw, HwState.atReset]

theorem witness_ResetEvent :
    ({ waitingDemo 0x02 2 [] with env := { moves := [.reset], resp := none, fault := none } } : State).env.moves =
      .reset :: [] := rfl

theorem witness_NoSessionAfterReset :
    ({ sessionDemo .fresh with
      env := { moves := [.reset, .write 0x00C (encode .encrypt), .core], resp := none, fault := none } } : State).env.moves =
      [.reset, .write 0x00C (encode .encrypt), .core] ∧ Instr.encrypt ≠ .init := ⟨rfl, by decide⟩

/-- An idle core without a session, an ENCRYPT to come. -/
theorem witness_NoSessionAfterReset_later :
    let s : State := { idleDemo with
      env := { moves := [.write 0x00C 0x00000002, .core], resp := none, fault := none } }
    s.hw.session = .none ∧ (∀ w k, s.hw.phase = .exec w k → decode w ≠ .ok .init) ∧
    (∀ w, Move.write 0x00C w ∈ s.env.moves → decode w ≠ .ok .init) := by
  refine ⟨rfl, fun w k h => ?_, fun w h => ?_⟩
  · cases h
  · simp only [List.mem_cons, Move.write.injEq, true_and, reduceCtorEq, List.not_mem_nil, or_false] at h
    subst h; decide

/-- A step from a running state that meets the invariant. -/
theorem witness_StepKeepsInvariant :
    (issuedDemo (sessionDemo .fresh) 0x02).Inv ∧
    nextHolds (step (issuedDemo (sessionDemo .fresh) 0x02)) (fun t => t.hw.pend != none) = true :=
  ⟨(sessionDemo_inv (by decide)).issue rfl _, by decide⟩

end Sys2Proof.Machine
end

section
/-! SUPPORT. What a transaction at a register's offset does: the response of a read and the block after a write
(20_memory.md R71, R72, R76). -/

namespace Sys2Proof.Machine

/-! ### Where the registers are -/

theorem registerAt_aligned {a : Nat} {l : Loc} (h : registerAt a = some l) : a % 4 = 0 ∧ a < aadBase := by
  unfold registerAt at h
  split at h <;> injection h <;> decide

theorem registerAt_opa (j : Fin 4) : registerAt (0x080 + 4 * j.val) = some (.opa j) := by fin_cases j <;> rfl
theorem registerAt_opb (j : Fin 4) : registerAt (0x090 + 4 * j.val) = some (.opb j) := by fin_cases j <;> rfl
theorem registerAt_res (j : Fin 4) : registerAt (0x0A0 + 4 * j.val) = some (.res j) := by fin_cases j <;> rfl
theorem registerAt_key (j : Fin 8) : registerAt (0x040 + 4 * j.val) = some (.key j) := by fin_cases j <;> rfl
theorem registerAt_nonce (j : Fin 3) : registerAt (0x060 + 4 * j.val) = some (.nonce j) := by fin_cases j <;> rfl

/-- `COMMAND` is at 0x00C and nowhere else. -/
theorem registerAt_command {a : Nat} (h : registerAt a = some .command) : a = 0x00C := by
  unfold registerAt at h
  split at h <;> cases h
  rfl

theorem locate_command {p : Params} {a : Nat} (h : locate p a = some .command) : a = 0x00C := by
  unfold locate at h
  split at h
  · exact registerAt_command h
  · split at h
    · split at h <;> cases h
    · split at h <;> split at h <;> cases h

/-! ### Transactions at a register's offset -/

section Register

variable {s : State} {off : Nat} {l : Loc}

theorem locate_register (p : Params) (hl : registerAt off = some l) :
    (BitVec.ofNat 32 off).toNat = off ∧ locate p off = some l := by
  obtain ⟨-, hlt⟩ := registerAt_aligned hl
  refine ⟨?_, by rw [locate, if_pos hlt, hl]⟩
  rw [BitVec.toNat_ofNat]
  exact Nat.mod_eq_of_lt (by simp only [aadBase] at hlt; omega)

theorem busCheck_register (hl : registerAt off = some l) (hg : l.gated = true → s.hw.busy = false) :
    s.busCheck (BitVec.ofNat 32 off) = .ok l := by
  obtain ⟨hn, hloc⟩ := locate_register s.par hl
  exact busCheck_of (hn.symm ▸ (registerAt_aligned hl).1) (hn.symm ▸ hloc) hg

/-- What a host read of a register answers. -/
theorem readResp_register (hl : registerAt off = some l) (hg : l.gated = true → s.hw.busy = false) :
    s.readResp off = some (.data (s.readLoc l)) := by
  rw [State.readResp, busRead_of (busCheck_register hl hg), State.respond_resp]

/-- The block after a host write of a register. -/
theorem afterWrite_hw (hl : registerAt off = some l) (hg : l.gated = true → s.hw.busy = false) (d : Word) :
    (s.afterWrite off d).hw = s.hw.writeLoc l d := by
  rw [State.afterWrite, busWrite_of (busCheck_register hl hg), State.respond_hw, State.onHw_hw]

theorem afterWrite_resp (hl : registerAt off = some l) (hg : l.gated = true → s.hw.busy = false) (d : Word) :
    (s.afterWrite off d).env.resp = some .written := by
  rw [State.afterWrite, busWrite_of (busCheck_register hl hg), State.respond_resp]

/-- What a host read answers after a host write that leaves `BUSY` as it was. -/
theorem readResp_afterWrite {off' : Nat} {l' : Loc} {d : Word} (hl : registerAt off = some l)
    (hg : l.gated = true → s.hw.busy = false) (hb : (s.hw.writeLoc l d).busy = s.hw.busy)
    (hl' : registerAt off' = some l') (hg' : l'.gated = true → s.hw.busy = false) :
    (s.afterWrite off d).readResp off' = some (.data ((s.onHw fun h => h.writeLoc l d).readLoc l')) := by
  have hw : s.afterWrite off d = (s.onHw fun h => h.writeLoc l d).respond .written :=
    busWrite_of (busCheck_register hl hg) d
  rw [readResp_register hl' fun g => by rw [afterWrite_hw hl hg, hb, hg' g], hw]
  rfl

/-- A write action that does nothing leaves the block alone whether the write is accepted or not. -/
theorem afterWrite_ignored (hl : registerAt off = some l) {d : Word} (hw : ∀ h : HwState, h.writeLoc l d = h) :
    (s.afterWrite off d).hw = s.hw := by
  obtain ⟨hn, hloc⟩ := locate_register s.par hl
  rcases busWrite_cases s (BitVec.ofNat 32 off) d with ⟨f, -, e⟩ | ⟨l', hok, e⟩
  · rw [State.afterWrite, e, State.busError_hw]
  · obtain ⟨-, hloc', -⟩ := busCheck_ok hok
    rw [hn, hloc] at hloc'
    injection hloc' with hll
    rw [State.afterWrite, e, State.respond_hw, State.onHw_hw, ← hll, hw]

end Register

end Sys2Proof.Machine
end

section
/-! SUPPORT. The bits and bytes of the words on the bus (10_state.md R26 to R28; 20_memory.md R77, R78). -/

namespace Sys2Proof.Machine

theorem getLsbD_bitWord (b : Bool) (i j : Nat) (hi : i < 32) :
    (bitWord b i).getLsbD j = (decide (j = i) && b) := by
  by_cases h : j = i
  · subst h; simp [bitWord, hi]
  · simp only [bitWord, BitVec.getLsbD_shiftLeft, BitVec.getLsbD_setWidth, BitVec.getLsbD_ofBool, h, decide_false,
      Bool.false_and]
    by_cases h1 : j < i
    · simp [h1]
    · simp [show j - i ≠ 0 by omega]

theorem getLsbD_sessionCode_of_ge (x : Session) {i : Nat} (h : 2 ≤ i) : (sessionCode x).getLsbD i = false := by
  have lt : (sessionCode x).toNat < 2 ^ 2 := by cases x <;> decide
  exact Nat.testBit_lt_two_pow (Nat.lt_of_lt_of_le lt (Nat.pow_le_pow_right (by decide) h))

/-- Bit i of `STATUS` as a read returns it. -/
theorem getLsbD_statusWord (h : HwState) {i : Nat} (hi : i < 32) :
    h.statusWord.getLsbD i = (decide (i = 0) && h.busy || decide (i = 1) && h.done || decide (i = 2) && h.outValid ||
      decide (i = 3) && h.eq || !decide (i < 4) && (sessionCode h.session).getLsbD (i - 4) ||
      !decide (i < 8) && h.errcode.getLsbD (i - 8)) := by
  simp only [HwState.statusWord, BitVec.getLsbD_or, BitVec.getLsbD_shiftLeft, BitVec.getLsbD_setWidth]
  rw [getLsbD_bitWord _ _ _ (by omega), getLsbD_bitWord _ _ _ (by omega), getLsbD_bitWord _ _ _ (by omega),
    getLsbD_bitWord _ _ _ (by omega)]
  simp [hi, show i - 8 < 32 by omega]

/-- Above the session field there is only the error code. -/
theorem getLsbD_statusWord_of_ge (h : HwState) {i : Nat} (hi : i < 32) (hge : 6 ≤ i) :
    h.statusWord.getLsbD i = (!decide (i < 8) && h.errcode.getLsbD (i - 8)) := by
  rw [getLsbD_statusWord h hi, getLsbD_sessionCode_of_ge _ (by omega)]
  simp [show i ≠ 0 by omega, show i ≠ 1 by omega, show i ≠ 2 by omega, show i ≠ 3 by omega]

/-- A field of `STATUS`, bit by bit. -/
theorem statusWord_field {h : HwState} {a n : Nat} {v : BitVec n}
    (hv : ∀ i, i < n → h.statusWord.getLsbD (a + i) = v.getLsbD i) : h.statusWord.extractLsb' a n = v := by
  apply BitVec.eq_of_getLsbD_eq
  intro i hi
  rw [BitVec.getLsbD_extractLsb', hv i hi]
  simp [hi]

theorem statusWord_session (h : HwState) :
    h.statusWord.extractLsb' 4 2 = (sessionCode h.session).extractLsb' 0 2 :=
  statusWord_field fun i hi => by
    rw [getLsbD_statusWord h (by omega), BitVec.getLsbD_extractLsb']
    interval_cases i <;> simp

theorem statusWord_reserved (h : HwState) : h.statusWord.extractLsb' 6 2 = 0 :=
  statusWord_field fun i hi => by
    rw [getLsbD_statusWord_of_ge h (by omega) (by omega)]
    simp [show 6 + i < 8 by omega]

theorem statusWord_errcode (h : HwState) : h.statusWord.extractLsb' 8 8 = h.errcode :=
  statusWord_field fun i hi => by
    rw [getLsbD_statusWord_of_ge h (by omega) (by omega)]
    simp

theorem statusWord_reserved_high (h : HwState) : h.statusWord.extractLsb' 16 16 = 0 :=
  statusWord_field fun i hi => by
    rw [getLsbD_statusWord_of_ge h (by omega) (by omega), BitVec.getLsbD_of_ge h.errcode _ (by omega)]
    simp

/-- What `CTRL` reads back of a written word. -/
theorem bitWord_eq_and (d : Word) : bitWord (d.getLsbD 0) 0 = d &&& 0x00000001 := by
  apply BitVec.eq_of_getLsbD_eq
  intro i hi
  rw [getLsbD_bitWord _ _ _ (by omega)]
  cases i <;> simp

/-- What `CONFIG` reads back of a written word. -/
theorem lowBytes_eq_and (d : Word) : (0 : BitVec 16) ++ d.extractLsb' 8 8 ++ d.extractLsb' 0 8 = d &&& 0x0000FFFF := by
  apply BitVec.eq_of_getLsbD_eq
  intro i hi
  simp only [BitVec.getLsbD_append, BitVec.getLsbD_extractLsb', BitVec.getLsbD_and]
  interval_cases i <;> simp

/-- The bytes of the four words of a 128-bit value, the most significant first, are its bytes (R77). -/
theorem ser128_eq_words (v : U128) :
    ser128 v = (List.range 4).flatMap fun j =>
        (List.range 4).map fun b => (v.extractLsb' (96 - 32 * j) 32).extractLsb' (24 - 8 * b) 8 := by
  have sub : ∀ j b, j < 4 → b < 4 → (v.extractLsb' (96 - 32 * j) 32).extractLsb' (24 - 8 * b) 8 =
      v.extractLsb' (120 - 8 * (4 * j + b)) 8 := by
    intro j b hj hb
    apply BitVec.eq_of_getLsbD_eq
    intro i hi
    simp only [BitVec.getLsbD_extractLsb', hi, show 24 - 8 * b + i < 32 by omega, decide_true, Bool.true_and]
    congr 1; omega
  calc ser128 v
      = (List.range 4).flatMap fun j => (List.range 4).map fun b => v.extractLsb' (120 - 8 * (4 * j + b)) 8 := rfl
    _ = _ := List.flatMap_congr fun j hj => List.map_congr_left fun b hb =>
        (sub j b (List.mem_range.mp hj) (List.mem_range.mp hb)).symm

/-- A word put into a window is read back, and the other words are kept (R78). -/
theorem windowWord_setWindowWord {n : Nat} (v : Vector Byte n) (j k : Nat) (d : Word) (h : 4 * k + 3 < n) :
    windowWord (setWindowWord v j d) k = if k = j then d else windowWord v k := by
  have byte : ∀ b, b < 4 → windowByte (setWindowWord v j d) (4 * k + b) =
      if k = j then wordByte d b else windowByte v (4 * k + b) := fun b hb => by
    rw [windowByte_setWindowWord v j d _ (by omega), show (4 * k + b) / 4 = k by omega,
      show (4 * k + b) % 4 = b by omega]
  rw [windowWord, ← Nat.add_zero (4 * k), byte 0 (by omega), byte 1 (by omega), byte 2 (by omega), byte 3 (by omega)]
  split
  · exact wordOfBytes_wordByte d
  · rfl

end Sys2Proof.Machine
end

section
/-! SUPPORT. Which registers a host read shows, and which a host write reaches (10_state.md R44; 20_memory.md R81). -/

namespace Sys2Proof.Machine

/-! ### Two states that a host read cannot tell apart -/

/-- A read answers alike in two states with the same parameters, `BUSY` and outside if the addressed location reads alike. -/
theorem busRead_env_congr {s u : State} {a : Word} (hp : u.par = s.par) (hb : u.hw.busy = s.hw.busy) (he : u.env = s.env)
    (hr : ∀ l, s.busCheck a = .ok l → u.readLoc l = s.readLoc l) : (s.busRead a).env = (u.busRead a).env := by
  have hc : u.busCheck a = s.busCheck a := by simp only [State.busCheck, hp, hb]
  rcases busRead_cases s a with ⟨f, hf, e⟩ | ⟨l, hl, e⟩
  · rw [e, busRead_error (hc.trans hf)]
    simp only [State.busError, he]
  · rw [e, busRead_of (hc.trans hl), hr l hl]
    simp only [State.respond, he]

theorem readLoc_blankSecrets (s : State) (l : Loc) : s.blankSecrets.readLoc l = s.readLoc l := by cases l <;> rfl

/-- A buffer word depends on its four bytes only. -/
theorem memWord_congr {m m' : List Host.Cell} {a : Nat}
    (h : ∀ b, b < 4 → Memory.read m (a + b) = Memory.read m' (a + b)) :
    memWord m a = memWord m' a := by
  have h0 := h 0 (by omega)
  rw [Nat.add_zero] at h0
  simp only [memWord, h0, h 1 (by omega), h 2 (by omega), h 3 (by omega)]

theorem outByte_withMem {h : HwState} {m : List Host.Cell} {off : Nat}
    (hm : h.outValid = true → off < h.outLen.toNat → Memory.read m (outBase + off) = Memory.read h.mem (outBase + off)) :
    HwState.outByte { h with mem := m } off = h.outByte off := by
  simp only [HwState.outByte, Bool.and_eq_true, decide_eq_true_eq]
  split
  · next hv =>
    obtain ⟨hvalid, hoff⟩ := hv
    exact hm hvalid hoff
  · rfl

/-- What an accepted host read returns where the buffers are replaced by others with the same input bytes and the same released
output. -/
theorem readLoc_withMem {s : State} {m : List Host.Cell} {a : Word} {l : Loc} (hl : s.busCheck a = .ok l)
    (hin : ∀ x, x < outBase → Memory.read m x = Memory.read s.hw.mem x)
    (hout : ∀ off, s.hw.outValid = true → off < s.hw.outLen.toNat →
      Memory.read m (outBase + off) = Memory.read s.hw.mem (outBase + off)) :
    (s.onHw fun h => { h with mem := m }).readLoc l = s.readLoc l := by
  obtain ⟨hal, hloc, -⟩ := busCheck_ok hl
  have ha := maxAad_lt s.par
  have hd := maxData_lt s.par
  cases l with
  | aad off =>
    obtain ⟨-, ho⟩ := locate_aad hloc
    exact memWord_congr fun b hb => hin _ (by simp only [aadBase, outBase]; omega)
  | data off =>
    obtain ⟨-, ho⟩ := locate_data hloc
    exact memWord_congr fun b hb => hin _ (by simp only [dataBase, outBase]; omega)
  | out off =>
    have byte : ∀ o, HwState.outByte { s.hw with mem := m } o = s.hw.outByte o := fun o => outByte_withMem (hout o)
    simp only [State.readLoc, State.onHw_hw, byte]
  | _ => rfl

/-! ### What a host write reaches -/

theorem bytesOfWord_length (d : Word) : (bytesOfWord d).length = 4 := rfl

/-- An accepted host write leaves `OUTBUF` alone. -/
theorem read_writeLoc_outbuf {s : State} {a d : Word} {l : Loc} (hl : s.busCheck a = .ok l) {x : Nat} (hx : outBase ≤ x) :
    Memory.read (s.hw.writeLoc l d).mem x = Memory.read s.hw.mem x := by
  obtain ⟨-, hloc, -⟩ := busCheck_ok hl
  have ha := maxAad_lt s.par
  have hd := maxData_lt s.par
  simp only [outBase] at hx
  cases l with
  | aad off =>
    obtain ⟨-, ho⟩ := locate_aad hloc
    exact memWrite_read_outside _ _ _ (.inr (by rw [bytesOfWord_length, aadBase]; omega))
  | data off =>
    obtain ⟨-, ho⟩ := locate_data hloc
    exact memWrite_read_outside _ _ _ (.inr (by rw [bytesOfWord_length, dataBase]; omega))
  | status => rw [HwState.writeLoc_status, HwState.writeStatus_mem]
  | _ => simp only [HwState.writeLoc, HwState.writeCtrl, HwState.writeConfig, HwState.issue]

/-- Only the `COMMAND` location writes `PHASE`. -/
theorem writeLoc_phase_of_ne {h : HwState} {l : Loc} {d : Word} (hl : l ≠ .command) : (h.writeLoc l d).phase = h.phase := by
  cases l with
  | command => exact absurd rfl hl
  | status => rw [HwState.writeLoc_status, HwState.writeStatus_phase]
  | _ => simp only [HwState.writeLoc, HwState.writeCtrl, HwState.writeConfig, HwState.store]

end Sys2Proof.Machine
end

section
/-! SUPPORT. Which registers a command reads and writes: it ignores a change of the others, and keeps them. -/

namespace Sys2Proof.Machine

/-! ### Commands that ignore a register -/

/-- Every command has a next state. -/
theorem exec_total (i : Instr) (s : State) : ∃ t, exec i s = .next t := by
  cases i <;> exact ⟨_, rfl⟩

/-- Command `i` neither reads nor writes what `f` changes. -/
def Ignores (i : Instr) (f : HwState → HwState) : Prop :=
  ∀ s t : State, exec i s = .next t → exec i (s.onHw f) = .next (t.onHw f)

/-- A command whose step is the function `u` ignores what `u` commutes with. -/
theorem ignores_of_step {i : Instr} {f : HwState → HwState} {u : State → State} (hu : ∀ s, exec i s = .next (u s))
    (hf : ∀ s, u (s.onHw f) = (u s).onHw f) : Ignores i f := by
  intro s t h
  rw [hu] at h ⊢
  injection h with h
  rw [hf, h]

/-- What a command ignores it keeps. -/
theorem Ignores.keeps {i : Instr} {f : HwState → HwState} (hi : Ignores i f) {s t : State} (h : exec i s = .next t)
    (hs : f s.hw = s.hw) : t.hw = f t.hw := by
  have hst : s.onHw f = s := congrArg (fun x => ({ s with hw := x } : State)) hs
  have ht := hi s t h
  rw [hst, h] at ht
  injection ht with ht
  exact congrArg State.hw ht

/-- A command that ignores every overlay `o` of other values on some registers ignores a change of those registers alone. -/
theorem ignores_of_overlay {i : Instr} {f : HwState → HwState} {o : HwState → HwState → HwState} (ho : ∀ h, o h h = h)
    (hi : ∀ g, Ignores i fun h => o h g) (hf : ∀ h g, f (o h g) = o h (f g)) : Ignores i f := by
  intro s t h
  have hs : f s.hw = o s.hw (f s.hw) := by rw [← hf, ho]
  have ht : f t.hw = o t.hw (f s.hw) := by rw [← hf, ← (hi s.hw).keeps h (ho s.hw)]
  rw [State.onHw, State.onHw, hs, ht]
  exact hi (f s.hw) s t h

/-! ### ENCRYPT and DECRYPT -/

/-- `h` with the registers of `g` that ENCRYPT and DECRYPT neither read nor write. -/
def HwState.withRegisters (h g : HwState) : HwState :=
  { h with
    irqEn := g.irqEn, eq := g.eq, keyLen := g.keyLen, nonceLen := g.nonceLen, keyb := g.keyb, nonceb := g.nonceb,
    opa := g.opa, opb := g.opb, res := g.res }

/-- The same of the whole state. -/
def State.withRegisters (s : State) (g : HwState) : State := s.onHw fun h => h.withRegisters g

theorem ite_withRegisters {c : Prop} [Decidable c] {a b a' b' : State} {g : HwState} (ha : a' = a.withRegisters g)
    (hb : b' = b.withRegisters g) : (if c then a' else b') = (if c then a else b).withRegisters g := by
  split
  · exact ha
  · exact hb

theorem takeBlock_withRegisters (h g : HwState) (m : List Byte) (k : Nat) (v : U128) :
    (h.withRegisters g).takeBlock m k v = (h.takeBlock m k v).withRegisters g := by
  rcases k with _ | _ | k <;> rfl

/-- The receipt of a response, where the message length `n` does not depend on these registers. -/
theorem awaitResponse_withRegisters (s : State) (g : HwState) (r : Request) (n : HwState → Nat)
    (hn : ∀ h : HwState, n (h.withRegisters g) = n h) :
    (s.withRegisters g).awaitResponse r (fun k v h => h.takeBlock (h.data (n h)) k v) =
      (s.awaitResponse r fun k v h => h.takeBlock (h.data (n h)) k v).withRegisters g := by
  have hr : (s.withRegisters g).hw.received = s.hw.received.withRegisters g := rfl
  have hp : (s.withRegisters g).prov = s.prov := rfl
  unfold State.awaitResponse
  rw [hp]
  match s.prov.answers with
  | [] => rfl
  | .ok :: rest => simp only [hr, hn, takeBlock_withRegisters]; rfl
  | .err c :: rest => rfl

theorem storeTag_withRegisters (h g : HwState) : (h.withRegisters g).storeTag = h.storeTag.withRegisters g := by
  simp only [HwState.storeTag, HwState.store, HwState.withRegisters]

theorem encryptFinish_withRegisters (h g : HwState) :
    (h.withRegisters g).encryptFinish = h.encryptFinish.withRegisters g := by
  have hash : (h.withRegisters g).hashOutput = h.hashOutput.withRegisters g := rfl
  unfold HwState.encryptFinish
  rw [hash, storeTag_withRegisters]
  rfl

theorem encryptBegin_withRegisters (s : State) (g : HwState) :
    (s.withRegisters g).encryptBegin = s.encryptBegin.withRegisters g := by
  have hs : (s.withRegisters g).hw.session = s.hw.session := rfl
  unfold State.encryptBegin
  rw [hs]
  cases s.hw.session with
  | none => rfl
  | used => rfl
  | fresh => exact ite_withRegisters rfl rfl

theorem decryptBegin_withRegisters (s : State) (g : HwState) :
    (s.withRegisters g).decryptBegin = s.decryptBegin.withRegisters g := by
  have hs : (s.withRegisters g).hw.session = s.hw.session := rfl
  unfold State.decryptBegin
  rw [hs]
  cases s.hw.session with
  | none => rfl
  | used => rfl
  | fresh => exact ite_withRegisters rfl (ite_withRegisters rfl rfl)

theorem encryptAdvance_withRegisters (s : State) (g : HwState) (k : Nat) :
    (s.withRegisters g).encryptAdvance k = (s.encryptAdvance k).withRegisters g := by
  match k with
  | 0 => exact encryptBegin_withRegisters s g
  | 1 => rfl
  | i + 2 =>
    by_cases h : i < blockCount s.hw.dataLen.toNat
    · rw [encryptAdvance_request h, encryptAdvance_request (s := s.withRegisters g) h]
      rfl
    · have hle : blockCount s.hw.dataLen.toNat ≤ i := Nat.le_of_not_lt h
      rw [encryptAdvance_finish hle, encryptAdvance_finish (s := s.withRegisters g) hle]
      simp only [State.withRegisters, State.onHw, encryptFinish_withRegisters]

theorem decryptAdvance_withRegisters (s : State) (g : HwState) (k : Nat) :
    (s.withRegisters g).decryptAdvance k = (s.decryptAdvance k).withRegisters g := by
  match k with
  | 0 => exact decryptBegin_withRegisters s g
  | 1 => rfl
  | 2 => exact ite_withRegisters rfl rfl
  | i + 3 => exact ite_withRegisters rfl rfl

/-- ENCRYPT and DECRYPT ignore those registers. -/
theorem sessionOperation_ignores_registers {i : Instr} (hi : sessionOperation i) (g : HwState) :
    Ignores i fun h => h.withRegisters g := by
  have hp : ∀ s : State, (s.withRegisters g).hw.pend = s.hw.pend := fun _ => rfl
  rcases hi with rfl | rfl
  · refine ignores_of_step (fun _ => rfl) fun s => ?_
    rw [← State.withRegisters, ← State.withRegisters, hp]
    cases s.hw.pend with
    | none => exact encryptAdvance_withRegisters s g _
    | some r => exact awaitResponse_withRegisters s g r (fun h => h.dataLen.toNat) fun _ => rfl
  · refine ignores_of_step (fun _ => rfl) fun s => ?_
    rw [← State.withRegisters, ← State.withRegisters, hp]
    cases s.hw.pend with
    | none => exact decryptAdvance_withRegisters s g _
    | some r => exact awaitResponse_withRegisters s g r HwState.cipherLen fun _ => rfl

/-- ENCRYPT and DECRYPT leave those registers as they are. -/
theorem sessionOperation_keeps_registers {i : Instr} (hi : sessionOperation i) {s t : State} (h : exec i s = .next t) :
    t.hw = t.hw.withRegisters s.hw :=
  (sessionOperation_ignores_registers hi s.hw).keeps h rfl

/-- A change of those registers alone is ignored. -/
theorem sessionOperation_ignores {i : Instr} (hi : sessionOperation i) {f : HwState → HwState}
    (hf : ∀ h g : HwState, f (h.withRegisters g) = h.withRegisters (f g)) : Ignores i f :=
  ignores_of_overlay (fun _ => rfl) (sessionOperation_ignores_registers hi) hf

/-! ### GHASH and INIT -/

/-- GHASH ignores what its length check, its operands and its completion do not touch. -/
theorem ghash_ignores {f : HwState → HwState} (hl : ∀ s : State, (s.onHw f).lengthsTooLong = s.lengthsTooLong)
    (hr : ∀ h : HwState, (f h).raise .lengthError 0 = f (h.raise .lengthError 0))
    (hc : ∀ h : HwState, (f h).ghashCommand = f h.ghashCommand) : Ignores .ghash f := by
  refine ignores_of_step (fun _ => rfl) fun s => ?_
  rw [hl]
  split
  · simp only [State.onHw, hr]
  · simp only [State.onHw, hc]

/-- INIT ignores what its update of the block commutes with. -/
theorem init_ignores {f : HwState → HwState} (hf : ∀ h : HwState, (f h).initCommand = f h.initCommand) : Ignores .init f :=
  ignores_of_step (fun _ => rfl) fun s => congrArg (fun x => ({ s with hw := x } : State)) (hf s.hw)

theorem initCommand_withEq (h : HwState) (b : Bool) :
    HwState.initCommand { h with eq := b } = { h.initCommand with eq := b } := by
  unfold HwState.initCommand
  simp only
  split
  · split <;> rfl
  · rfl

/-- Every command but W_EQ ignores `STATUS.EQ`. -/
theorem ignores_eq {i : Instr} (hi : i ≠ .wEq) (b : Bool) : Ignores i fun h => { h with eq := b } := by
  cases i with
  | encrypt => exact sessionOperation_ignores (.inl rfl) fun _ _ => rfl
  | decrypt => exact sessionOperation_ignores (.inr rfl) fun _ _ => rfl
  | init => exact init_ignores fun h => initCommand_withEq h b
  | wEq => exact absurd rfl hi
  | ghash => exact ghash_ignores (fun _ => rfl) (fun _ => rfl) fun _ => rfl
  | wXor | wAnd | wShr1 | wInc | gfMul => exact ignores_of_step (fun _ => rfl) fun _ => rfl

/-- `h` with the key and nonce windows of `g`. -/
def HwState.withWindows (h g : HwState) : HwState := { h with keyb := g.keyb, nonceb := g.nonceb }

/-- Every command but INIT ignores the key and nonce windows. -/
theorem ignores_windows {i : Instr} (hi : i ≠ .init) (g : HwState) : Ignores i fun h => h.withWindows g := by
  cases i with
  | encrypt => exact sessionOperation_ignores (.inl rfl) fun _ _ => rfl
  | decrypt => exact sessionOperation_ignores (.inr rfl) fun _ _ => rfl
  | init => exact absurd rfl hi
  | ghash => exact ghash_ignores (fun _ => rfl) (fun _ => rfl) fun _ => rfl
  | wXor | wAnd | wShr1 | wInc | wEq | gfMul => exact ignores_of_step (fun _ => rfl) fun _ => rfl

/-! ### What INIT reads of the key window -/

theorem keyCopy_congr {h : HwState} {key : Vector Byte 32} {kl : Nat}
    (hk : ∀ x, x < kl → windowByte key x = windowByte h.keyb x) :
    HwState.keyCopy { h with keyb := key } kl = h.keyCopy kl := by
  unfold HwState.keyCopy
  congr 1
  funext i
  split
  · next hi => simpa [windowByte] using hk i hi
  · rfl

theorem newSession_withKeyb {h : HwState} {key : Vector Byte 32}
    (hk : ∀ x, x < h.keyLen.toNat → windowByte key x = windowByte h.keyb x) :
    HwState.newSession { h with keyb := key } = { h.newSession with keyb := key } := by
  simp only [HwState.newSession, keyCopy_congr hk]; rfl

theorem initCommand_withKeyb {h : HwState} {key : Vector Byte 32}
    (hk : legalKeyLen h.keyLen = true → ∀ x, x < h.keyLen.toNat → windowByte key x = windowByte h.keyb x) :
    HwState.initCommand { h with keyb := key } = { h.initCommand with keyb := key } := by
  unfold HwState.initCommand
  simp only
  split
  · next hl =>
    split
    · exact congrArg HwState.finish (newSession_withKeyb (h := h.hideOutput) (hk hl))
    · rfl
  · rfl

/-! ### What a command leaves of the operands, `RES` and `EQ` -/

section Kept

variable {i : Instr} {s t : State}

theorem initCommand_keeps (h : HwState) :
    h.initCommand.opa = h.opa ∧ h.initCommand.opb = h.opb ∧ h.initCommand.res = h.res := by
  rcases initCommand_cases h with ⟨-, -, e⟩ | ⟨-, -, e⟩ | ⟨-, e⟩ <;> rw [e] <;> exact ⟨rfl, rfl, rfl⟩

theorem exec_keeps_operands (h : exec i s = .next t) : t.hw.opa = s.hw.opa ∧ t.hw.opb = s.hw.opb := by
  cases i with
  | encrypt => rw [sessionOperation_keeps_registers (.inl rfl) h]; exact ⟨rfl, rfl⟩
  | decrypt => rw [sessionOperation_keeps_registers (.inr rfl) h]; exact ⟨rfl, rfl⟩
  | ghash => rcases execGhash_cases h with ⟨-, rfl⟩ | ⟨-, rfl⟩ <;> exact ⟨rfl, rfl⟩
  | init =>
    injection h with h; subst h
    obtain ⟨ha, hb, -⟩ := initCommand_keeps s.hw
    exact ⟨ha, hb⟩
  | wXor | wAnd | wShr1 | wInc | wEq | gfMul => injection h with h; subst h; exact ⟨rfl, rfl⟩

/-- A command step that changes `RES` is the successful completion of one of the six commands with a result. -/
theorem exec_changes_res (h : exec i s = .next t) (hne : t.hw.res ≠ s.hw.res) :
    i ∈ ([.wXor, .wAnd, .wShr1, .wInc, .gfMul, .ghash] : List Instr) ∧ t.hw.errcode = 0 ∧ t.hw.done = true := by
  cases i with
  | encrypt => exact absurd (congrArg HwState.res (sessionOperation_keeps_registers (.inl rfl) h)) hne
  | decrypt => exact absurd (congrArg HwState.res (sessionOperation_keeps_registers (.inr rfl) h)) hne
  | init =>
    injection h with h; subst h
    obtain ⟨-, -, hr⟩ := initCommand_keeps s.hw
    exact absurd hr hne
  | wEq => injection h with h; subst h; exact absurd rfl hne
  | ghash =>
    rcases execGhash_cases h with ⟨-, rfl⟩ | ⟨-, rfl⟩
    · exact absurd rfl hne
    · exact ⟨by decide, rfl, rfl⟩
  | wXor | wAnd | wShr1 | wInc | gfMul => injection h with h; subst h; exact ⟨by decide, rfl, rfl⟩

/-- A command step that changes `STATUS.EQ` is the completion of W_EQ. -/
theorem exec_changes_eq (h : exec i s = .next t) (hne : t.hw.eq ≠ s.hw.eq) :
    i = .wEq ∧ t.hw.errcode = 0 ∧ t.hw.done = true := by
  by_cases hi : i = .wEq
  · subst hi
    injection h with h; subst h
    exact ⟨rfl, rfl, rfl⟩
  · exact absurd (congrArg HwState.eq ((ignores_eq hi s.hw.eq).keeps h rfl)) hne

end Kept

/-! ### What a step changes -/

/-- A step that changes an item which neither host writes nor illegal words reach is the reset event or a command's step. -/
theorem step_changes {α : Type} {item : HwState → α} (hw : ∀ h l d, item (HwState.writeLoc h l d) = item h)
    (hi : ∀ h, item (HwState.raise h .illegalCommand 0) = item h) {s t : State} (h : step s = .next t)
    (hne : item t.hw ≠ item s.hw) :
    (∃ ms, s.env.moves = .reset :: ms) ∨ ∃ i k, s.hw.runs i k ∧ exec i s.popMove = .next t := by
  rcases step_cases h with ⟨a, ms, -, rfl⟩ | ⟨a, d, ms, -, rfl⟩ | ⟨ms, hm, -⟩ | ⟨-, hc⟩
  · rcases busRead_cases s.popMove a with ⟨f, -, e⟩ | ⟨l, -, e⟩ <;> rw [e] at hne <;> exact absurd rfl hne
  · rcases busWrite_cases s.popMove a d with ⟨f, -, e⟩ | ⟨l, -, e⟩ <;> rw [e] at hne
    · exact absurd rfl hne
    · exact absurd (hw s.hw l d) hne
  · exact .inl ⟨ms, hm⟩
  · rcases coreTurn_cases hc with ⟨-, rfl⟩ | ⟨w, k, e, -, -, rfl⟩ | ⟨w, k, i, hp, hd, hx⟩
    · exact absurd rfl hne
    · exact absurd (hi s.hw) hne
    · exact .inr ⟨i, k, runs_of hp hd, hx⟩

theorem coreTurn_keeps_operands {s t : State} (h : coreTurn s = .next t) : t.hw.opa = s.hw.opa ∧ t.hw.opb = s.hw.opb := by
  rcases coreTurn_cases h with ⟨-, rfl⟩ | ⟨w, k, e, -, -, rfl⟩ | ⟨w, k, i, -, -, hx⟩
  · exact ⟨rfl, rfl⟩
  · exact ⟨rfl, rfl⟩
  · exact exec_keeps_operands hx

end Sys2Proof.Machine
end

section
/-! The statements on the registers of the block (10_state.md). -/

namespace Sys2Proof.Machine

/-- Settles O40: only a command step or reset changes `RES`, and `RES` ignores host writes. -/
theorem resChangesOnlyByItsCommands : Obligations.ResChangesOnlyByItsCommands := by
  refine ⟨fun s t h hne => ?_, fun s j d => afterWrite_ignored (registerAt_res j) fun _ => rfl⟩
  rcases step_changes HwState.writeLoc_res (fun _ => rfl) h hne with hm | ⟨i, k, hr, hx⟩
  · exact .inl hm
  · obtain ⟨hi, he, hd⟩ := exec_changes_res hx hne
    exact .inr ⟨i, k, hi, hr, he, hd⟩

/-- Settles O41: only W_EQ's step or reset changes `EQ`, and the other commands ignore it. -/
theorem eqChangesOnlyByWEq : Obligations.EqChangesOnlyByWEq := by
  refine ⟨fun s t h hne => ?_, fun i s b => ?_⟩
  · rcases step_changes HwState.writeLoc_eq (fun _ => rfl) h hne with hm | ⟨i, k, hr, hx⟩
    · exact .inl hm
    · obtain ⟨rfl, he, hd⟩ := exec_changes_eq hx hne
      exact .inr ⟨k, hr, he, hd⟩
  · obtain ⟨t, ht⟩ := exec_total i s
    refine ⟨t, ht, ?_⟩
    split
    · next hi => subst hi; exact ht
    · next hi => exact ignores_eq hi b s t ht

/-- Settles O45: word by word through the register map; no step of the controller writes the operands. -/
theorem operandRegisters : Obligations.OperandRegisters := by
  refine ⟨fun s j k d hb => ?_, ser128_eq_words, fun s t h => coreTurn_keeps_operands h, rfl, rfl⟩
  have gate : ∀ {l : Loc}, l.gated = true → s.hw.busy = false := fun _ => hb
  refine ⟨?_, ?_, ?_, ?_, readResp_register (registerAt_opa j) gate, readResp_register (registerAt_opb j) gate,
    readResp_register (registerAt_res j) gate⟩
  · rw [readResp_afterWrite (registerAt_opa j) gate rfl (registerAt_opa k) gate]
    exact congrArg (fun w => some (Resp.data w)) (quadWord_setQuadWord s.hw.opa j k d)
  · rw [afterWrite_hw (registerAt_opa j) gate]; rfl
  · rw [readResp_afterWrite (registerAt_opb j) gate rfl (registerAt_opb k) gate]
    exact congrArg (fun w => some (Resp.data w)) (quadWord_setQuadWord s.hw.opb j k d)
  · rw [afterWrite_hw (registerAt_opb j) gate]; rfl

/-- Settles O46: the windows byte by byte; INIT copies the key's first `KEY_LEN` bytes, and the other commands ignore both
windows. -/
theorem keyAndNonceWindows : Obligations.KeyAndNonceWindows := by
  refine ⟨fun s j d hb => ?_, fun i s key hk => ?_, fun s j k d hb => ?_, fun i s nonce hi => ?_⟩
  · have gate : (Loc.key j).gated = true → s.hw.busy = false := fun _ => hb
    refine ⟨readResp_register (registerAt_key j) gate, fun x hx => ?_⟩
    rw [afterWrite_hw (registerAt_key j) gate]
    exact windowByte_setWindowWord s.hw.keyb j.val d x hx
  · obtain ⟨t, ht⟩ := exec_total i s
    refine ⟨t, ht, ?_⟩
    by_cases hi : i = .init
    · subst hi
      injection ht with ht; subst ht
      have hc := initCommand_withKeyb (h := s.hw) (key := key) fun hl => hk rfl ((legalKeyLen_iff _).mp hl)
      exact congrArg (fun x => Host.Outcome.next ({ s with hw := x } : State)) hc
    · exact ignores_of_overlay (fun _ => rfl) (ignores_windows hi) (fun _ _ => rfl) s t ht
  · have gate : ∀ {j : Fin 3}, (Loc.nonce j).gated = true → s.hw.busy = false := fun _ => hb
    refine ⟨?_, fun x hx => ?_⟩
    · have hw := windowWord_setWindowWord s.hw.nonceb j.val k.val d (by omega)
      rw [readResp_afterWrite (registerAt_nonce j) gate rfl (registerAt_nonce k) gate,
        readResp_register (registerAt_nonce k) gate]
      refine (congrArg (fun w => some (Resp.data w)) hw).trans ?_
      simp only [← Fin.ext_iff]
      split <;> rfl
    · rw [afterWrite_hw (registerAt_nonce j) gate]
      exact windowByte_setWindowWord s.hw.nonceb j.val d x hx
  · obtain ⟨t, ht⟩ := exec_total i s
    exact ⟨t, ht, ignores_of_overlay (fun _ => rfl) (ignores_windows hi) (fun _ _ => rfl) s t ht⟩

/-- Settles O49: the fields are bits of the word that a read returns; the write is W1C of `DONE`. -/
theorem statusRegister : Obligations.StatusRegister := by
  intro s d
  refine ⟨⟨s.hw.statusWord, readResp_register (l := .status) rfl nofun, ?_, ?_, ?_, ?_,
    (statusWord_session s.hw).trans ?_, statusWord_reserved s.hw, statusWord_errcode s.hw,
    statusWord_reserved_high s.hw⟩, ?_, afterWrite_resp (l := .status) rfl nofun d⟩
  · rw [getLsbD_statusWord _ (by decide)]; simp
  · rw [getLsbD_statusWord _ (by decide)]; simp
  · rw [getLsbD_statusWord _ (by decide)]; simp
  · rw [getLsbD_statusWord _ (by decide)]; simp
  · cases s.hw.session <;> rfl
  · rw [afterWrite_hw (l := .status) rfl nofun, HwState.writeLoc_status, HwState.writeStatus]; rfl

/-- Settles O50: each register at its location; `CTRL` and `CONFIG` read back without their reserved bits. -/
theorem controlRegisters : Obligations.ControlRegisters := by
  refine ⟨fun s d => ⟨afterWrite_hw (l := .ctrl) rfl nofun d, ?_⟩, fun s d hb => ?_, rfl, rfl, rfl⟩
  · rw [readResp_afterWrite (l := .ctrl) (l' := .ctrl) rfl nofun rfl rfl nofun]
    exact congrArg (fun w => some (Resp.data w)) (bitWord_eq_and d)
  · have gate : ∀ {l : Loc}, l.gated = true → s.hw.busy = false := fun _ => hb
    refine ⟨afterWrite_hw (l := .config) rfl gate d, ?_, afterWrite_hw (l := .aadLen) rfl gate d,
      readResp_afterWrite (l := .aadLen) (l' := .aadLen) rfl gate rfl rfl gate,
      afterWrite_hw (l := .dataLen) rfl gate d,
      readResp_afterWrite (l := .dataLen) (l' := .dataLen) rfl gate rfl rfl gate,
      afterWrite_hw (l := .errDetail) rfl gate d, readResp_register (l := .errDetail) rfl gate,
      afterWrite_hw (l := .outLen) rfl gate d, readResp_register (l := .outLen) rfl gate⟩
    rw [readResp_afterWrite (l := .config) (l' := .config) rfl gate rfl rfl gate]
    exact congrArg (fun w => some (Resp.data w)) (lowBytes_eq_and d)

/-- Settles O51: the four locations are not gated, and their write actions do nothing. -/
theorem constantRegisters : Obligations.ConstantRegisters := by
  intro s d
  have hm := maxAad_lt s.par
  have hd := maxData_lt s.par
  have ignored : ∀ {a l}, registerAt a = some l → l.gated = false → (∀ h : HwState, h.writeLoc l d = h) →
      (s.afterWrite a d).hw = s.hw ∧ (s.afterWrite a d).env.resp = some .written := fun hl hg hw =>
    ⟨afterWrite_ignored hl hw, afterWrite_resp hl (by simp [hg]) d⟩
  refine ⟨readResp_register (l := .id) rfl nofun, ⟨_, readResp_register (l := .maxAad) rfl nofun, ?_⟩,
    ⟨_, readResp_register (l := .maxData) rfl nofun, ?_⟩, ?_, ?_⟩
  · exact Nat.mod_eq_of_lt (by omega)
  · exact Nat.mod_eq_of_lt (by omega)
  · rw [readResp_register (l := .hwcfg) rfl nofun, State.readLoc, hwcfgWord]
    cases s.par.multImpl <;> rfl
  · intro a ha
    simp only [List.mem_cons, List.not_mem_nil, or_false] at ha
    rcases ha with rfl | rfl | rfl | rfl
    · exact ignored (l := .id) rfl rfl fun _ => rfl
    · exact ignored (l := .maxAad) rfl rfl fun _ => rfl
    · exact ignored (l := .maxData) rfl rfl fun _ => rfl
    · exact ignored (l := .hwcfg) rfl rfl fun _ => rfl

/-- Settles O53: the two states' locations read alike at every accepted address. -/
theorem secretsAreUnreadable : Obligations.SecretsAreUnreadable :=
  ⟨fun s _ => busRead_env_congr rfl rfl rfl fun l _ => readLoc_blankSecrets s l,
    fun _ _ _ hin hout => busRead_env_congr rfl rfl rfl fun _ hl => readLoc_withMem hl hin hout⟩

/-- Settles O54: by what each location's write action leaves; only `COMMAND`'s writes `PHASE`. -/
theorem hostCannotWriteInternalState : Obligations.HostCannotWriteInternalState := by
  intro s a d
  rcases busWrite_cases s a d with ⟨f, -, e⟩ | ⟨l, hl, e⟩
  · rw [e]
    exact ⟨rfl, rfl, rfl, rfl, rfl, rfl, rfl, rfl, rfl, rfl, rfl, rfl, fun _ _ => rfl, fun h => absurd rfl h, rfl, rfl⟩
  · have command : (s.hw.writeLoc l d).phase ≠ s.hw.phase → a = 0x00C ∧ s.hw.busy = false := fun hp => by
      have hlc : l = .command := by_contra fun hne => hp (writeLoc_phase_of_ne hne)
      obtain ⟨-, hloc, hg⟩ := busCheck_ok hl
      subst hlc
      exact ⟨BitVec.eq_of_toNat_eq (locate_command hloc), hg rfl⟩
    rw [e]
    simp only [State.respond_hw, State.onHw_hw, HwState.writeLoc_session, HwState.writeLoc_skeyb, HwState.writeLoc_skl,
      HwState.writeLoc_ctr, HwState.writeLoc_hsub, HwState.writeLoc_eky0, HwState.writeLoc_gacc, HwState.writeLoc_pend,
      HwState.writeLoc_res, HwState.writeLoc_eq, HwState.writeLoc_outValid, HwState.writeLoc_outLen, true_and]
    exact ⟨fun _ hx => read_writeLoc_outbuf hl hx, command, rfl, rfl⟩

end Sys2Proof.Machine
end

section
/-! SUPPORT. The controller and its inputs: it keeps the host-written registers and the input buffers, and it reads no byte of
the input buffers past the message lengths (10_state.md, section 1; 20_memory.md R82). -/

namespace Sys2Proof.Machine

/-! ### The inputs are kept -/

/-- The host-written registers. -/
def HwState.inputs (h : HwState) : Bool × Byte × Byte × Word × Word × Vector Byte 32 × Vector Byte 12 × U128 × U128 :=
  (h.irqEn, h.keyLen, h.nonceLen, h.aadLen, h.dataLen, h.keyb, h.nonceb, h.opa, h.opb)

/-- `g` has the host-written registers and the bytes of `AADBUF` and `DATABUF` that `h` has. -/
structure HwState.KeepsInputs (h g : HwState) : Prop where
  registers : g.inputs = h.inputs
  buffers   : ∀ a, a < outBase → Memory.read g.mem a = Memory.read h.mem a

theorem takeBlock_keepsInputs (h : HwState) (msg : List Byte) (k : Nat) (v : U128) :
    h.KeepsInputs (h.received.takeBlock msg k v) := by
  rcases k with _ | _ | k
  · exact ⟨rfl, fun _ _ => rfl⟩
  · exact ⟨rfl, fun _ _ => rfl⟩
  · exact ⟨rfl, fun a ha => memWrite_read_outside _ _ _ (.inl (by omega))⟩

theorem encryptFinish_keepsInputs (h : HwState) : h.KeepsInputs h.encryptFinish where
  registers := by simp [HwState.inputs]
  buffers a ha := by
    rw [HwState.encryptFinish_mem]
    exact memWrite_read_outside _ _ _ (.inl (by omega))

theorem initCommand_keepsInputs (h : HwState) : h.KeepsInputs h.initCommand := by
  rcases initCommand_cases h with ⟨-, -, e⟩ | ⟨-, -, e⟩ | ⟨-, e⟩ <;> rw [e] <;> exact ⟨rfl, fun _ _ => rfl⟩

section Kept

variable {i : Instr} {s t : State}

theorem encrypt_keepsInputs (h : exec .encrypt s = .next t) : s.hw.KeepsInputs t.hw := by
  rcases execEncrypt_cases h with ⟨r, -, -, rfl⟩ | ⟨r, rest, -, -, rfl⟩ | ⟨r, c, rest, -, -, rfl⟩ | ⟨-, -, hb⟩ |
    ⟨-, -, rfl⟩ | ⟨j, -, -, -, rfl⟩ | ⟨j, -, -, -, rfl⟩
  · exact ⟨rfl, fun _ _ => rfl⟩
  · exact takeBlock_keepsInputs ..
  · exact ⟨rfl, fun _ _ => rfl⟩
  · rcases hb with ⟨-, rfl⟩ | ⟨-, rfl⟩ | ⟨-, -, rfl⟩ | ⟨-, -, rfl⟩ <;> exact ⟨rfl, fun _ _ => rfl⟩
  · exact ⟨rfl, fun _ _ => rfl⟩
  · exact ⟨rfl, fun _ _ => rfl⟩
  · exact encryptFinish_keepsInputs s.hw

theorem decrypt_keepsInputs (h : exec .decrypt s = .next t) : s.hw.KeepsInputs t.hw := by
  rcases execDecrypt_cases h with ⟨r, -, -, rfl⟩ | ⟨r, rest, -, -, rfl⟩ | ⟨r, c, rest, -, -, rfl⟩ | ⟨-, -, hb⟩ |
    ⟨-, -, rfl⟩ | ⟨-, -, hv⟩ | ⟨j, -, -, -, rfl⟩ | ⟨j, -, -, -, rfl⟩
  · exact ⟨rfl, fun _ _ => rfl⟩
  · exact takeBlock_keepsInputs ..
  · exact ⟨rfl, fun _ _ => rfl⟩
  · rcases hb with ⟨-, rfl⟩ | ⟨-, rfl⟩ | ⟨-, -, rfl⟩ | ⟨-, -, -, rfl⟩ | ⟨-, -, -, rfl⟩ <;> exact ⟨rfl, fun _ _ => rfl⟩
  · exact ⟨rfl, fun _ _ => rfl⟩
  · rcases hv with ⟨-, rfl⟩ | ⟨-, rfl⟩
    · exact ⟨by simp [HwState.inputs], by simp⟩
    · exact ⟨by simp [HwState.inputs], by simp⟩
  · exact ⟨rfl, fun _ _ => rfl⟩
  · exact ⟨rfl, fun _ _ => rfl⟩

/-- No command writes its inputs. -/
theorem exec_keepsInputs (h : exec i s = .next t) : s.hw.KeepsInputs t.hw := by
  cases i with
  | encrypt => exact encrypt_keepsInputs h
  | decrypt => exact decrypt_keepsInputs h
  | ghash =>
    rcases execGhash_cases h with ⟨-, rfl⟩ | ⟨-, rfl⟩
    · exact ⟨rfl, fun _ _ => rfl⟩
    · exact ⟨by simp [HwState.inputs], fun _ _ => by rw [State.onHw_hw, HwState.ghashCommand_mem]⟩
  | init => injection h with h; subst h; exact initCommand_keepsInputs s.hw
  | wXor | wAnd | wShr1 | wInc | wEq | gfMul => injection h with h; subst h; exact ⟨rfl, fun _ _ => rfl⟩

theorem coreTurn_keepsInputs (h : coreTurn s = .next t) : s.hw.KeepsInputs t.hw := by
  rcases coreTurn_cases h with ⟨-, rfl⟩ | ⟨w, k, e, -, -, rfl⟩ | ⟨w, k, i, -, -, hx⟩
  · exact ⟨rfl, fun _ _ => rfl⟩
  · exact ⟨rfl, fun _ _ => rfl⟩
  · exact exec_keepsInputs hx

end Kept

/-! ### The bytes that a command may read -/

/-- `h` with the buffers `m`. -/
def HwState.withMem (h : HwState) (m : List Host.Cell) : HwState := { h with mem := m }

/-- The same of the whole state. -/
def State.withMem (s : State) (m : List Host.Cell) : State := s.onHw fun h => h.withMem m

/-- `m` has the bytes of `AADBUF` and `DATABUF` below the lengths, and all of `OUTBUF`, that `h` has. -/
structure HwState.AgreesOnMessage (h : HwState) (m : List Host.Cell) : Prop where
  aad  : ∀ j, j < h.aadLen.toNat → Memory.read m (aadBase + j) = Memory.read h.mem (aadBase + j)
  data : ∀ j, j < h.dataLen.toNat → Memory.read m (dataBase + j) = Memory.read h.mem (dataBase + j)
  out  : ∀ a, outBase ≤ a → Memory.read m a = Memory.read h.mem a

theorem cipherLen_le (h : HwState) : h.cipherLen ≤ h.dataLen.toNat := Nat.sub_le _ _

theorem storeTag_withMem (h : HwState) (m : List Host.Cell) : (h.withMem m).storeTag =
    h.storeTag.withMem (memWrite m (outBase + h.dataLen.toNat) (ser128 (h.gacc ^^^ h.eky0))) := by
  unfold HwState.storeTag
  rfl

section Operands

variable {h : HwState} {m : List Host.Cell} (A : h.AgreesOnMessage m)

include A

theorem aad_withMem : (h.withMem m).aad = h.aad := memRead_congr A.aad

theorem data_withMem {n : Nat} (hn : n ≤ h.dataLen.toNat) : (h.withMem m).data n = h.data n :=
  memRead_congr fun j hj => A.data j (by omega)

theorem outBytes_withMem (n : Nat) : (h.withMem m).outBytes n = h.outBytes n :=
  memRead_congr fun j _ => A.out (outBase + j) (by omega)

/-- The given tag lies below `DATA_LEN` where the data holds one. -/
theorem givenTag_withMem (h16 : 16 ≤ h.dataLen.toNat) : (h.withMem m).givenTag h.cipherLen = h.givenTag h.cipherLen :=
  congrArg be128 (memRead_congr fun j hj => by
    rw [Nat.add_assoc]
    exact A.data _ (by simp only [HwState.cipherLen]; omega))

theorem hashOutput_withMem : (h.withMem m).hashOutput = h.hashOutput.withMem m := by
  have e : (h.withMem m).dataLen = h.dataLen := rfl
  unfold HwState.hashOutput
  rw [aad_withMem A, e, outBytes_withMem A]
  rfl

theorem hashForTag_withMem : (h.withMem m).hashForTag = h.hashForTag.withMem m := by
  have e : (h.withMem m).cipherLen = h.cipherLen := rfl
  unfold HwState.hashForTag
  rw [aad_withMem A, e, data_withMem A (cipherLen_le h)]
  rfl

theorem hashData_withMem : (h.withMem m).hashData = h.hashData.withMem m := by
  have e : (h.withMem m).dataLen = h.dataLen := rfl
  unfold HwState.hashData
  rw [aad_withMem A, e, data_withMem A (Nat.le_refl _)]
  rfl

theorem ghashCommand_withMem : (h.withMem m).ghashCommand = h.ghashCommand.withMem m := by
  unfold HwState.ghashCommand
  rw [hashData_withMem A]
  rfl

theorem tagDiff_withMem (h16 : 16 ≤ h.dataLen.toNat) : (h.withMem m).tagDiff = h.tagDiff :=
  congrArg (ctDiff (h.gacc ^^^ h.eky0)) (givenTag_withMem A h16)

theorem encryptFinish_withMem : (h.withMem m).encryptFinish =
    h.encryptFinish.withMem
      (memWrite m (outBase + h.dataLen.toNat) (ser128 (ghash h.hsub h.aad (h.outBytes h.dataLen.toNat) ^^^ h.eky0))) := by
  have e : (h.withMem m).dataLen = h.dataLen := rfl
  unfold HwState.encryptFinish
  rw [hashOutput_withMem A, storeTag_withMem, HwState.hashOutput_gacc, HwState.hashOutput_dataLen, HwState.hashOutput_eky0, e]
  simp only [HwState.withMem, HwState.showOutput, HwState.finish, HwState.complete]

end Operands

/-- INIT reads no buffer. -/
theorem initCommand_withMem (h : HwState) (m : List Host.Cell) :
    (h.withMem m).initCommand = h.initCommand.withMem m := by
  unfold HwState.initCommand HwState.withMem
  simp only
  split
  · split <;> rfl
  · rfl

theorem initCommand_mem (h : HwState) : h.initCommand.mem = h.mem := by
  rcases initCommand_cases h with ⟨-, -, e⟩ | ⟨-, -, e⟩ | ⟨-, e⟩ <;> rw [e] <;> rfl

/-- An update of the block with other buffers, lifted to the whole state. -/
theorem onHw_withMem {s : State} {m m' : List Host.Cell} {f : HwState → HwState}
    (h : f (s.hw.withMem m) = (f s.hw).withMem m') : (s.withMem m).onHw f = (s.onHw f).withMem m' :=
  congrArg (fun x => ({ s with hw := x } : State)) h

/-! ### Two states that differ in the input buffers only -/

/-- `v` is `t` but for bytes of the input buffers. -/
structure State.SameButInputBytes (t v : State) : Prop where
  block : v = t.withMem v.hw.mem
  out   : ∀ a, outBase ≤ a → Memory.read v.hw.mem a = Memory.read t.hw.mem a

theorem State.SameButInputBytes.withMem {t : State} {m : List Host.Cell}
    (h : ∀ a, outBase ≤ a → Memory.read m a = Memory.read t.hw.mem a) : t.SameButInputBytes (t.withMem m) := ⟨rfl, h⟩

theorem State.SameButInputBytes.ite {c : Prop} [Decidable c] {t v t' v' : State} (h : t.SameButInputBytes v)
    (h' : t'.SameButInputBytes v') : (if c then t else t').SameButInputBytes (if c then v else v') := by
  split
  · exact h
  · exact h'

/-- The same store into two buffers: a byte that was the same is so again. -/
theorem memWrite_read_congr {m m' : List Host.Cell} (h : Memory.wf m) (h' : Memory.wf m') (x : Nat) (bs : List Byte)
    {a : Nat} (ha : Memory.read m a = Memory.read m' a) :
    Memory.read (memWrite m x bs) a = Memory.read (memWrite m' x bs) a := by
  rw [memWrite_read h, memWrite_read h', ha]

section Steps

variable {s : State} {m : List Host.Cell} (A : s.hw.AgreesOnMessage m)

include A

/-- The receipt of a response, where the message length `n` does not depend on the buffers. -/
theorem awaitResponse_sameButInputBytes (hs : Memory.wf s.hw.mem) (hm : Memory.wf m) (r : Request) (n : HwState → Nat)
    (hn : ∀ h : HwState, n (h.withMem m) = n h) (hle : ∀ h : HwState, n h ≤ h.dataLen.toNat) :
    (s.awaitResponse r fun k v h => h.takeBlock (h.data (n h)) k v).SameButInputBytes
      ((s.withMem m).awaitResponse r fun k v h => h.takeBlock (h.data (n h)) k v) := by
  have hr : (s.withMem m).hw.received = s.hw.received.withMem m := rfl
  have hd : (s.hw.received.withMem m).data (n s.hw.received) = s.hw.received.data (n s.hw.received) :=
    data_withMem ⟨A.aad, A.data, A.out⟩ (hle _)
  have hp : (s.withMem m).prov = s.prov := rfl
  have hk : (s.withMem m).hw.phase = s.hw.phase := rfl
  unfold State.awaitResponse
  rw [hp, hk]
  match s.prov.answers with
  | [] => exact ⟨rfl, A.out⟩
  | .err c :: rest => exact ⟨rfl, A.out⟩
  | .ok :: rest =>
    simp only [hr, hn, hd]
    match s.hw.phase.responses with
    | 0 => exact ⟨rfl, A.out⟩
    | 1 => exact ⟨rfl, A.out⟩
    | j + 2 => exact ⟨rfl, fun a ha => memWrite_read_congr hm hs _ _ (A.out a ha)⟩

theorem encryptBegin_sameButInputBytes : s.encryptBegin.SameButInputBytes (s.withMem m).encryptBegin := by
  have hs : (s.withMem m).hw.session = s.hw.session := rfl
  unfold State.encryptBegin
  rw [hs]
  cases s.hw.session with
  | none => exact ⟨rfl, A.out⟩
  | used => exact ⟨rfl, A.out⟩
  | fresh => exact .ite ⟨rfl, A.out⟩ ⟨rfl, A.out⟩

theorem decryptBegin_sameButInputBytes : s.decryptBegin.SameButInputBytes (s.withMem m).decryptBegin := by
  have hs : (s.withMem m).hw.session = s.hw.session := rfl
  unfold State.decryptBegin
  rw [hs]
  cases s.hw.session with
  | none => exact ⟨rfl, A.out⟩
  | used => exact ⟨rfl, A.out⟩
  | fresh => exact .ite ⟨rfl, A.out⟩ (.ite ⟨rfl, A.out⟩ ⟨rfl, A.out⟩)

theorem encryptFinish_sameButInputBytes (hs : Memory.wf s.hw.mem) (hm : Memory.wf m) :
    (s.onHw HwState.encryptFinish).SameButInputBytes ((s.withMem m).onHw HwState.encryptFinish) := by
  rw [onHw_withMem (encryptFinish_withMem A)]
  refine .withMem fun a ha => ?_
  rw [State.onHw_hw, HwState.encryptFinish_mem]
  exact memWrite_read_congr hm hs _ _ (A.out a ha)

theorem encryptAdvance_sameButInputBytes (hs : Memory.wf s.hw.mem) (hm : Memory.wf m) (k : Nat) :
    (s.encryptAdvance k).SameButInputBytes ((s.withMem m).encryptAdvance k) := by
  match k with
  | 0 => exact encryptBegin_sameButInputBytes A
  | 1 => exact ⟨rfl, A.out⟩
  | i + 2 => exact .ite ⟨rfl, A.out⟩ (encryptFinish_sameButInputBytes A hs hm)

theorem verifyTag_sameButInputBytes (h16 : 16 ≤ s.hw.dataLen.toNat) :
    s.verifyTag.SameButInputBytes (s.withMem m).verifyTag := by
  have hashed : (s.onHw HwState.hashForTag).hw.AgreesOnMessage m := ⟨A.aad, A.data, A.out⟩
  have ht : (s.withMem m).hw.hashForTag.tagDiff = s.hw.hashForTag.tagDiff :=
    (congrArg HwState.tagDiff (hashForTag_withMem A)).trans (tagDiff_withMem hashed h16)
  unfold State.verifyTag
  rw [ht, onHw_withMem (hashForTag_withMem A)]
  generalize s.onHw HwState.hashForTag = u at hashed ⊢
  exact .ite ⟨rfl, hashed.out⟩ ⟨rfl, hashed.out⟩

theorem decryptAdvance_sameButInputBytes (k : Nat) (h16 : k = 2 → 16 ≤ s.hw.dataLen.toNat) :
    (s.decryptAdvance k).SameButInputBytes ((s.withMem m).decryptAdvance k) := by
  match k with
  | 0 => exact decryptBegin_sameButInputBytes A
  | 1 => exact ⟨rfl, A.out⟩
  | 2 => exact verifyTag_sameButInputBytes A (h16 rfl)
  | i + 3 => exact .ite ⟨rfl, A.out⟩ ⟨rfl, A.out⟩

/-- A command's step reads no byte of the input buffers past the message lengths. -/
theorem exec_sameButInputBytes {i : Instr} {k : Nat} (I : s.Inv) (hr : s.hw.runs i k) (hm : Memory.wf m) :
    ∃ t v, exec i s = .next t ∧ exec i (s.withMem m) = .next v ∧ t.SameButInputBytes v := by
  obtain ⟨w, hp, hd⟩ := hr
  have hs := I.memCanonical
  cases i with
  | encrypt =>
    cases hpend : s.hw.pend with
    | none =>
      exact ⟨_, _, execEncrypt_advance hp hpend, execEncrypt_advance hp hpend, encryptAdvance_sameButInputBytes A hs hm k⟩
    | some r =>
      exact ⟨_, _, execEncrypt_await hpend, execEncrypt_await hpend,
        awaitResponse_sameButInputBytes A hs hm r (fun h => h.dataLen.toNat) (fun _ => rfl) fun _ => Nat.le_refl _⟩
  | decrypt =>
    cases hpend : s.hw.pend with
    | none =>
      refine ⟨_, _, execDecrypt_advance hp hpend, execDecrypt_advance hp hpend,
        decryptAdvance_sameButInputBytes A k fun hk => ?_⟩
      obtain ⟨-, -, -, h16, -⟩ := I.progress .decrypt k (.inr rfl) ⟨w, hp, hd⟩ (.inl (by omega))
      exact h16 rfl
    | some r =>
      exact ⟨_, _, execDecrypt_await hpend, execDecrypt_await hpend,
        awaitResponse_sameButInputBytes A hs hm r HwState.cipherLen (fun _ => rfl) cipherLen_le⟩
  | ghash =>
    refine ⟨_, _, rfl, rfl, ?_⟩
    rw [onHw_withMem (ghashCommand_withMem A)]
    refine .ite ⟨rfl, A.out⟩ (.withMem fun a ha => ?_)
    rw [State.onHw_hw, HwState.ghashCommand_mem]
    exact A.out a ha
  | init =>
    refine ⟨_, _, rfl, rfl, ?_⟩
    rw [onHw_withMem (initCommand_withMem s.hw m)]
    refine .withMem fun a ha => ?_
    rw [State.onHw_hw, initCommand_mem]
    exact A.out a ha
  | wXor | wAnd | wShr1 | wInc | wEq | gfMul => exact ⟨_, _, rfl, rfl, rfl, A.out⟩

end Steps

end Sys2Proof.Machine
end

section
/-! SUPPORT. The bus check against the register map and the buffer ranges (20_memory.md R71, R72, R76, R79;
70_reset_and_hazards.md R280). -/

namespace Sys2Proof.Machine

/-! ### The map: which addresses are mapped, and which of them are gated -/

/-- Every aligned offset of the map is a register's. -/
theorem registerAt_of_registerOffset {a : Nat} (ha : a % 4 = 0) (hr : registerOffset a) : ∃ l, registerAt a = some l := by
  have table : ∀ k, k < 44 → k ≤ 11 ∨ (16 ≤ k ∧ k ≤ 26) ∨ 32 ≤ k → (registerAt (4 * k)).isSome = true := by decide
  obtain ⟨k, rfl⟩ := Nat.dvd_of_mod_eq_zero ha
  simp only [registerOffset] at hr
  exact Option.isSome_iff_exists.mp (table k (by omega) (by omega))

/-- A register's offset is one of the map, and the gate of its location is the gate of the offset. -/
theorem registerAt_gate {a : Nat} {l : Loc} (h : registerAt a = some l) :
    registerOffset a ∧ (l.gated = true ↔ ¬ ungatedOffset a) := by
  unfold registerAt at h
  split at h <;> cases h <;> simp [registerOffset, ungatedOffset, Loc.gated]

theorem not_ungatedOffset_of_ge {a : Nat} (h : aadBase ≤ a) : ¬ ungatedOffset a := by
  simp only [ungatedOffset, aadBase] at h ⊢
  omega

/-- An aligned mapped address leads to a location. -/
theorem locate_of_mappedOffset {p : Params} {a : Nat} (ha : a % 4 = 0) (hm : mappedOffset p a) :
    ∃ l, locate p a = some l := by
  rcases hm with hr | ⟨hlo, hhi⟩ | ⟨hlo, hhi⟩ | ⟨hlo, hhi⟩
  · obtain ⟨l, hl⟩ := registerAt_of_registerOffset ha hr
    exact ⟨l, (locate_register p hl).2⟩
  · exact ⟨_, by rw [← Nat.add_sub_cancel' hlo]; exact locate_aadbuf p (by omega)⟩
  · exact ⟨_, by rw [← Nat.add_sub_cancel' hlo]; exact locate_databuf p (by omega)⟩
  · exact ⟨_, by rw [← Nat.add_sub_cancel' hlo]; exact locate_outbuf p (by omega)⟩

/-- A location's address is mapped, and is gated as the location is. -/
theorem locate_gate {p : Params} {a : Nat} {l : Loc} (h : locate p a = some l) :
    mappedOffset p a ∧ (l.gated = true ↔ ¬ ungatedOffset a) := by
  have buffer : aadBase ≤ a → inBuffer p a → l.gated = true →
      mappedOffset p a ∧ (l.gated = true ↔ ¬ ungatedOffset a) := fun hge hb hg =>
    ⟨.inr hb, iff_of_true hg (not_ungatedOffset_of_ge hge)⟩
  unfold locate at h
  split at h
  · obtain ⟨hr, hg⟩ := registerAt_gate h
    exact ⟨.inl hr, hg⟩
  · next hr =>
    have hge : aadBase ≤ a := Nat.le_of_not_lt hr
    split at h
    · split at h <;> cases h
      next hlt => exact buffer hge (.inl ⟨hge, hlt⟩) rfl
    · next hd =>
      split at h
      · split at h <;> cases h
        next hlt => exact buffer hge (.inr (.inl ⟨Nat.le_of_not_lt hd, hlt⟩)) rfl
      · next ho =>
        split at h <;> cases h
        next hlt => exact buffer hge (.inr (.inr ⟨Nat.le_of_not_lt ho, hlt⟩)) rfl

/-! ### The bus check -/

section Check

variable {s : State} {a : Word}

/-- The three bus errors are what the bus check answers. -/
theorem busCheck_of_busFault {f : Fault} (h : s.busFault a f) : s.busCheck a = .error f := by
  unfold State.busCheck
  rcases h with ⟨hal, rfl⟩ | ⟨hal, hm, rfl⟩ | ⟨hal, hm, hu, hb, rfl⟩
  · exact if_pos hal
  · have hloc : locate s.par a.toNat = none := by
      cases hl : locate s.par a.toNat with
      | none => rfl
      | some l => exact absurd (locate_gate hl).1 hm
    rw [if_neg (not_not_intro hal), hloc]
  · obtain ⟨l, hl⟩ := locate_of_mappedOffset hal hm
    have hg : l.gated = true := (locate_gate hl).2.mpr hu
    rw [if_neg (not_not_intro hal), hl]
    simp [hg, hb]

/-- An accepted address leads to a location. -/
theorem busCheck_of_accepts (h : s.accepts a) : ∃ l, s.busCheck a = .ok l := by
  obtain ⟨hal, hm, hgate⟩ := h
  obtain ⟨l, hl⟩ := locate_of_mappedOffset hal hm
  exact ⟨l, busCheck_of hal hl fun hg => hgate.resolve_left ((locate_gate hl).2.mp hg)⟩

end Check

/-! ### The recorded fault -/

/-- A recorded fault stays recorded through every step (R74). -/
theorem step_keeps_fault {s t : State} {f : Fault} (hf : s.env.fault = some f) (h : step s = .next t) :
    t.env.fault = some f := by
  rcases step_cases h with ⟨a, ms, -, rfl⟩ | ⟨a, d, ms, -, rfl⟩ | ⟨ms, -, rfl⟩ | ⟨-, hc⟩
  · rcases busRead_cases s.popMove a with ⟨g, -, e⟩ | ⟨l, -, e⟩ <;> simp [e, hf]
  · rcases busWrite_cases s.popMove a d with ⟨g, -, e⟩ | ⟨l, -, e⟩ <;> simp [e, hf]
  · exact hf
  · rw [coreTurn_env hc]
    exact hf

end Sys2Proof.Machine
end

section
/-! SUPPORT. What a read of `OUTBUF` shows, and what a command's step makes of it (20_memory.md R81). -/

namespace Sys2Proof.Machine

/-! ### Words of `OUTBUF` on the bus -/

/-- The byte of `OUTBUF` that the host reads: its own while it is released, else 0. -/
theorem outByte_eq (h : HwState) (off : Nat) :
    h.outByte off = if h.outValid = true ∧ off < h.outLen.toNat then Memory.read h.mem (outBase + off) else 0 := by
  simp only [HwState.outByte, Bool.and_eq_true, decide_eq_true_eq]

/-- Byte b of the word of four bytes (R78). -/
theorem extractLsb'_wordOfBytes (f : Nat → Byte) {b : Nat} (hb : b < 4) :
    (wordOfBytes (f 0) (f 1) (f 2) (f 3)).extractLsb' (24 - 8 * b) 8 = f b := by
  have hw := wordByte_wordOfBytes (f 0) (f 1) (f 2) (f 3)
  simp only [bytesOfWord, wordByte, List.cons.injEq, and_true] at hw
  obtain ⟨h0, h1, h2, h3⟩ := hw
  interval_cases b
  · exact h0
  · exact h1
  · exact h2
  · exact h3

/-- A transaction at a word of `OUTBUF` of an idle block goes there. -/
theorem busCheck_outbuf {s : State} {off : Nat} (hb : s.hw.busy = false) (hal : off % 4 = 0)
    (ho : off < s.par.maxData + 16) : s.busCheck (BitVec.ofNat 32 (outBase + off)) = .ok (.out off) := by
  have hd := maxData_lt s.par
  have hn : (BitVec.ofNat 32 (outBase + off)).toNat = outBase + off := by
    rw [BitVec.toNat_ofNat]
    exact Nat.mod_eq_of_lt (by simp only [outBase]; omega)
  refine busCheck_of ?_ ?_ fun _ => hb
  · rw [hn, outBase]; omega
  · rw [hn]; exact locate_outbuf s.par ho

/-! ### A command that has not succeeded shows nothing of `OUTBUF` -/

/-- The output of `g` is hidden, or all that a read can show of it is as in `h`. -/
def HwState.ShowsNothingNew (h g : HwState) : Prop :=
  g.outValid = false ∨
    (g.outValid = h.outValid ∧ g.outLen = h.outLen ∧ ∀ a, Memory.read g.mem a = Memory.read h.mem a)

/-- A completed command with error code 0. -/
def HwState.succeeded (h : HwState) : Prop := h.phase = .idle ∧ h.errcode = 0

variable {s t : State} {i : Instr} {k : Nat}

/-- Once ENCRYPT or DECRYPT has sent a request, its output is hidden until it succeeds (42_session.md R196, R210). -/
theorem State.Inv.output_hidden (I : s.Inv) (hi : sessionOperation i) (hr : s.hw.runs i k)
    (hk : s.hw.phase.responses ≠ 0 ∨ s.hw.pend.isSome = true) : s.hw.outValid = false := by
  obtain ⟨w, hp, hd⟩ := hr
  rw [hp, Phase.responses, Option.isSome_iff_ne_none] at hk
  obtain ⟨-, hv, -⟩ := I.progress i k hi ⟨w, hp, hd⟩ hk
  exact hv

/-- A step of ENCRYPT: with a request sent the output is hidden, and only the last step shows it (R196). -/
theorem encrypt_showsNothingNew (I : s.Inv) (hr : s.hw.runs .encrypt k) (h : exec .encrypt s = .next t) :
    t.hw.succeeded ∨ s.hw.ShowsNothingNew t.hw := by
  have hidden := I.output_hidden (.inl rfl) hr
  have waiting : ∀ {r}, s.hw.pend = some r → s.hw.outValid = false := fun hp => hidden (.inr (by rw [hp]; rfl))
  rcases execEncrypt_cases h with ⟨r, hp, -, rfl⟩ | ⟨r, rest, hp, -, rfl⟩ | ⟨r, c, rest, hp, -, rfl⟩ | ⟨-, -, hb⟩ |
    ⟨-, hk, rfl⟩ | ⟨j, -, hk, -, rfl⟩ | ⟨j, -, -, -, rfl⟩
  · exact .inr (.inl (waiting hp))
  · exact .inr (.inl ((HwState.takeBlock_outValid ..).trans (waiting hp)))
  · exact .inr (.inl (waiting hp))
  · rcases hb with ⟨-, rfl⟩ | ⟨-, rfl⟩ | ⟨-, -, rfl⟩ | ⟨-, -, rfl⟩
    · exact .inr (.inr ⟨rfl, rfl, fun _ => rfl⟩)
    · exact .inr (.inr ⟨rfl, rfl, fun _ => rfl⟩)
    · exact .inr (.inl rfl)
    · exact .inr (.inl rfl)
  · exact .inr (.inl (hidden (.inl (by omega))))
  · exact .inr (.inl (hidden (.inl (by omega))))
  · exact .inl ⟨rfl, rfl⟩

/-- A step of DECRYPT: with a request sent the output is hidden, and only the last step shows it (R210). -/
theorem decrypt_showsNothingNew (I : s.Inv) (hr : s.hw.runs .decrypt k) (h : exec .decrypt s = .next t) :
    t.hw.succeeded ∨ s.hw.ShowsNothingNew t.hw := by
  have hidden := I.output_hidden (.inr rfl) hr
  have waiting : ∀ {r}, s.hw.pend = some r → s.hw.outValid = false := fun hp => hidden (.inr (by rw [hp]; rfl))
  rcases execDecrypt_cases h with ⟨r, hp, -, rfl⟩ | ⟨r, rest, hp, -, rfl⟩ | ⟨r, c, rest, hp, -, rfl⟩ | ⟨-, -, hb⟩ |
    ⟨-, hk, rfl⟩ | ⟨-, hk, hv⟩ | ⟨j, -, hk, -, rfl⟩ | ⟨j, -, -, -, rfl⟩
  · exact .inr (.inl (waiting hp))
  · exact .inr (.inl ((HwState.takeBlock_outValid ..).trans (waiting hp)))
  · exact .inr (.inl (waiting hp))
  · rcases hb with ⟨-, rfl⟩ | ⟨-, rfl⟩ | ⟨-, -, rfl⟩ | ⟨-, -, -, rfl⟩ | ⟨-, -, -, rfl⟩
    · exact .inr (.inr ⟨rfl, rfl, fun _ => rfl⟩)
    · exact .inr (.inr ⟨rfl, rfl, fun _ => rfl⟩)
    · exact .inr (.inl rfl)
    · exact .inr (.inl rfl)
    · exact .inr (.inl rfl)
  · exact .inr (.inl (hidden (.inl (by omega))))
  · have hv' := hidden (.inl (by omega))
    rcases hv with ⟨-, rfl⟩ | ⟨-, rfl⟩ <;> exact .inr (.inl (by simpa using hv'))
  · exact .inr (.inl (hidden (.inl (by omega))))
  · exact .inl ⟨rfl, rfl⟩

/-- A step of a command succeeds, or shows nothing new of `OUTBUF`. -/
theorem exec_showsNothingNew (I : s.Inv) (hr : s.hw.runs i k) (h : exec i s = .next t) :
    t.hw.succeeded ∨ s.hw.ShowsNothingNew t.hw := by
  cases i with
  | encrypt => exact encrypt_showsNothingNew I hr h
  | decrypt => exact decrypt_showsNothingNew I hr h
  | ghash =>
    rcases execGhash_cases h with ⟨-, rfl⟩ | ⟨-, rfl⟩
    · exact .inr (.inr ⟨rfl, rfl, fun _ => rfl⟩)
    · exact .inl ⟨rfl, rfl⟩
  | init =>
    injection h with h; subst h
    refine .inr (.inl ?_)
    rw [State.onHw_hw]
    rcases initCommand_cases s.hw with ⟨-, -, e⟩ | ⟨-, -, e⟩ | ⟨-, e⟩ <;> rw [e] <;> rfl
  | wXor | wAnd | wShr1 | wInc | wEq | gfMul => injection h with h; subst h; exact .inl ⟨rfl, rfl⟩

end Sys2Proof.Machine
end

section
/-! The statements on the buffers and the host bus (20_memory.md). -/

namespace Sys2Proof.Machine

/-- Settles O42: the inputs are kept by every turn; every step of a command reads the buffers below the message lengths only. -/
theorem coreAndItsInputs : Obligations.CoreAndItsInputs := by
  refine ⟨fun s t h => ?_, fun i s k m I hr hm _ haad hdata hout => ?_⟩
  · obtain ⟨hr, hb⟩ := coreTurn_keepsInputs h
    simp only [HwState.inputs, Prod.mk.injEq] at hr
    obtain ⟨hirq, hkey, hnonce, haad, hdata, hkeyb, hnonceb, hopa, hopb⟩ := hr
    exact ⟨hirq, hkey, hnonce, haad, hdata, hkeyb, hnonceb, hopa, hopb, hb⟩
  · obtain ⟨t, v, ht, hv, same⟩ := exec_sameButInputBytes ⟨haad, hdata, hout⟩ I hr hm
    exact ⟨t, v, ht, hv, same.block, same.out, (exec_keepsInputs hv).buffers⟩

/-- Settles O43: the bus check answers the faults of the map in their order, and a step keeps the first recorded fault. -/
theorem busErrors : Obligations.BusErrors := by
  refine ⟨fun s a => ⟨fun f hf => ?_, fun ha => ?_⟩, fun s t f hf h => step_keeps_fault hf h⟩
  · have hc := busCheck_of_busFault hf
    rw [busRead_error hc]
    refine ⟨rfl, rfl, rfl, fun d => ?_⟩
    rw [busWrite_error hc]
    exact ⟨rfl, rfl, rfl⟩
  · obtain ⟨l, hl⟩ := busCheck_of_accepts ha
    rw [busRead_of hl]
    refine ⟨⟨_, rfl⟩, rfl, rfl, fun d => ?_⟩
    rw [busWrite_of hl]
    exact ⟨rfl, rfl⟩

/-- Settles O48: the read and the ignored write at the word's location; only a success shows what a command wrote. -/
theorem outbufReads : Obligations.OutbufReads := by
  refine ⟨fun s off d hb hal ho => ?_, fun s t i k I hr h hn => (exec_showsNothingNew I hr h).resolve_left hn⟩
  have hc : s.busCheck (BitVec.ofNat 32 (0xC0000000 + off)) = .ok (.out off) := busCheck_outbuf hb hal ho
  refine ⟨⟨s.readLoc (.out off), ?_, fun b hb4 => ?_⟩, ?_, ?_⟩
  · rw [State.readResp, busRead_of hc, State.respond_resp]
  · rw [Nat.add_assoc]
    exact (extractLsb'_wordOfBytes (fun b => s.hw.outByte (off + b)) hb4).trans (outByte_eq s.hw (off + b))
  · rw [State.afterWrite, busWrite_of hc]; rfl
  · rw [State.afterWrite, busWrite_of hc]; rfl

end Sys2Proof.Machine
end

section
/-! SUPPORT. Which words decode to a command, and what the controller's turn makes of a word (30_encoding.md R100, R101, R104). -/

namespace Sys2Proof.Machine

/-! ### Legal words -/

/-- The opcode map has an entry for the legal opcodes and for no other. -/
theorem exists_instrOfOpcode_eq_some_iff {op : BitVec 8} : (∃ i, instrOfOpcode op = some i) ↔ op ∈ legalOpcodes := by
  constructor
  · rintro ⟨i, hi⟩
    unfold instrOfOpcode at hi
    split at hi
    on_goal 11 => cases hi
    all_goals decide
  · intro h
    simp only [legalOpcodes, List.mem_cons, List.not_mem_nil, or_false] at h
    rcases h with rfl | rfl | rfl | rfl | rfl | rfl | rfl | rfl | rfl | rfl <;> exact ⟨_, rfl⟩

theorem decodeFields_eq_ok_iff {c : Cmd32} {i : Instr} :
    decodeFields c = .ok i ↔ c.mbz = 0 ∧ instrOfOpcode c.opcode = some i := by
  unfold decodeFields
  by_cases hm : c.mbz = 0
  · rw [if_neg (not_not_intro hm)]
    cases instrOfOpcode c.opcode with
    | some j => simp [hm]
    | none => simp
  · rw [if_pos hm]
    exact ⟨nofun, fun ⟨h, _⟩ => absurd h hm⟩

/-- A word decodes to a command exactly when it is legal (R100). -/
theorem exists_decode_eq_ok_iff {w : Word} :
    (∃ i, decode w = .ok i) ↔ w.extractLsb' 8 24 = 0 ∧ w.extractLsb' 0 8 ∈ legalOpcodes := by
  unfold decode
  simp only [decodeFields_eq_ok_iff, exists_and_left, exists_instrOfOpcode_eq_some_iff]
  rfl

/-- The ranges between the legal opcodes (R104). -/
theorem not_mem_legalOpcodes {op : BitVec 8}
    (h : op.toNat = 0x00 ∨ (0x04 ≤ op.toNat ∧ op.toNat ≤ 0x0F) ∨ (0x15 ≤ op.toNat ∧ op.toNat ≤ 0x1F) ∨ 0x22 ≤ op.toNat) :
    op ∉ legalOpcodes := by
  intro hm
  simp only [legalOpcodes, List.mem_cons, List.not_mem_nil, or_false] at hm
  rcases hm with rfl | rfl | rfl | rfl | rfl | rfl | rfl | rfl | rfl | rfl <;> exact absurd h (by decide)

/-! ### The controller's turn by the word in `PHASE` -/

section Turn

variable {s : State} {w : Word} {k : Nat}

theorem coreTurn_command {i : Instr} (hp : s.hw.phase = .exec w k) (hd : decode w = .ok i) : coreTurn s = exec i s := by
  unfold coreTurn
  simp only [hp, hd]

/-- A word that is no command completes with `IllegalCommand`. -/
theorem coreTurn_illegal (hp : s.hw.phase = .exec w k) (hd : ∀ i, decode w ≠ .ok i) :
    coreTurn s = .next (s.completedAs s.hw 0x09 0) := by
  unfold coreTurn
  cases he : decode w with
  | ok i => exact absurd he (hd i)
  | error e => simp only [hp, he]; rfl

end Turn

/-! ### A gated register while `BUSY = 1` -/

section Gated

variable {s : State} {off : Nat} {l : Loc}

theorem busCheck_gated (hl : registerAt off = some l) (hg : l.gated = true) (hb : s.hw.busy = true) :
    s.busCheck (BitVec.ofNat 32 off) = .error (.gated (BitVec.ofNat 32 off)) := by
  obtain ⟨hn, hloc⟩ := locate_register s.par hl
  obtain ⟨hal, -⟩ := registerAt_aligned hl
  unfold State.busCheck
  rw [hn, if_neg (not_not_intro hal), hloc]
  simp [hg, hb]

theorem afterWrite_gated (hl : registerAt off = some l) (hg : l.gated = true) (hb : s.hw.busy = true) (d : Word) :
    (s.afterWrite off d).hw = s.hw ∧ (s.afterWrite off d).env.resp = some .busErr := by
  rw [State.afterWrite, busWrite_error (busCheck_gated hl hg hb)]
  exact ⟨rfl, rfl⟩

end Gated

end Sys2Proof.Machine
end

section
/-! SUPPORT. The writes column of 30_encoding.md R102: what a step of each command may change. -/

namespace Sys2Proof.Machine

/-! ### The column as a function -/

/-- `h` with what every command writes at its completion, taken from `g`. -/
def HwState.withCompletion (h g : HwState) : HwState :=
  { h with busy := g.busy, done := g.done, errcode := g.errcode, errDetail := g.errDetail, phase := g.phase }

/-- `h` with the registers and bytes that command `i` may write, taken from `g`. -/
def HwState.withWritten (h : HwState) (i : Instr) (g : HwState) : HwState :=
  match i with
  | .init =>
    { h.withCompletion g with
      session := g.session, skeyb := g.skeyb, skl := g.skl, ctr := g.ctr, hsub := g.hsub, eky0 := g.eky0,
      gacc := g.gacc, outValid := g.outValid, outLen := g.outLen }
  | .encrypt | .decrypt =>
    { h.withCompletion g with
      session := g.session, ctr := g.ctr, hsub := g.hsub, eky0 := g.eky0, gacc := g.gacc, mem := g.mem,
      outValid := g.outValid, outLen := g.outLen, pend := g.pend }
  | .wXor | .wAnd | .wShr1 | .wInc | .gfMul => { h.withCompletion g with res := g.res }
  | .wEq => { h.withCompletion g with eq := g.eq }
  | .ghash => { h.withCompletion g with gacc := g.gacc, res := g.res }

/-- `p` once command `i` may have used the port: ENCRYPT and DECRYPT alone do. -/
def Provider.withUsed (p : Provider) (i : Instr) (q : Provider) : Provider :=
  if sessionOperation i then { p with answers := q.answers, seen := q.seen } else p

/-- `s` with what command `i` may write, taken from `t`. -/
def State.withWritten (s : State) (i : Instr) (t : State) : State :=
  { s with hw := s.hw.withWritten i t.hw, prov := s.prov.withUsed i t.prov }

/-! ### Every command keeps to its row -/

section Writes

variable {s t : State}

theorem takeBlock_writes (h : HwState) (msg : List Byte) (k : Nat) (v : U128) :
    h.received.takeBlock msg k v = h.withWritten .encrypt (h.received.takeBlock msg k v) := by
  rcases k with _ | _ | k <;> rfl

/-- The end of ENCRYPT: whatever it hashes and stores, it completes with the output shown. -/
theorem encryptFinish_writes (h : HwState) : h.encryptFinish = h.withWritten .encrypt h.encryptFinish := by
  have shown : ∀ (x : U128) (m : List Host.Cell) (n : Word),
      (HwState.showOutput { h with gacc := x, mem := m } n).finish =
        h.withWritten .encrypt (HwState.showOutput { h with gacc := x, mem := m } n).finish := fun _ _ _ => rfl
  exact shown _ _ _

theorem initCommand_writes (h : HwState) : h.initCommand = h.withWritten .init h.initCommand := by
  rcases initCommand_cases h with ⟨-, -, e⟩ | ⟨-, -, e⟩ | ⟨-, e⟩ <;> rw [e] <;> rfl

theorem encrypt_writes (h : exec .encrypt s = .next t) : t = s.withWritten .encrypt t := by
  rcases execEncrypt_cases h with ⟨r, -, -, rfl⟩ | ⟨r, rest, -, -, rfl⟩ | ⟨r, c, rest, -, -, rfl⟩ | ⟨-, -, hb⟩ |
    ⟨-, -, rfl⟩ | ⟨j, -, -, -, rfl⟩ | ⟨j, -, -, -, rfl⟩
  · rfl
  · exact congrArg (fun x => ({ s with hw := x, prov := { s.prov with answers := rest } } : State)) (takeBlock_writes ..)
  · rfl
  · rcases hb with ⟨-, rfl⟩ | ⟨-, rfl⟩ | ⟨-, -, rfl⟩ | ⟨-, -, rfl⟩ <;> rfl
  · rfl
  · rfl
  · exact congrArg (fun x => ({ s with hw := x } : State)) (encryptFinish_writes s.hw)

theorem decrypt_writes (h : exec .decrypt s = .next t) : t = s.withWritten .decrypt t := by
  rcases execDecrypt_cases h with ⟨r, -, -, rfl⟩ | ⟨r, rest, -, -, rfl⟩ | ⟨r, c, rest, -, -, rfl⟩ | ⟨-, -, hb⟩ |
    ⟨-, -, rfl⟩ | ⟨-, -, hv⟩ | ⟨j, -, -, -, rfl⟩ | ⟨j, -, -, -, rfl⟩
  · rfl
  · exact congrArg (fun x => ({ s with hw := x, prov := { s.prov with answers := rest } } : State)) (takeBlock_writes ..)
  · rfl
  · rcases hb with ⟨-, rfl⟩ | ⟨-, rfl⟩ | ⟨-, -, rfl⟩ | ⟨-, -, -, rfl⟩ | ⟨-, -, -, rfl⟩ <;> rfl
  · rfl
  · rcases hv with ⟨-, rfl⟩ | ⟨-, rfl⟩ <;> rfl
  · rfl
  · rfl

/-- A command step changes what R102 lists for the command, and nothing else. -/
theorem exec_writes {i : Instr} (h : exec i s = .next t) : t = s.withWritten i t := by
  cases i with
  | encrypt => exact encrypt_writes h
  | decrypt => exact decrypt_writes h
  | ghash => rcases execGhash_cases h with ⟨-, rfl⟩ | ⟨-, rfl⟩ <;> rfl
  | init =>
    injection h with h; subst h
    exact congrArg (fun x => ({ s with hw := x } : State)) (initCommand_writes s.hw)
  | wXor | wAnd | wShr1 | wInc | wEq | gfMul => injection h with h; subst h; rfl

end Writes

/-! ### What the rows leave alone -/

section Rows

variable {h g : HwState} {i : Instr}

theorem withWritten_mem (hi : ¬ sessionOperation i) : (h.withWritten i g).mem = h.mem := by
  cases i with
  | encrypt | decrypt => exact absurd (by decide) hi
  | _ => rfl

theorem withWritten_pend (hi : ¬ sessionOperation i) : (h.withWritten i g).pend = h.pend := by
  cases i with
  | encrypt | decrypt => exact absurd (by decide) hi
  | _ => rfl

theorem withWritten_res (hi : i = .init ∨ i = .wEq) : (h.withWritten i g).res = h.res := by
  rcases hi with rfl | rfl <;> rfl

theorem withWritten_eq (hi : i ≠ .wEq) : (h.withWritten i g).eq = h.eq := by
  cases i with
  | wEq => exact absurd rfl hi
  | _ => rfl

theorem withWritten_session (hi : ¬ sessionOperation i) (hn : i ≠ .init) :
    let r := h.withWritten i g
    r.session = h.session ∧ r.skeyb = h.skeyb ∧ r.skl = h.skl ∧ r.ctr = h.ctr ∧ r.hsub = h.hsub ∧ r.eky0 = h.eky0 ∧
      r.outValid = h.outValid ∧ r.outLen = h.outLen := by
  cases i with
  | encrypt | decrypt => exact absurd (by decide) hi
  | init => exact absurd rfl hn
  | _ => exact ⟨rfl, rfl, rfl, rfl, rfl, rfl, rfl, rfl⟩

theorem withWritten_gacc (hi : ¬ sessionOperation i) (hn : i ≠ .init) (hg : i ≠ .ghash) :
    (h.withWritten i g).gacc = h.gacc := by
  cases i with
  | encrypt | decrypt => exact absurd (by decide) hi
  | init => exact absurd rfl hn
  | ghash => exact absurd rfl hg
  | _ => rfl

end Rows

end Sys2Proof.Machine
end

section
/-! SUPPORT. The bytes that one step of ENCRYPT or DECRYPT stores (42_session.md R196, R210). -/

namespace Sys2Proof.Machine

/-- `t` has the bytes of `s` outside the bytes that the step of command `i` stores. -/
def State.StoresOnly (s : State) (i : Instr) (t : State) : Prop :=
  ∀ a, a < (s.storesTo i).1 ∨ (s.storesTo i).1 + (s.storesTo i).2 ≤ a →
    Memory.read t.hw.mem a = Memory.read s.hw.mem a

section Stores

variable {s t : State} {i : Instr}

theorem storesOnly_of_mem (h : t.hw.mem = s.hw.mem) : s.StoresOnly i t := fun _ _ => by rw [h]

theorem storesTo_received {r : Request} {rest : List Answer} {j : Nat} (hp : s.hw.pend = some r)
    (ha : s.prov.answers = .ok :: rest) (hk : s.hw.phase.responses = j + 2) :
    s.storesTo i = (outBase + 16 * j, min 16 (s.hw.messageLen i - 16 * j)) := by
  unfold State.storesTo
  rw [hp, ha, hk]

theorem storesTo_encryptFinish {j : Nat} (hp : s.hw.pend = none) (hk : s.hw.phase.responses = j + 2)
    (hj : blockCount s.hw.dataLen.toNat ≤ j) : s.storesTo .encrypt = (outBase + s.hw.dataLen.toNat, 16) := by
  unfold State.storesTo
  rw [hp, hk]
  exact if_pos ⟨rfl, Nat.add_le_add_right hj 2⟩

/-- The response with message block j stores at that block's place in `OUTBUF`; the two before it store nothing. -/
theorem takeBlock_storesOnly {r : Request} {rest : List Answer} {msg : List Byte} {v : U128} (hp : s.hw.pend = some r)
    (ha : s.prov.answers = .ok :: rest) (hm : msg.length = s.hw.messageLen i)
    (ht : t.hw = s.hw.received.takeBlock msg s.hw.phase.responses v) : s.StoresOnly i t := by
  match hk : s.hw.phase.responses with
  | 0 | 1 => exact storesOnly_of_mem (by rw [ht, hk]; rfl)
  | j + 2 =>
    intro a hout
    rw [storesTo_received hp ha hk] at hout
    rw [ht, hk]
    refine memWrite_read_outside _ _ _ (hout.imp_right fun h => le_trans ?_ h)
    rw [List.length_take, hm]
    omega

theorem encrypt_storesOnly (h : exec .encrypt s = .next t) : s.StoresOnly .encrypt t := by
  rcases execEncrypt_cases h with ⟨r, -, -, rfl⟩ | ⟨r, rest, hp, ha, rfl⟩ | ⟨r, c, rest, -, -, rfl⟩ | ⟨-, -, hb⟩ |
    ⟨-, -, rfl⟩ | ⟨j, -, -, -, rfl⟩ | ⟨j, hp, hk, hj, rfl⟩
  · exact storesOnly_of_mem rfl
  · exact takeBlock_storesOnly hp ha (memRead_length ..) rfl
  · exact storesOnly_of_mem rfl
  · rcases hb with ⟨-, rfl⟩ | ⟨-, rfl⟩ | ⟨-, -, rfl⟩ | ⟨-, -, rfl⟩ <;> exact storesOnly_of_mem rfl
  · exact storesOnly_of_mem rfl
  · exact storesOnly_of_mem rfl
  · intro a hout
    rw [storesTo_encryptFinish hp hk hj] at hout
    rw [State.onHw_hw, HwState.encryptFinish_mem]
    exact memWrite_read_outside _ _ _ (by rwa [ser128_length])

theorem decrypt_storesOnly (h : exec .decrypt s = .next t) : s.StoresOnly .decrypt t := by
  rcases execDecrypt_cases h with ⟨r, -, -, rfl⟩ | ⟨r, rest, hp, ha, rfl⟩ | ⟨r, c, rest, -, -, rfl⟩ | ⟨-, -, hb⟩ |
    ⟨-, -, rfl⟩ | ⟨-, -, hv⟩ | ⟨j, -, -, -, rfl⟩ | ⟨j, -, -, -, rfl⟩
  · exact storesOnly_of_mem rfl
  · exact takeBlock_storesOnly hp ha (memRead_length ..) rfl
  · exact storesOnly_of_mem rfl
  · rcases hb with ⟨-, rfl⟩ | ⟨-, rfl⟩ | ⟨-, -, rfl⟩ | ⟨-, -, -, rfl⟩ | ⟨-, -, -, rfl⟩ <;> exact storesOnly_of_mem rfl
  · exact storesOnly_of_mem rfl
  · rcases hv with ⟨-, rfl⟩ | ⟨-, rfl⟩ <;> exact storesOnly_of_mem rfl
  · exact storesOnly_of_mem rfl
  · exact storesOnly_of_mem rfl

end Stores

end Sys2Proof.Machine
end

section
/-! The statements on the command words and on what the commands write (30_encoding.md). -/

namespace Sys2Proof.Machine

/-- Settles O3: by the decoder's two checks, and the location of `COMMAND`. -/
theorem legalWords : Obligations.LegalWords :=
  ⟨fun _ => exists_decode_eq_ok_iff, fun _ hb => readResp_register (l := .command) rfl fun _ => hb⟩

/-- Settles O4: a word of these ranges is not legal, so that it decodes to no command. -/
theorem illegalWordCompletes : Obligations.IllegalWordCompletes := by
  intro s w k hp hw
  refine coreTurn_illegal hp fun i hi => ?_
  obtain ⟨hm, ho⟩ := exists_decode_eq_ok_iff.mp ⟨i, hi⟩
  exact hw.elim (absurd hm) fun hr => not_mem_legalOpcodes hr ho

/-- Settles O5: `COMMAND` is gated, its write action is the issue, and the controller's turn goes by the decoded word. -/
theorem commandIssue : Obligations.CommandIssue := by
  refine fun s w => ⟨fun hb => afterWrite_gated (l := .command) rfl rfl hb w, fun hb => ?_, fun hp => ?_⟩
  · have gate : Loc.command.gated = true → s.hw.busy = false := fun _ => hb
    exact ⟨afterWrite_hw rfl gate w, afterWrite_resp rfl gate w⟩
  · exact ⟨fun i hd => coreTurn_command hp hd, coreTurn_illegal hp⟩

/-- Settles O38: the host-written registers are the commands' inputs; the rest by the writes column of R102. -/
theorem frameOfCommandsThatStoreNothing : Obligations.FrameOfCommandsThatStoreNothing := by
  intro i s t hi h
  obtain ⟨hr, -⟩ := exec_keepsInputs h
  simp only [HwState.inputs, Prod.mk.injEq] at hr
  obtain ⟨hirq, hkey, hnonce, haad, hdata, hkeyb, hnonceb, hopa, hopb⟩ := hr
  refine ⟨fun a => ?_, hopa, hopb, hkeyb, hnonceb, hkey, hnonce, haad, hdata, hirq, ?_⟩
  · rw [exec_writes h]
    exact congrArg (Memory.read · a) (withWritten_mem hi)
  · rw [exec_writes h]
    exact ⟨withWritten_pend hi, withWritten_res, withWritten_eq, withWritten_session hi, withWritten_gacc hi, rfl,
      if_neg hi, rfl⟩

/-- Settles O39: the registers by the writes column of R102, the bytes by what a step stores. -/
theorem frameOfSessionOperations : Obligations.FrameOfSessionOperations := by
  intro i s t hi h
  constructor
  · rw [exec_writes h]
    rcases hi with rfl | rfl <;>
      exact ⟨⟨rfl, rfl, rfl, rfl, rfl, rfl, rfl, rfl, rfl, rfl, rfl, rfl, rfl, rfl⟩, rfl, rfl⟩
  · rcases hi with rfl | rfl
    · exact encrypt_storesOnly h
    · exact decrypt_storesOnly h

end Sys2Proof.Machine
end

section
/-! SUPPORT. The functions of the WideInt128 unit bit by bit and half by half (40_wideint.md R124 to R129), and what its
commands have in common (R120, R121). -/

namespace Sys2Proof.Machine

/-! ### The halves of a 128-bit value -/

theorem toNat_lowHalf (v : U128) : (v.extractLsb' 0 64).toNat = v.toNat % 2 ^ 64 := BitVec.extractLsb'_toNat 0 64 v

theorem toNat_highHalf (v : U128) : (v.extractLsb' 64 64).toNat = v.toNat / 2 ^ 64 := by
  rw [BitVec.extractLsb'_toNat, Nat.shiftRight_eq_div_pow]
  exact Nat.mod_eq_of_lt (Nat.div_lt_of_lt_mul v.isLt)

theorem toNat_half_succ (x : BitVec 64) : (x + 1).toNat = (x.toNat + 1) % 2 ^ 64 := BitVec.toNat_add x 1

/-! ### SHR1, INC128 and EQ128 -/

@[simp] theorem getLsbD_shr1 (v : U128) (i : Nat) : (shr1 v).getLsbD i = v.getLsbD (i + 1) := by
  rw [shr1, BitVec.getLsbD_ushiftRight, Nat.add_comm]

theorem shr1_highHalf (v : U128) : (shr1 v).extractLsb' 64 64 = v.extractLsb' 64 64 >>> 1 := by
  apply BitVec.eq_of_toNat_eq
  rw [BitVec.toNat_ushiftRight, toNat_highHalf, toNat_highHalf, shr1, BitVec.toNat_ushiftRight]
  simp only [Nat.shiftRight_eq_div_pow]
  exact Nat.div_right_comm ..

/-- Only bit 63 of the low half comes from the high half. -/
theorem shr1_lowHalf (v : U128) :
    (shr1 v).extractLsb' 0 64 =
      (v.extractLsb' 0 64 >>> 1) ||| ((BitVec.ofBool (v.getLsbD 64)).setWidth 64 <<< 63) := by
  apply BitVec.eq_of_getLsbD_eq
  intro i hi
  rcases Nat.lt_or_ge i 63 with h | h
  · have : 1 + i < 64 := by omega
    simp [hi, h, this, Nat.add_comm i 1]
  · obtain rfl : i = 63 := by omega
    simp [shr1]

theorem toNat_inc128 (v : U128) : (inc128 v).toNat = (v.toNat + 1) % 2 ^ 128 := BitVec.toNat_add v 1

theorem inc128_lowHalf (v : U128) : (inc128 v).extractLsb' 0 64 = v.extractLsb' 0 64 + 1 := by
  apply BitVec.eq_of_toNat_eq
  rw [toNat_half_succ, toNat_lowHalf, toNat_lowHalf, toNat_inc128]
  omega

/-- The low half wraps exactly when the addition carries out of bit 63. -/
theorem inc128_highHalf (v : U128) :
    (inc128 v).extractLsb' 64 64 =
      if v.extractLsb' 0 64 + 1 = 0 then v.extractLsb' 64 64 + 1 else v.extractLsb' 64 64 := by
  have wraps : v.extractLsb' 0 64 + 1 = 0 ↔ (v.toNat + 1) % 2 ^ 64 = 0 := by
    rw [← BitVec.toNat_inj, toNat_half_succ, toNat_lowHalf, Nat.mod_add_mod]
    rfl
  have bound := v.isLt
  apply BitVec.eq_of_toNat_eq
  rw [toNat_highHalf, toNat_inc128]
  split
  case isTrue h =>
    have carries := wraps.mp h
    rw [toNat_half_succ, toNat_highHalf]
    omega
  case isFalse h =>
    have noCarry := mt wraps.mpr h
    rw [toNat_highHalf]
    omega

theorem eq128_iff (a b : U128) : eq128 a b = true ↔ ∀ i, i < 128 → a.getLsbD i = b.getLsbD i := by
  rw [eq128, decide_eq_true_iff]
  exact ⟨fun h _ _ => by rw [h], BitVec.eq_of_getLsbD_eq⟩

/-! ### What the commands have in common -/

/-- The commands of the unit. -/
abbrev wideIntCommands : List Instr := [.wXor, .wAnd, .wShr1, .wInc, .wEq]

/-- What a command of the unit computes for `RES` from `OPA` and `OPB`; W_EQ computes nothing for it (R130). -/
def wideIntResult (i : Instr) (a b : U128) : U128 :=
  match i with
  | .wXor => a ^^^ b
  | .wAnd => a &&& b
  | .wShr1 => shr1 a
  | .wInc => inc128 a
  | _ => 0

section Commands

variable {i : Instr} {s t : State}

theorem wideInt_not_sessionOperation (hi : i ∈ wideIntCommands) : ¬ sessionOperation i := by
  rintro (rfl | rfl) <;> exact absurd hi (by decide)

theorem exec_wideInt_completes (hi : i ∈ wideIntCommands) (h : exec i s = .next t) : t = s.completedAs t.hw 0 0 := by
  cases i with
  | wXor | wAnd | wShr1 | wInc | wEq => injection h with h; subst h; rfl
  | _ => exact absurd hi (by decide)

theorem exec_wideInt_res (hi : i ∈ wideIntCommands) (hne : i ≠ .wEq) (h : exec i s = .next t) :
    t.hw.res = wideIntResult i s.hw.opa s.hw.opb := by
  cases i with
  | wXor | wAnd | wShr1 | wInc => injection h with h; subst h; rfl
  | wEq => exact absurd rfl hne
  | _ => exact absurd hi (by decide)

theorem exec_wEq_eq (h : exec .wEq s = .next t) : t.hw.eq = eq128 s.hw.opa s.hw.opb := by
  injection h with h; subst h; rfl

end Commands

end Sys2Proof.Machine
end

section
/-! The statements on the WideInt128 commands (40_wideint.md). -/

namespace Sys2Proof.Machine

/-- Settles O7: XOR works half by half. -/
theorem wXorResult : Obligations.WXorResult :=
  ⟨by decide, fun _ => ⟨_, rfl, BitVec.extractLsb'_xor, BitVec.extractLsb'_xor, rfl⟩⟩

/-- Settles O8: AND works half by half. -/
theorem wAndResult : Obligations.WAndResult :=
  ⟨by decide, fun _ => ⟨_, rfl, BitVec.extractLsb'_and, BitVec.extractLsb'_and, rfl⟩⟩

/-- Settles O9: by the bits and the halves of SHR1. -/
theorem wShr1Result : Obligations.WShr1Result := by
  refine ⟨by decide, fun s => ⟨_, rfl, ?_, fun i _ => getLsbD_shr1 s.hw.opa i, shr1_highHalf _, shr1_lowHalf _, rfl⟩⟩
  exact (getLsbD_shr1 s.hw.opa 127).trans (BitVec.getLsbD_of_ge _ _ (Nat.le_refl 128))

/-- Settles O10: by the value and the halves of INC128. -/
theorem wIncResult : Obligations.WIncResult :=
  ⟨by decide, fun _ => ⟨_, rfl, toNat_inc128 _, inc128_lowHalf _, inc128_highHalf _, rfl⟩⟩

/-- Settles O11: EQ128 compares bit by bit. -/
theorem wEqResult : Obligations.WEqResult :=
  ⟨by decide, fun _ => ⟨_, rfl, eq128_iff _ _, rfl⟩⟩

/-- Settles O12: the result is a function of the operands; the rest is the completion and the frame of the commands that store
nothing. -/
theorem wideIntIsPure : Obligations.WideIntIsPure := by
  intro i hi s u ha hb
  obtain ⟨t, ht⟩ := exec_total i s
  obtain ⟨v, hv⟩ := exec_total i u
  obtain ⟨hmem, hopa, hopb, -, -, -, -, -, -, -, hpend, hres, heq, hsession, hgacc, -, hprov, -⟩ :=
    frameOfCommandsThatStoreNothing i s t (wideInt_not_sessionOperation hi) ht
  have notInit : i ≠ .init := by rintro rfl; exact absurd hi (by decide)
  have notGhash : i ≠ .ghash := by rintro rfl; exact absurd hi (by decide)
  obtain ⟨hsess, hskeyb, hskl, hctr, hhsub, heky0, -, -⟩ := hsession notInit
  have done : t.hw.errcode = 0 ∧ t.hw.errDetail = 0 ∧ t.hw.busy = false ∧ t.hw.done = true ∧ t.hw.phase = .idle := by
    rw [exec_wideInt_completes hi ht]; exact ⟨rfl, rfl, rfl, rfl, rfl⟩
  obtain ⟨hcode, hdetail, hbusy, hdone, hphase⟩ := done
  refine ⟨t, v, ht, hv, fun hne => ⟨?_, heq hne⟩, fun he => ⟨?_, hres (.inr he)⟩, hcode, hdetail, hbusy, hdone, hphase,
    hopa, hopb, hsess, hskeyb, hskl, hctr, hhsub, heky0, hgacc notInit notGhash, hpend, hmem, hprov⟩
  · rw [exec_wideInt_res hi hne ht, exec_wideInt_res hi hne hv, ha, hb]
  · subst he
    rw [exec_wEq_eq ht, exec_wEq_eq hv, ha, hb]

end Sys2Proof.Machine
end

section
/-! SUPPORT. The multiplier as a sum of the running values, and the laws of the product (41_galois.md R151 to R153). The
running values are the powers of one XOR-linear map, `gfShift`; the product by `y` is a polynomial in it, and two such polynomials
commute. -/

namespace Sys2Proof.Machine

/-! ### The rounds as a sum -/

/-- `z` after the first `n` rounds of R151: the XOR of the running values at the rounds whose bit of `y` is set. -/
def gfSum (y : U128) (n : Nat) (x : U128) : U128 :=
  (List.range n).foldl (fun z r => if y.getLsbD (127 - r) then z ^^^ gfShift^[r] x else z) 0

@[simp] theorem gfSum_zero (y x : U128) : gfSum y 0 x = 0 := rfl

theorem gfSum_succ (y : U128) (n : Nat) (x : U128) :
    gfSum y (n + 1) x = if y.getLsbD (127 - n) then gfSum y n x ^^^ gfShift^[n] x else gfSum y n x := by
  simp only [gfSum, List.range_succ, List.foldl_append, List.foldl_cons, List.foldl_nil]

theorem gfRounds_eq_iterate (n : Nat) (y : U128) (t : U128 × U128 × U128) : gfRounds n y t = (gfRound y)^[n] t := by
  induction n generalizing t with
  | zero => rfl
  | succ n ih => exact ih _

theorem getLsbD_topbit_ushiftRight (n i : Nat) : (topbit >>> n).getLsbD i = decide (n + i = 127) := by
  have h : topbit = BitVec.twoPow 128 127 := by decide
  simp [h, eq_comm]

/-- The mask of round `n` has one bit, bit `127-n` (R151). -/
theorem topbit_ushiftRight {n : Nat} (hn : n < 128) : topbit >>> n = BitVec.twoPow 128 (127 - n) := by
  apply BitVec.eq_of_getLsbD_eq
  intro i _
  rw [getLsbD_topbit_ushiftRight, BitVec.getLsbD_twoPow]
  simp only [show 127 - n < 128 by omega, decide_true, Bool.true_and, decide_eq_decide]
  omega

/-- Round `n` tests `y[127-n]`. -/
theorem and_topbit_ushiftRight_ne_zero (y : U128) {n : Nat} (hn : n < 128) :
    y &&& topbit >>> n ≠ 0 ↔ y.getLsbD (127 - n) = true := by
  rw [topbit_ushiftRight hn, BitVec.and_twoPow]
  split
  case isTrue h =>
    have bit : (BitVec.twoPow 128 (127 - n)).getLsbD (127 - n) = true := by
      simp [show 127 - n < 128 by omega]
    refine iff_of_true (fun h0 => ?_) h
    rw [h0] at bit
    simp at bit
  case isFalse h => exact iff_of_false (fun h0 => h0 rfl) h

theorem gfRound_iterate (y x : U128) {n : Nat} (hn : n ≤ 128) :
    (gfRound y)^[n] (0, x, topbit) = (gfSum y n x, gfShift^[n] x, topbit >>> n) := by
  induction n with
  | zero => simp
  | succ n ih =>
    rw [Function.iterate_succ_apply', ih (by omega), Function.iterate_succ_apply', gfSum_succ, BitVec.shiftRight_add]
    simp only [gfRound, and_topbit_ushiftRight_ne_zero y hn, shr1]

theorem gfmul_eq_gfSum (x y : U128) : gfmul x y = gfSum y 128 x := by
  rw [gfmul, gfRounds_eq_iterate, gfRound_iterate y x (Nat.le_refl 128)]

/-! ### The product keeps XOR -/

/-- `f` is linear over XOR. -/
def KeepsXor (f : U128 → U128) : Prop := ∀ a b, f (a ^^^ b) = f a ^^^ f b

section KeepsXor

variable {f : U128 → U128}

theorem KeepsXor.map_zero (hf : KeepsXor f) : f 0 = 0 := by
  have h := hf 0 0
  simpa using h

theorem KeepsXor.iterate (hf : KeepsXor f) (n : Nat) : KeepsXor f^[n] := by
  induction n with
  | zero => exact fun _ _ => rfl
  | succ n ih => exact fun a b => by rw [Function.iterate_succ_apply, hf, ih]; rfl

end KeepsXor

theorem shr1_keepsXor : KeepsXor shr1 := fun a b => BitVec.ushiftRight_xor_distrib a b 1

theorem gfShift_eq (v : U128) : gfShift v = shr1 v ^^^ if v.getLsbD 0 then gfR else 0 := by
  unfold gfShift; split <;> simp

/-- The reduction is linear in the bit shifted out. -/
theorem gfShift_keepsXor : KeepsXor gfShift := by
  intro a b
  have reduction : (if (a ^^^ b).getLsbD 0 then gfR else 0) =
      (if a.getLsbD 0 then gfR else 0) ^^^ if b.getLsbD 0 then gfR else 0 := by
    rw [BitVec.getLsbD_xor]
    cases a.getLsbD 0 <;> cases b.getLsbD 0 <;> simp
  rw [gfShift_eq, gfShift_eq, gfShift_eq, reduction, shr1_keepsXor]
  ac_rfl

theorem gfSum_keepsXor (y : U128) (n : Nat) : KeepsXor (gfSum y n) := by
  intro a b
  induction n with
  | zero => simp
  | succ n ih =>
    rw [gfSum_succ, gfSum_succ, gfSum_succ, ih, gfShift_keepsXor.iterate n]
    split
    · ac_rfl
    · rfl

/-! ### The product commutes -/

/-- What is linear and commutes with the shift commutes with every product. -/
theorem gfSum_commute {f : U128 → U128} (hf : KeepsXor f) (hs : Function.Commute f gfShift) (y : U128) (n : Nat) :
    Function.Commute f (gfSum y n) := by
  intro x
  induction n with
  | zero => exact hf.map_zero
  | succ n ih =>
    rw [gfSum_succ, gfSum_succ, apply_ite f, hf, ih, hs.iterate_right n x]

/-- Products by two values, one after the other, may be taken in either order. -/
theorem gfSum_commute_gfSum (x y : U128) (m n : Nat) : Function.Commute (gfSum x m) (gfSum y n) :=
  gfSum_commute (gfSum_keepsXor x m) (gfSum_commute gfShift_keepsXor (Function.Commute.refl gfShift) x m).symm y n

theorem gfShift_iterate_topbit {n : Nat} (hn : n < 128) : gfShift^[n] topbit = topbit >>> n := by
  induction n with
  | zero => simp
  | succ n ih =>
    have low : (topbit >>> n).getLsbD 0 = false := by
      rw [getLsbD_topbit_ushiftRight]; simp; omega
    rw [Function.iterate_succ_apply', ih (by omega), gfShift, low, BitVec.shiftRight_add]
    rfl

/-- After `n` rounds on `TOPBIT` the top `n` bits of `y` are there. -/
theorem getLsbD_gfSum_topbit (y : U128) {n : Nat} (hn : n ≤ 128) {i : Nat} (hi : i < 128) :
    (gfSum y n topbit).getLsbD i = (y.getLsbD i && decide (128 - n ≤ i)) := by
  induction n with
  | zero => simp; omega
  | succ n ih =>
    have round : (gfSum y (n + 1) topbit).getLsbD i =
        ((gfSum y n topbit).getLsbD i ^^ (y.getLsbD (127 - n) && decide (n + i = 127))) := by
      rw [gfSum_succ, gfShift_iterate_topbit (by omega), ← getLsbD_topbit_ushiftRight]
      cases y.getLsbD (127 - n) <;> simp
    rw [round, ih (by omega)]
    by_cases h : n + i = 127
    · rw [show 127 - n = i by omega, decide_eq_false (show ¬ 128 - n ≤ i by omega), decide_eq_true h,
        decide_eq_true (show 128 - (n + 1) ≤ i by omega)]
      simp
    · have same : 128 - n ≤ i ↔ 128 - (n + 1) ≤ i := by omega
      simp only [decide_eq_false h, same, Bool.and_false, Bool.xor_false]

theorem topbit_gfmul (y : U128) : gfmul topbit y = y := by
  rw [gfmul_eq_gfSum]
  apply BitVec.eq_of_getLsbD_eq
  intro i hi
  rw [getLsbD_gfSum_topbit y (Nat.le_refl 128) hi]
  simp

/-- R153: `x` and `y` are both products of `TOPBIT`, and products commute. -/
theorem gfmul_comm (x y : U128) : gfmul x y = gfmul y x := by
  have key := gfSum_commute_gfSum x y 128 128 topbit
  simpa only [← gfmul_eq_gfSum, topbit_gfmul] using key.symm

@[simp] theorem gfmul_topbit (x : U128) : gfmul x topbit = x := by rw [gfmul_comm, topbit_gfmul]

theorem xor_gfmul (a b c : U128) : gfmul (a ^^^ b) c = gfmul a c ^^^ gfmul b c := by
  simp only [gfmul_eq_gfSum]
  exact gfSum_keepsXor c 128 a b

@[simp] theorem zero_gfmul (x : U128) : gfmul 0#128 x = 0#128 := by
  rw [gfmul_eq_gfSum]
  exact (gfSum_keepsXor x 128).map_zero

@[simp] theorem gfmul_zero (x : U128) : gfmul x 0#128 = 0#128 := by rw [gfmul_comm, zero_gfmul]

/-! ### Products by a power of `x` -/

/-- The product by `TOPBIT >> n` is `n` shifts of the other factor (R152: `TOPBIT >> n` stands for `x^n`). -/
theorem gfmul_topbit_ushiftRight (x : U128) {n : Nat} (hn : n < 128) : gfmul x (topbit >>> n) = gfShift^[n] x := by
  have shifts := (gfSum_commute gfShift_keepsXor (Function.Commute.refl gfShift) x 128).iterate_left n topbit
  rw [gfmul_comm, ← gfShift_iterate_topbit hn, gfmul_eq_gfSum, ← shifts, ← gfmul_eq_gfSum, topbit_gfmul]

/-- `1` is `x^127`, the last power below the degree (R152). -/
theorem one_gfmul_one : gfmul 1 1 = 0xE6080000000000000000000000000003 :=
  (gfmul_topbit_ushiftRight 1 (n := 127) (by decide)).trans (by decide +kernel)

/-- `x^127 * x` is reduced to `R` (R160). -/
theorem one_gfmul_topbit_ushiftRight_one : gfmul 1 ((1 : U128) <<< 126) = gfR :=
  (gfmul_topbit_ushiftRight 1 (n := 1) (by decide)).trans (by decide)

end Sys2Proof.Machine
end

section
/-! SUPPORT. Padding, the blocks that GHASH hashes, and the hash under the keys 0 and `TOPBIT` (41_galois.md R154 to R158). -/

namespace Sys2Proof.Machine

/-! ### The blocks -/

theorem blocksOf_pad_length (s : List Byte) : (blocksOf (pad s)).length = s.length / 16 + 1 := by
  simp [blocksOf, pad_length]

theorem blocksOf_pad_getD (s : List Byte) {i : Nat} (hi : i < s.length / 16 + 1) :
    (blocksOf (pad s)).getD i 0 = blockAt (pad s) i := by
  simp [blocksOf, pad_length, hi]

theorem ghashBlocks_length (a c : List Byte) :
    (ghashBlocks a c).length = (a.length / 16 + 1) + (c.length / 16 + 1) + 1 := by
  simp [ghashBlocks, blocksOf_pad_length, Nat.add_assoc]

/-- The AAD blocks come first. -/
theorem ghashBlocks_getD_aad (a c : List Byte) {i : Nat} (hi : i < a.length / 16 + 1) :
    (ghashBlocks a c).getD i 0 = blockAt (pad a) i := by
  rw [ghashBlocks, List.append_assoc, List.getD_append _ _ _ _ (by rwa [blocksOf_pad_length]), blocksOf_pad_getD a hi]

/-- The data blocks come next. -/
theorem ghashBlocks_getD_data (a c : List Byte) {i : Nat} (hi : i < c.length / 16 + 1) :
    (ghashBlocks a c).getD (a.length / 16 + 1 + i) 0 = blockAt (pad c) i := by
  rw [ghashBlocks, List.append_assoc, List.getD_append_right _ _ _ _ (by simp [blocksOf_pad_length]), blocksOf_pad_length,
    Nat.add_sub_cancel_left, List.getD_append _ _ _ _ (by rwa [blocksOf_pad_length]), blocksOf_pad_getD c hi]

/-- The length block comes last. -/
theorem ghashBlocks_getD_length (a c : List Byte) :
    (ghashBlocks a c).getD ((a.length / 16 + 1) + (c.length / 16 + 1)) 0 = lengthBlock a.length c.length := by
  rw [ghashBlocks, List.getD_append_right _ _ _ _ (by simp [blocksOf_pad_length])]
  simp [blocksOf_pad_length]

theorem toNat_lengthBlock {m n : Nat} (hm : m < 2 ^ 32) (hn : n < 2 ^ 32) :
    (lengthBlock m n).toNat = (8 * m) * 2 ^ 64 + 8 * n := by
  rw [lengthBlock, BitVec.toNat_append, BitVec.toNat_ofNat, BitVec.toNat_ofNat,
    Nat.mod_eq_of_lt (show 8 * m < 2 ^ 64 by omega), Nat.mod_eq_of_lt (show 8 * n < 2 ^ 64 by omega),
    ← Nat.shiftLeft_add_eq_or_of_lt (show 8 * n < 2 ^ 64 by omega), Nat.shiftLeft_eq]

/-! ### The hash of no bytes, and under the keys 0 and `TOPBIT` -/

/-- All three blocks are zero, and 0 times any key is 0. -/
theorem ghash_nil (h : U128) : ghash h [] [] = 0 := by
  have blocks : ghashBlocks [] [] = [0, 0, 0] := by decide
  rw [ghash, blocks]
  simp [ghashFold]

theorem ghash_zero_key (a c : List Byte) : ghash 0 a c = 0 :=
  List.foldl_fixed' (fun _ => gfmul_zero _) _

theorem ghash_topbit (a c : List Byte) : ghash topbit a c = (ghashBlocks a c).foldl (fun x b => x ^^^ b) 0 := by
  simp only [ghash, ghashFold, gfmul_topbit]

end Sys2Proof.Machine
end

section
/-! SUPPORT. The multiplier form is read by no command (41_galois.md R159). -/

namespace Sys2Proof.Machine

/-- The machine with the other parameters but the multiplier form `b`. -/
def State.withMult (s : State) (b : Bool) : State := { s with par := { s.par with multImpl := b } }

/-- A choice between two updates that both leave the multiplier form alone. -/
theorem ite_withMult {c : Prop} [Decidable c] {b : Bool} {s t s' t' : State} (hs : s' = s.withMult b)
    (ht : t' = t.withMult b) : (if c then s' else t') = (if c then s else t).withMult b := by
  split
  · exact hs
  · exact ht

section MultImpl

variable (s : State) (b : Bool)

theorem awaitResponse_withMult (r : Request) (take : Nat → U128 → HwState → HwState) :
    (s.withMult b).awaitResponse r take = (s.awaitResponse r take).withMult b := by
  have hp : (s.withMult b).prov = s.prov := rfl
  unfold State.awaitResponse
  rw [hp]
  match s.prov.answers with
  | [] => rfl
  | .ok :: rest => rfl
  | .err _ :: rest => rfl

theorem encryptBegin_withMult : (s.withMult b).encryptBegin = s.encryptBegin.withMult b := by
  have hs : (s.withMult b).hw.session = s.hw.session := rfl
  unfold State.encryptBegin
  rw [hs]
  cases s.hw.session with
  | none => rfl
  | used => rfl
  | fresh => exact ite_withMult rfl rfl

theorem decryptBegin_withMult : (s.withMult b).decryptBegin = s.decryptBegin.withMult b := by
  have hs : (s.withMult b).hw.session = s.hw.session := rfl
  unfold State.decryptBegin
  rw [hs]
  cases s.hw.session with
  | none => rfl
  | used => rfl
  | fresh => exact ite_withMult rfl (ite_withMult rfl rfl)

theorem encryptAdvance_withMult (k : Nat) : (s.withMult b).encryptAdvance k = (s.encryptAdvance k).withMult b := by
  match k with
  | 0 => exact encryptBegin_withMult s b
  | 1 => rfl
  | i + 2 => exact ite_withMult rfl rfl

theorem decryptAdvance_withMult (k : Nat) : (s.withMult b).decryptAdvance k = (s.decryptAdvance k).withMult b := by
  match k with
  | 0 => exact decryptBegin_withMult s b
  | 1 => rfl
  | 2 => exact ite_withMult rfl rfl
  | i + 3 => exact ite_withMult rfl rfl

end MultImpl

/-- No command changes the parameters. -/
theorem exec_par {i : Instr} {s t : State} (h : exec i s = .next t) : t.par = s.par := by
  rw [exec_writes h]; rfl

/-- Every command does the same under either multiplier form. -/
theorem exec_withMult {i : Instr} {s t : State} (b : Bool) (h : exec i s = .next t) :
    exec i (s.withMult b) = .next (t.withMult b) := by
  have hp : (s.withMult b).hw.pend = s.hw.pend := rfl
  cases i with
  | encrypt =>
    injection h with h; subst h
    refine congrArg Host.Outcome.next ?_
    rw [hp]
    cases s.hw.pend with
    | none => exact encryptAdvance_withMult s b _
    | some r => exact awaitResponse_withMult s b r _
  | decrypt =>
    injection h with h; subst h
    refine congrArg Host.Outcome.next ?_
    rw [hp]
    cases s.hw.pend with
    | none => exact decryptAdvance_withMult s b _
    | some r => exact awaitResponse_withMult s b r _
  | ghash =>
    injection h with h; subst h
    exact congrArg Host.Outcome.next (ite_withMult rfl rfl)
  | init | wXor | wAnd | wShr1 | wInc | wEq | gfMul => injection h with h; subst h; rfl

end Sys2Proof.Machine
end

section
/-! The statements on the multiplier, padding and GHASH (41_galois.md). -/

namespace Sys2Proof.Machine

/-- Settles O13: after n rounds the accumulator is the sum of the first n running values whose bit of `y` is set. -/
theorem gfMulRounds : Obligations.GfMulRounds := ⟨fun _ => rfl, gfmul_eq_gfSum⟩

/-- Settles O14: a product is a polynomial in the linear map `gfShift`, applied to the other factor. -/
theorem gfMulAlgebra : Obligations.GfMulAlgebra :=
  ⟨fun x => ⟨gfmul_topbit x, topbit_gfmul x⟩, fun x => ⟨gfmul_zero x, zero_gfmul x⟩, one_gfmul_one, gfmul_comm, xor_gfmul⟩

/-- Settles O15: the completion is the model's own; the corner cases are laws of the product. -/
theorem gfMulResult : Obligations.GfMulResult := by
  refine ⟨by decide, fun s => ⟨_, rfl, rfl, ?_, fun hb => ?_, fun ha hb => ?_⟩⟩
  · rintro (ha | hb)
    · exact (congrArg (gfmul · s.hw.opb) ha).trans (zero_gfmul _)
    · exact (congrArg (gfmul s.hw.opa) hb).trans (gfmul_zero _)
  · exact (congrArg (gfmul s.hw.opa) hb).trans (gfmul_topbit _)
  · exact (congrArg₂ gfmul ha hb).trans one_gfmul_topbit_ushiftRight_one

/-- Settles O17: the hashed blocks are the AAD's, the data's and the length block. -/
theorem ghashBlockOrder : Obligations.GhashBlockOrder := by
  intro h a c ha hc
  refine ⟨ghashBlocks a c, rfl, ghashBlocks_length a c, fun _ => ghashBlocks_getD_aad a c,
    fun _ => ghashBlocks_getD_data a c, ?_⟩
  rw [ghashBlocks_getD_length, toNat_lengthBlock ha hc]

/-- Settles O18: GHASH either fails its length check or hashes; the corner cases are those of the hash. -/
theorem ghashResult : Obligations.GhashResult := by
  refine ⟨by decide, fun s => ?_⟩
  obtain ⟨t, ht⟩ := exec_total .ghash s
  rcases execGhash_cases ht with ⟨hl, rfl⟩ | ⟨hl, rfl⟩
  · exact ⟨fun _ => ht, fun hf => absurd hf hl⟩
  · refine ⟨fun hf => absurd hl hf, fun _ => ⟨_, ht, rfl, rfl, fun ha hd => ?_, fun hk => ?_, fun hk => ?_⟩⟩
    all_goals rw [State.onHw_hw, HwState.ghashCommand_res]
    · rw [HwState.aad, HwState.data, ha, hd]
      exact ghash_nil _
    · rw [hk, ghash_zero_key]
    · rw [hk]
      exact ghash_topbit _ _

/-- Settles O19: no step of a command reads the multiplier form. -/
theorem multImplHasNoEffect : Obligations.MultImplHasNoEffect := by
  intro i s b
  obtain ⟨t, ht⟩ := exec_total i s
  exact ⟨t, ht, (exec_withMult b ht).trans (by rw [State.withMult, exec_par ht])⟩

/-- Settles O16: by the remainder of the length. -/
theorem padAlwaysAppends : Obligations.PadAlwaysAppends := fun s =>
  ⟨rfl, by omega, by omega, pad_length s⟩

end Sys2Proof.Machine
end

section
/-! SUPPORT. What a step and a run of a session operation leave of the session, the counter and the position
(42_session.md R198, R203, R216, R218). -/

namespace Sys2Proof.Machine

/-! ### Runs that keep a predicate -/

/-- Every step has a next state. -/
theorem step_total (s : State) : ∃ t, step s = .next t := by
  have turn : ∀ u, ∃ t, coreTurn u = .next t := fun u => by
    unfold coreTurn
    split
    · exact ⟨_, rfl⟩
    · split
      · exact exec_total _ _
      · exact ⟨_, rfl⟩
  unfold step
  split
  · exact turn s
  · exact turn s.popMove
  · exact ⟨_, rfl⟩
  · exact ⟨_, rfl⟩
  · exact ⟨_, rfl⟩

/-- What every step keeps holds after any number of steps. -/
theorem run_keeps {P : State → Prop} (hP : ∀ s t, P s → step s = .next t → P t) (m : Nat) {s : State} (hs : P s) :
    ∃ t, core.run m s = .next t ∧ P t := by
  induction m generalizing s with
  | zero => exact ⟨s, rfl, hs⟩
  | succ m ih =>
    obtain ⟨u, hu⟩ := step_total s
    rw [run_succ m hu]
    exact ih (hP s u hs hu)

/-! ### The start of ENCRYPT and DECRYPT, by the state of the session -/

section Start

variable {i : Instr} {s : State}

/-- The next state of an issued ENCRYPT or DECRYPT that finds no session. -/
theorem exec_issued_none (hi : sessionOperation i) (h : s.issued i) (hs : s.hw.session = .none) :
    exec i s = .next (s.completedAs s.hw 0x07 0) := by
  obtain ⟨⟨w, hp, -⟩, hn⟩ := h
  rcases hi with rfl | rfl
  · rw [execEncrypt_advance hp hn, State.encryptAdvance, State.encryptBegin, hs]; rfl
  · rw [execDecrypt_advance hp hn, State.decryptAdvance, State.decryptBegin, hs]; rfl

/-- The next state of an issued ENCRYPT or DECRYPT that finds a USED session. -/
theorem exec_issued_used (hi : sessionOperation i) (h : s.issued i) (hs : s.hw.session = .used) :
    exec i s = .next (s.completedAs s.hw 0x04 0) := by
  obtain ⟨⟨w, hp, -⟩, hn⟩ := h
  rcases hi with rfl | rfl
  · rw [execEncrypt_advance hp hn, State.encryptAdvance, State.encryptBegin, hs]; rfl
  · rw [execDecrypt_advance hp hn, State.decryptAdvance, State.decryptBegin, hs]; rfl

/-- An issued ENCRYPT or DECRYPT marks a FRESH session USED, whatever its outcome. -/
theorem exec_issued_fresh {t : State} (hi : sessionOperation i) (h : s.issued i) (hs : s.hw.session = .fresh)
    (ht : exec i s = .next t) : t.hw.session = .used := by
  obtain ⟨⟨w, hp, -⟩, hn⟩ := h
  rcases hi with rfl | rfl
  · rw [execEncrypt_advance hp hn, State.encryptAdvance, State.encryptBegin, hs] at ht
    injection ht with ht; subst ht
    dsimp only
    split <;> rfl
  · rw [execDecrypt_advance hp hn, State.decryptAdvance, State.decryptBegin, hs] at ht
    injection ht with ht; subst ht
    dsimp only
    split
    · rfl
    · split <;> rfl

end Start

/-! ### What one step of ENCRYPT or DECRYPT leaves of the session, the counter and the position -/

/-- The session stays as it is, or goes from FRESH to USED; the counter stays, or is incremented for a keystream block of the
message; the position stays, goes on by one response, or is IDLE. -/
structure SessionStep (i : Instr) (s t : State) : Prop where
  session : t.hw.session = s.hw.session ∨ (s.hw.session = .fresh ∧ t.hw.session = .used)
  ctr     : t.hw.ctr = s.hw.ctr ∨
    ∃ j, s.hw.pend = none ∧ s.hw.phase.responses = j + 2 ∧ j < blockCount (s.hw.messageLen i) ∧ t.hw.ctr = inc128 s.hw.ctr
  phase   : t.hw.phase = .idle ∨ t.hw.phase = s.hw.phase ∨ t.hw.phase = s.hw.phase.next

section Steps

variable {i : Instr} {s t : State} {w : Word} {k : Nat}

theorem encrypt_sessionStep (h : exec .encrypt s = .next t) : SessionStep .encrypt s t := by
  rcases execEncrypt_cases h with ⟨r, -, -, rfl⟩ | ⟨r, rest, -, -, rfl⟩ | ⟨r, c, rest, -, -, rfl⟩ | ⟨-, -, hb⟩ |
    ⟨-, -, rfl⟩ | ⟨j, hn, hk, hj, rfl⟩ | ⟨j, -, -, -, rfl⟩
  · exact ⟨.inl rfl, .inl rfl, .inr (.inl rfl)⟩
  · exact ⟨.inl (HwState.takeBlock_session ..), .inl (HwState.takeBlock_ctr ..), .inr (.inr (HwState.takeBlock_phase ..))⟩
  · exact ⟨.inl rfl, .inl rfl, .inl rfl⟩
  · rcases hb with ⟨-, rfl⟩ | ⟨-, rfl⟩ | ⟨hf, -, rfl⟩ | ⟨hf, -, rfl⟩
    · exact ⟨.inl rfl, .inl rfl, .inl rfl⟩
    · exact ⟨.inl rfl, .inl rfl, .inl rfl⟩
    · exact ⟨.inr ⟨hf, rfl⟩, .inl rfl, .inl rfl⟩
    · exact ⟨.inr ⟨hf, rfl⟩, .inl rfl, .inr (.inl rfl)⟩
  · exact ⟨.inl rfl, .inl rfl, .inr (.inl rfl)⟩
  · exact ⟨.inl rfl, .inr ⟨j, hn, hk, hj, rfl⟩, .inr (.inl rfl)⟩
  · exact ⟨.inl (HwState.encryptFinish_session _), .inl (HwState.encryptFinish_ctr _), .inl rfl⟩

theorem decrypt_sessionStep (h : exec .decrypt s = .next t) : SessionStep .decrypt s t := by
  rcases execDecrypt_cases h with ⟨r, -, -, rfl⟩ | ⟨r, rest, -, -, rfl⟩ | ⟨r, c, rest, -, -, rfl⟩ | ⟨-, -, hb⟩ |
    ⟨-, -, rfl⟩ | ⟨hn, hk, hv⟩ | ⟨j, hn, hk, hj, rfl⟩ | ⟨j, -, -, -, rfl⟩
  · exact ⟨.inl rfl, .inl rfl, .inr (.inl rfl)⟩
  · exact ⟨.inl (HwState.takeBlock_session ..), .inl (HwState.takeBlock_ctr ..), .inr (.inr (HwState.takeBlock_phase ..))⟩
  · exact ⟨.inl rfl, .inl rfl, .inl rfl⟩
  · rcases hb with ⟨-, rfl⟩ | ⟨-, rfl⟩ | ⟨hf, -, rfl⟩ | ⟨hf, -, -, rfl⟩ | ⟨hf, -, -, rfl⟩
    · exact ⟨.inl rfl, .inl rfl, .inl rfl⟩
    · exact ⟨.inl rfl, .inl rfl, .inl rfl⟩
    · exact ⟨.inr ⟨hf, rfl⟩, .inl rfl, .inl rfl⟩
    · exact ⟨.inr ⟨hf, rfl⟩, .inl rfl, .inl rfl⟩
    · exact ⟨.inr ⟨hf, rfl⟩, .inl rfl, .inr (.inl rfl)⟩
  · exact ⟨.inl rfl, .inl rfl, .inr (.inl rfl)⟩
  · rcases hv with ⟨-, rfl⟩ | ⟨-, rfl⟩
    · exact ⟨.inl rfl, .inl rfl, .inl rfl⟩
    · exact ⟨.inl rfl, .inr ⟨0, hn, hk, Nat.succ_pos _, rfl⟩, .inr (.inl rfl)⟩
  · exact ⟨.inl rfl, .inr ⟨j + 1, hn, hk, hj, rfl⟩, .inr (.inl rfl)⟩
  · exact ⟨.inl rfl, .inl rfl, .inl rfl⟩

theorem sessionOperation_step (hi : sessionOperation i) (h : exec i s = .next t) : SessionStep i s t := by
  rcases hi with rfl | rfl
  · exact encrypt_sessionStep h
  · exact decrypt_sessionStep h

/-! ### What one step of any command leaves of them -/

/-- INIT, GHASH and the commands of the WideInt128 and GF units complete in one step. -/
theorem exec_completes (hi : ¬ sessionOperation i) (h : exec i s = .next t) : t.hw.phase = .idle := by
  cases i with
  | encrypt | decrypt => exact absurd (by decide) hi
  | ghash => rcases execGhash_cases h with ⟨-, rfl⟩ | ⟨-, rfl⟩ <;> rfl
  | init =>
    injection h with h; subst h
    rw [State.onHw_hw]
    rcases initCommand_cases s.hw with ⟨-, -, e⟩ | ⟨-, -, e⟩ | ⟨-, e⟩ <;> rw [e] <;> rfl
  | wXor | wAnd | wShr1 | wInc | wEq | gfMul => injection h with h; subst h; rfl

/-- A step of a command goes on with the same command word, or completes. -/
theorem exec_keeps_word (hp : s.hw.phase = .exec w k) (h : exec i s = .next t) :
    t.hw.phase = .idle ∨ ∃ k', t.hw.phase = .exec w k' := by
  by_cases hi : sessionOperation i
  · obtain ⟨-, -, hphase⟩ := sessionOperation_step hi h
    rw [hp] at hphase
    rcases hphase with hphase | hphase | hphase
    · exact .inl hphase
    · exact .inr ⟨k, hphase⟩
    · exact .inr ⟨k + 1, hphase⟩
  · exact .inl (exec_completes hi h)

/-- Only INIT and the session operations change `SESSION`, the latter from FRESH to USED (R216). -/
theorem exec_session (hi : i ≠ .init) (h : exec i s = .next t) :
    t.hw.session = s.hw.session ∨ (s.hw.session = .fresh ∧ t.hw.session = .used) := by
  by_cases hs : sessionOperation i
  · exact (sessionOperation_step hs h).session
  · obtain ⟨hsession, -⟩ := withWritten_session (h := s.hw) (g := t.hw) hs hi
    exact .inl (by rw [exec_writes h]; exact hsession)

end Steps

/-! ### A session that no INIT and no reset ends -/

/-- The session is USED, and neither the running command nor a move to come is an INIT or the reset. -/
structure State.StaysUsed (s : State) : Prop where
  used    : s.hw.session = .used
  running : ∀ w k, s.hw.phase = .exec w k → decode w ≠ .ok .init
  noReset : Move.reset ∉ s.env.moves
  noInit  : ∀ w, Move.write 0x00C w ∈ s.env.moves → decode w ≠ .ok .init

/-- A state with the same session and position, and only moves to come that were to come before. -/
theorem State.StaysUsed.congr {s t : State} (h : s.StaysUsed) (hs : t.hw.session = s.hw.session)
    (hp : t.hw.phase = s.hw.phase) (hm : ∀ m ∈ t.env.moves, m ∈ s.env.moves) : t.StaysUsed where
  used := hs.trans h.used
  running w k hk := h.running w k (hp.symm.trans hk)
  noReset hr := h.noReset (hm _ hr)
  noInit w hw := h.noInit w (hm _ hw)

theorem State.StaysUsed.popMove {s : State} (h : s.StaysUsed) : s.popMove.StaysUsed :=
  h.congr rfl rfl fun _ => List.mem_of_mem_tail

theorem State.StaysUsed.busRead {s : State} (h : s.StaysUsed) (a : Word) : (s.busRead a).StaysUsed := by
  rcases busRead_cases s a with ⟨f, -, e⟩ | ⟨l, -, e⟩ <;> rw [e] <;> exact h.congr rfl rfl fun _ => id

/-- A host write issues no INIT unless it writes its word to `COMMAND`. -/
theorem State.StaysUsed.busWrite {s : State} (h : s.StaysUsed) {a d : Word} (hd : a = 0x00C → decode d ≠ .ok .init) :
    (s.busWrite a d).StaysUsed := by
  rcases busWrite_cases s a d with ⟨f, -, e⟩ | ⟨l, hl, e⟩
  · rw [e]; exact h.congr rfl rfl fun _ => id
  · have hs : (s.hw.writeLoc l d).session = s.hw.session := HwState.writeLoc_session ..
    rw [e]
    by_cases hc : l = .command
    · subst hc
      obtain ⟨-, hloc, -⟩ := busCheck_ok hl
      refine ⟨hs.trans h.used, fun w k hk => ?_, h.noReset, h.noInit⟩
      injection hk with hw
      exact hw ▸ hd (BitVec.eq_of_toNat_eq (locate_command hloc))
    · exact h.congr hs (writeLoc_phase_of_ne hc) fun _ => id

theorem State.StaysUsed.coreTurn {s t : State} (h : s.StaysUsed) (ht : coreTurn s = .next t) : t.StaysUsed := by
  have idle : t.hw.session = .used → t.hw.phase = .idle → t.StaysUsed := fun hu hp =>
    ⟨hu, fun w k hk => absurd (hp.symm.trans hk) nofun, coreTurn_env ht ▸ h.noReset, coreTurn_env ht ▸ h.noInit⟩
  rcases coreTurn_cases ht with ⟨-, rfl⟩ | ⟨w, k, e, -, -, rfl⟩ | ⟨w, k, i, hp, hd, hx⟩
  · exact h
  · exact idle h.used rfl
  · have hi : i ≠ .init := fun e => h.running w k hp (e ▸ hd)
    have hu : t.hw.session = .used := (exec_session hi hx).elim (·.trans h.used) And.right
    rcases exec_keeps_word hp hx with hid | ⟨k', hp'⟩
    · exact idle hu hid
    · refine ⟨hu, fun w' k'' hk => ?_, coreTurn_env ht ▸ h.noReset, coreTurn_env ht ▸ h.noInit⟩
      rw [hp'] at hk
      injection hk with hw
      exact hw ▸ h.running w k hp

/-- No step ends such a session (R218). -/
theorem step_keeps_staysUsed (s t : State) (h : s.StaysUsed) (ht : step s = .next t) : t.StaysUsed := by
  rcases step_cases ht with ⟨a, ms, -, rfl⟩ | ⟨a, d, ms, hm, rfl⟩ | ⟨ms, hm, -⟩ | ⟨-, hc⟩
  · exact h.popMove.busRead a
  · exact h.popMove.busWrite fun ha => h.noInit d (by rw [hm, ha]; exact List.mem_cons_self)
  · exact absurd (hm ▸ List.mem_cons_self) h.noReset
  · exact h.popMove.coreTurn hc

end Sys2Proof.Machine
end

section
/-! SUPPORT. A silent provider, and what the invariant says of the session and the counter (42_session.md R182, R203, R216). -/

namespace Sys2Proof.Machine

/-! ### A request that is never answered -/

/-- A host write to an address that is not gated writes `IRQ_EN`, or clears `DONE`. -/
theorem writeLoc_of_not_gated (h : HwState) {l : Loc} (hl : l.gated = false) (d : Word) :
    ∃ b c, h.writeLoc l d = { h with irqEn := b, done := h.done && c } := by
  cases l with
  | id | maxAad | maxData | hwcfg => exact ⟨h.irqEn, true, by rw [Bool.and_true]; rfl⟩
  | ctrl => exact ⟨d.getLsbD 0, true, by rw [Bool.and_true]; rfl⟩
  | status =>
    refine ⟨h.irqEn, !d.getLsbD 1, ?_⟩
    rw [HwState.writeLoc_status, HwState.writeStatus]
    cases d.getLsbD 1 with
    | true => rw [Bool.not_true, Bool.and_false]; rfl
    | false => rw [Bool.not_false, Bool.and_true]; rfl
  | _ => cases hl

/-- The command of word `w` waits at position k for the answer to `r`; no answer and no reset is to come. -/
structure State.Hangs (w : Word) (k : Nat) (r : Request) (s : State) : Prop where
  busy    : s.hw.busy = true
  done    : s.hw.done = false
  phase   : s.hw.phase = .exec w k
  pend    : s.hw.pend = some r
  silent  : s.prov.answers = []
  noReset : Move.reset ∉ s.env.moves

section Hangs

variable {s t : State} {w : Word} {k : Nat} {r : Request}

/-- A state that waits alike: its block differs in what such a write does, and only moves are to come that were before. -/
theorem State.Hangs.congr (h : s.Hangs w k r) {b c : Bool} (hw : t.hw = { s.hw with irqEn := b, done := s.hw.done && c })
    (hp : t.prov = s.prov) (hm : ∀ m ∈ t.env.moves, m ∈ s.env.moves) : t.Hangs w k r where
  busy := by rw [hw]; exact h.busy
  done := by rw [hw, h.done]; rfl
  phase := by rw [hw]; exact h.phase
  pend := by rw [hw]; exact h.pend
  silent := by rw [hp]; exact h.silent
  noReset hr := h.noReset (hm _ hr)

/-- The same with the block as it was. -/
theorem State.Hangs.sameBlock (h : s.Hangs w k r) (hw : t.hw = s.hw) (hp : t.prov = s.prov)
    (hm : ∀ m ∈ t.env.moves, m ∈ s.env.moves) : t.Hangs w k r :=
  h.congr (b := s.hw.irqEn) (c := true) (by rw [hw, Bool.and_true]) hp hm

theorem State.Hangs.popMove (h : s.Hangs w k r) : s.popMove.Hangs w k r :=
  h.sameBlock rfl rfl fun _ => List.mem_of_mem_tail

theorem State.Hangs.busRead (h : s.Hangs w k r) (a : Word) : (s.busRead a).Hangs w k r := by
  rcases busRead_cases s a with ⟨f, -, e⟩ | ⟨l, -, e⟩ <;> rw [e] <;> exact h.sameBlock rfl rfl fun _ => id

/-- The gate keeps the host from the running command. -/
theorem State.Hangs.busWrite (h : s.Hangs w k r) (a d : Word) : (s.busWrite a d).Hangs w k r := by
  rcases busWrite_cases s a d with ⟨f, -, e⟩ | ⟨l, hl, e⟩
  · rw [e]; exact h.sameBlock rfl rfl fun _ => id
  · obtain ⟨-, -, hg⟩ := busCheck_ok hl
    have hl : l.gated = false := Bool.eq_false_iff.mpr fun g => absurd (h.busy.symm.trans (hg g)) (by decide)
    obtain ⟨b, c, hw⟩ := writeLoc_of_not_gated s.hw hl d
    rw [e]; exact h.congr hw rfl fun _ => id

/-- The controller's turn waits on. -/
theorem coreTurn_hangs {i : Instr} (hi : sessionOperation i) (hd : decode w = .ok i) (h : s.Hangs w k r) :
    coreTurn s = .next s := by
  have await : ∀ take, s.awaitResponse r take = s := fun take => by rw [State.awaitResponse, h.silent]
  rw [coreTurn_command h.phase hd]
  rcases hi with rfl | rfl
  · rw [execEncrypt_await h.pend, await]
  · rw [execDecrypt_await h.pend, await]

/-- No step but the reset ends the wait (R182). -/
theorem step_keeps_hangs {i : Instr} (hi : sessionOperation i) (hd : decode w = .ok i) (s t : State) (h : s.Hangs w k r)
    (ht : step s = .next t) : t.Hangs w k r := by
  rcases step_cases ht with ⟨a, ms, -, rfl⟩ | ⟨a, d, ms, -, rfl⟩ | ⟨ms, hm, -⟩ | ⟨-, hc⟩
  · exact h.popMove.busRead a
  · exact h.popMove.busWrite a d
  · exact absurd (hm ▸ List.mem_cons_self) h.noReset
  · rw [coreTurn_hangs hi hd h.popMove] at hc
    injection hc with hc
    exact hc ▸ h.popMove

end Hangs

/-! ### The session of a command that has not acted -/

/-- The session that INIT leaves. -/
theorem initCommand_session (h : HwState) :
    h.initCommand.session =
      if (h.keyLen = 16 ∨ h.keyLen = 24 ∨ h.keyLen = 32) ∧ h.nonceLen = 12 then .fresh else .none := by
  rcases initCommand_cases h with ⟨hk, hn, e⟩ | ⟨-, hn, e⟩ | ⟨hk, e⟩ <;> rw [e]
  · rw [if_pos ⟨(legalKeyLen_iff _).mp hk, hn⟩]; rfl
  · rw [if_neg fun c => hn c.2]; rfl
  · rw [if_neg fun c => hk ((legalKeyLen_iff _).mpr c.1)]; rfl

section Invariant

variable {s : State} {i : Instr} {w : Word} {k : Nat}

/-- An ENCRYPT or DECRYPT that does not find the session USED has not acted yet (R198, R215). -/
theorem State.Inv.issued_of_not_used (I : s.Inv) (hi : sessionOperation i) (hr : s.hw.runs i k)
    (hs : s.hw.session ≠ .used) : s.issued i := by
  by_cases hk : k ≠ 0 ∨ s.hw.pend ≠ none
  · obtain ⟨hu, -⟩ := I.progress i k hi hr hk
    exact absurd hu hs
  · obtain ⟨hk0, hn⟩ := not_or.mp hk
    rw [not_not] at hk0 hn
    exact ⟨hk0 ▸ hr, hn⟩

/-- `CTR[31:0]` is at most `1 + 2^26` in every session state (R203). -/
theorem State.Inv.ctr_low_le (I : s.Inv) : (s.hw.ctr.extractLsb' 0 32).toNat ≤ 1 + 2 ^ 26 := by
  cases hs : s.hw.session with
  | none =>
    obtain ⟨-, -, hc, -⟩ := I.noSession hs
    rw [hc]; decide
  | fresh =>
    obtain ⟨hc, -⟩ := I.freshSession hs
    rw [hc]; decide
  | used => exact (I.usedCounter hs).2

/-- Before the increment for keystream block j, counted from 0, `CTR[31:0]` is `1 + j`, and j is below `2^26` (R201, R203). -/
theorem State.Inv.ctr_low_eq (I : s.Inv) (hi : sessionOperation i) (hr : s.hw.runs i k) {j : Nat} (hn : s.hw.pend = none)
    (hk : s.hw.phase.responses = j + 2) (hj : j < blockCount (s.hw.messageLen i)) :
    (s.hw.ctr.extractLsb' 0 32).toNat = 1 + j ∧ j < 2 ^ 26 := by
  have hkj : k = j + 2 := by
    obtain ⟨w, hp, -⟩ := hr
    rw [hp] at hk
    exact hk
  obtain ⟨-, -, ⟨-, hl⟩, -, hc, -⟩ := I.progress i k hi hr (.inl (by omega))
  rw [hn, Option.isSome_none, hkj] at hc
  have hm : s.hw.messageLen i ≤ s.par.maxData := by
    rcases hi with rfl | rfl
    · exact hl
    · exact (cipherLen_le s.hw).trans hl
  exact ⟨hc, hj.trans_le (blockCount_le hm)⟩

end Invariant

/-- An increment that does not carry out of bit 31 leaves `CTR[127:32]` alone (R203). -/
theorem inc128_high {c : U128} (h : (c.extractLsb' 0 32).toNat + 1 < 2 ^ 32) :
    (inc128 c).extractLsb' 32 96 = c.extractLsb' 32 96 := by
  apply BitVec.eq_of_toNat_eq
  rw [BitVec.extractLsb'_toNat, Nat.shiftRight_zero] at h
  rw [BitVec.extractLsb'_toNat, BitVec.extractLsb'_toNat, toNat_inc128, Nat.shiftRight_eq_div_pow,
    Nat.shiftRight_eq_div_pow]
  have := c.isLt
  omega

end Sys2Proof.Machine
end

section
/-! SUPPORT. What INIT makes of key and nonce, and the comparison of tags (42_session.md R190, R191, R214). -/

namespace Sys2Proof.Machine

/-! ### The counter of a new session -/

/-- One more byte below a 128-bit value. -/
theorem toNat_shiftLeft_or_byte {acc : U128} (h : acc.toNat < 2 ^ 120) (b : Byte) :
    (acc <<< 8 ||| b.setWidth 128).toNat = 256 * acc.toNat + b.toNat := by
  have hb := b.isLt
  rw [BitVec.toNat_or, BitVec.toNat_shiftLeft, BitVec.toNat_setWidth,
    Nat.mod_eq_of_lt (by rw [Nat.shiftLeft_eq]; omega), Nat.mod_eq_of_lt (by omega),
    ← Nat.shiftLeft_add_eq_or_of_lt hb, Nat.shiftLeft_eq]
  omega

/-- The value of a byte string, the first byte the most significant, where it fits above a value of k bits. -/
theorem toNat_foldl_byte (s : List Byte) {acc : U128} {k : Nat} (hk : k + 8 * s.length ≤ 128) (ha : acc.toNat < 2 ^ k) :
    (s.foldl (fun (x : U128) b => (x <<< 8) ||| b.setWidth 128) acc).toNat =
      s.foldl (fun n b => 256 * n + b.toNat) acc.toNat := by
  induction s generalizing acc k with
  | nil => rfl
  | cons b s ih =>
    rw [List.length_cons] at hk
    have step := toNat_shiftLeft_or_byte (ha.trans_le (Nat.pow_le_pow_right (by decide) (show k ≤ 120 by omega))) b
    have hb := b.isLt
    rw [List.foldl_cons, List.foldl_cons, ← step]
    refine ih (k := k + 8) (by omega) ?_
    rw [step, Nat.pow_add]
    omega

/-- `BE128` as a number. -/
theorem toNat_be128 {s : List Byte} (h : s.length = 16) :
    (be128 s).toNat = s.foldl (fun n b => 256 * n + b.toNat) 0 :=
  toNat_foldl_byte s (k := 0) (by omega) (by decide)

/-- `counter0` is the nonce above a 32-bit 1 (R191). -/
theorem toNat_counter0 (h : HwState) :
    h.counter0.toNat = h.nonceb.toList.foldl (fun n b => 256 * n + b.toNat) 0 * 2 ^ 32 + 1 := by
  rw [HwState.counter0, toNat_be128 (by simp), List.foldl_append]
  simp only [List.foldl_cons, List.foldl_nil, BitVec.ofNat_eq_ofNat, BitVec.toNat_ofNat]
  omega

theorem counter0_low (h : HwState) : h.counter0.extractLsb' 0 32 = 1 := by
  apply BitVec.eq_of_toNat_eq
  rw [BitVec.extractLsb'_toNat, Nat.shiftRight_zero, toNat_counter0]
  change _ = 1
  omega

/-- The session's copy of the key: the first `kl` bytes, then zeros (R190). -/
theorem windowByte_keyCopy (h : HwState) (kl : Nat) {i : Nat} (hi : i < 32) :
    windowByte (h.keyCopy kl) i = if i < kl then windowByte h.keyb i else 0 := by
  simp [windowByte, HwState.keyCopy, hi]

/-! ### The comparison of tags -/

/-- `CT_DIFF` pair by pair. -/
theorem ctDiff_eq_foldl (te tg : U128) :
    ctDiff te tg =
      (List.range 16).foldl (fun d k => d ||| ((ser128 te).getD k 0 ^^^ (ser128 tg).getD k 0)) 0 := by
  have pairs : List.zipWith (fun a b => a ^^^ b) (ser128 te) (ser128 tg) =
      (List.range 16).map fun k => (ser128 te).getD k 0 ^^^ (ser128 tg).getD k 0 := by
    conv_lhs => rw [eq_sixteen (ser128_length te), eq_sixteen (ser128_length tg), List.zipWith_map, List.zipWith_self]
  rw [ctDiff, pairs, List.foldl_map]

/-- An OR of bytes is 0 exactly when each is. -/
theorem foldl_or_eq_zero_iff (f : Nat → Byte) (l : List Nat) (d : Byte) :
    l.foldl (fun d k => d ||| f k) d = 0 ↔ d = 0 ∧ ∀ k ∈ l, f k = 0 := by
  induction l generalizing d with
  | nil => simp
  | cons a l ih =>
    rw [List.foldl_cons, ih, List.forall_mem_cons, ← and_assoc]
    exact and_congr_left' BitVec.or_eq_zero_iff

/-- The tags match exactly when `CT_DIFF` is 0 (R214). -/
theorem ctDiff_eq_zero_iff (te tg : U128) : ctDiff te tg = 0 ↔ te = tg := by
  rw [ctDiff_eq_foldl, foldl_or_eq_zero_iff]
  constructor
  · rintro ⟨-, h⟩
    apply ser128_injective
    rw [eq_sixteen (ser128_length te), eq_sixteen (ser128_length tg)]
    exact List.map_congr_left fun k hk => BitVec.xor_eq_zero_iff.mp (h k hk)
  · rintro rfl
    exact ⟨rfl, fun k _ => BitVec.xor_self⟩

end Sys2Proof.Machine
end

section
/-! SUPPORT. Whole ENCRYPT and DECRYPT commands under a host that waits (42_session.md R196, R197, R200, R210, R212, R213). -/

namespace Sys2Proof.Machine

/-! ### The buffers after the keystream blocks -/

/-- A stored byte string is read back. -/
theorem memRead_memWrite {m : List Host.Cell} (h : Memory.wf m) (addr : Nat) (bs : List Byte) :
    memRead (memWrite m addr bs) addr bs.length = bs := by
  apply List.ext_getElem (memRead_length ..)
  intro i _ hi
  simp only [memRead, List.getElem_map, List.getElem_range]
  rw [memWrite_read h, if_pos ⟨by omega, by omega⟩, Nat.add_sub_cancel_left, List.getD_eq_getElem _ _ hi]

/-- The buffers after all keystream blocks of a message of n bytes. -/
def State.memProcessed (s : State) (n : Nat) : List Host.Cell :=
  memAfter s.hw.mem (s.hw.data n) s.keystream (blockCount n)

section Processed

variable {s : State} (h : Memory.wf s.hw.mem) (n : Nat)
include h

theorem memProcessed_wf : Memory.wf (s.memProcessed n) := memAfter_wf h _ _ _

/-- All bytes of the message are processed, and no other. -/
theorem memProcessed_read (a : Nat) :
    Memory.read (s.memProcessed n) a =
      if outBase ≤ a ∧ a < outBase + n then
        Memory.read s.hw.mem (dataBase + (a - outBase)) ^^^ s.keystreamByte (a - outBase)
      else Memory.read s.hw.mem a := by
  have hl : (s.hw.data n).length = n := memRead_length ..
  rw [State.memProcessed, memAfter_read h _ _ _ (by rw [hl, blockCount]), hl,
    Nat.min_eq_left (show n ≤ 16 * blockCount n by simp only [blockCount]; omega)]
  split
  · next ha => rw [HwState.data, memRead_getD _ _ _ _ (by omega)]; rfl
  · rfl

theorem memProcessed_read_output {j : Nat} (hj : j < n) :
    Memory.read (s.memProcessed n) (outBase + j) = Memory.read s.hw.mem (dataBase + j) ^^^ s.keystreamByte j := by
  rw [memProcessed_read h, if_pos ⟨by omega, by omega⟩, Nat.add_sub_cancel_left]

theorem memProcessed_read_other {a : Nat} (ha : a < outBase ∨ outBase + n ≤ a) :
    Memory.read (s.memProcessed n) a = Memory.read s.hw.mem a := by
  rw [memProcessed_read h, if_neg (by omega)]

/-- The AAD is read as it was. -/
theorem memProcessed_aad (hl : s.lengthsFit) : memRead (s.memProcessed n) aadBase s.hw.aadLen.toNat = s.hw.aad := by
  have ha := maxAad_lt s.par
  obtain ⟨hfit, -⟩ := hl
  exact memRead_congr fun i hi => memProcessed_read_other h n (.inl (by simp only [aadBase, outBase]; omega))

end Processed

/-! ### What a whole command leaves alone -/

theorem CommandFrame.trans {s t u : State} (h : CommandFrame s t) (g : CommandFrame t u) : CommandFrame s u where
  eq := g.eq.trans h.eq
  keyLen := g.keyLen.trans h.keyLen
  nonceLen := g.nonceLen.trans h.nonceLen
  aadLen := g.aadLen.trans h.aadLen
  dataLen := g.dataLen.trans h.dataLen
  keyb := g.keyb.trans h.keyb
  nonceb := g.nonceb.trans h.nonceb
  opa := g.opa.trans h.opa
  opb := g.opb.trans h.opb
  res := g.res.trans h.res
  skeyb := g.skeyb.trans h.skeyb
  skl := g.skl.trans h.skl
  par := g.par.trans h.par
  known := g.known.trans h.known

/-- One step of ENCRYPT or DECRYPT keeps to its row of R102. -/
theorem exec_commandFrame {i : Instr} {s t : State} (hi : sessionOperation i) (h : exec i s = .next t) :
    CommandFrame s t :=
  (frameOfSessionOperations i s t hi h).1.toCommandFrame

theorem mid_commandFrame (s : State) (w : Word) (msg : List Byte) (g : U128) (rest : List Answer) (j : Nat) :
    CommandFrame s (mid s w msg g rest j) :=
  ⟨rfl, rfl, rfl, rfl, rfl, rfl, rfl, rfl, rfl, rfl, rfl, rfl, rfl, rfl⟩

theorem withHost_mem (s : State) (b d : Bool) (e : Env) : (s.withHost b d e).hw.mem = s.hw.mem := rfl

theorem withHost_commandFrame (s : State) (b d : Bool) (e : Env) : CommandFrame s (s.withHost b d e) :=
  ⟨rfl, rfl, rfl, rfl, rfl, rfl, rfl, rfl, rfl, rfl, rfl, rfl, rfl, rfl⟩

/-! ### The controller alone -/

/-- The state with no move to come, so that every turn is the controller's. -/
def State.quiet (s : State) : State := { s with env := { s.env with moves := [] } }

section Command

variable {s : State} {i : Instr} {n : Nat} {w : Word}

/-- The next `k + 2` answers, the first two apart. -/
theorem answers_first_two {k : Nat} (h : s.providerOk (k + 2)) :
    s.prov.answers = .ok :: .ok :: (List.replicate k .ok ++ s.prov.answers.drop (k + 2)) :=
  answers_split h

/-- A session operation asks for H and Eky0 in its first four turns. -/
theorem run_first_four (hi : sessionOperation i) (R : s.ReadyFor i n) (hp : s.hw.phase = .exec w 0) (hd : decode w = .ok i)
    {rest : List Answer} (ha : s.prov.answers = .ok :: .ok :: rest) (msg : List Byte) :
    core.run 4 s.quiet = .next (mid s.quiet w msg s.hw.gacc rest 0) := by
  obtain ⟨-, hn⟩ := R.issued
  exact first_four (s := s.quiet) hi rfl hp hd hn R.fresh R.lengths R.short rest ha msg

/-- A command that the controller alone has run up to its last turn ends with that turn when the host waits meanwhile. -/
theorem run_last_turn {N c : Nat} {t : State} {msg : List Byte} {g : U128} {rest : List Answer} {j : Nat}
    (hi : sessionOperation i) (hd : decode w = .ok i) (W : s.Waits N (c + 1))
    (hrun : core.run c s.quiet = .next (mid s.quiet w msg g rest j)) (ht : exec i (mid s.quiet w msg g rest j) = .next t)
    (hidle : t.hw.phase = .idle) :
    ∃ u, core.run N s = .next u ∧ HostWaited s u N ∧ CommandFrame s u ∧ u = t.withHost u.hw.irqEn true u.env := by
  obtain ⟨u, hu, hw, he⟩ := run_waits W hrun (by rw [mid_phase]; exact nofun)
    ((coreTurn_command (mid_phase ..) hd).trans ht) hidle
  have quiet : CommandFrame s s.quiet := ⟨rfl, rfl, rfl, rfl, rfl, rfl, rfl, rfl, rfl, rfl, rfl, rfl, rfl, rfl⟩
  refine ⟨u, hu, hw, ?_, he⟩
  rw [he]
  exact ((quiet.trans (mid_commandFrame ..)).trans (exec_commandFrame hi ht)).trans (withHost_commandFrame ..)

/-! ### ENCRYPT -/

/-- ENCRYPT before its last turn: all keystream blocks are taken. -/
def encryptDone (s : State) (n : Nat) (w : Word) : State :=
  mid s.quiet w (s.hw.data n) s.hw.gacc (s.prov.answers.drop (blockCount n + 2)) (blockCount n)

/-- The controller alone, up to the last turn of ENCRYPT. -/
theorem run_encrypt (R : s.ReadyFor .encrypt n) (hok : s.providerOk (blockCount n + 2)) (hp : s.hw.phase = .exec w 0)
    (hd : decode w = .ok .encrypt) : core.run (2 * (blockCount n + 2)) s.quiet = .next (encryptDone s n w) := by
  obtain rfl : n = s.hw.dataLen.toNat := R.message
  rw [show 2 * (blockCount s.hw.dataLen.toNat + 2) = 4 + 2 * blockCount s.hw.dataLen.toNat by omega,
    run_add _ _ (run_first_four (.inl rfl) R hp hd (answers_first_two hok) _)]
  exact enc_pairs (s := s.quiet) rfl hd R.canonical R.lengths _ (Nat.le_refl _)

/-- The last turn of ENCRYPT. -/
theorem exec_encryptDone (hn : n = s.hw.dataLen.toNat) :
    exec .encrypt (encryptDone s n w) = .next ((encryptDone s n w).onHw HwState.encryptFinish) := by
  rw [execEncrypt_advance (s := encryptDone s n w) (mid_phase ..) rfl, encryptAdvance_finish (hn ▸ Nat.le_refl _)]

/-- The buffers after the last turn of ENCRYPT: the tag stands behind the ciphertext. -/
theorem encryptDone_mem (R : s.ReadyFor .encrypt n) :
    (encryptDone s n w).hw.encryptFinish.mem =
      memWrite (s.memProcessed n) (outBase + n) (ser128 (s.tagOf (memRead (s.memProcessed n) outBase n))) := by
  have hn : n = s.hw.dataLen.toNat := R.message
  have haad : (encryptDone s n w).hw.aad = s.hw.aad := memProcessed_aad R.canonical n R.lengths
  have hlen : (encryptDone s n w).hw.dataLen.toNat = n := hn.symm
  rw [HwState.encryptFinish_mem, haad, hlen]
  rfl

/-- The end of ENCRYPT completes with the output shown, whatever the tag (R196). -/
theorem encryptFinish_eq (h : HwState) :
    ∃ g m, h.encryptFinish = (HwState.showOutput { h with gacc := g, mem := m } (h.dataLen + 16)).finish :=
  ⟨_, _, congrArg (fun x => (HwState.showOutput x (h.dataLen + 16)).finish) rfl⟩

/-- The outcome of a whole ENCRYPT, from what its last turn leaves (R196, R197, R200). -/
theorem encryptResult_of_last {u : State} (R : s.ReadyFor .encrypt n) (F : CommandFrame s u)
    (hu : u = ((encryptDone s n w).onHw HwState.encryptFinish).withHost u.hw.irqEn true u.env) : EncryptResult s u n := by
  have hn : n = s.hw.dataLen.toNat := R.message
  have hmem : u.hw.mem =
      memWrite (s.memProcessed n) (outBase + n) (ser128 (s.tagOf (memRead (s.memProcessed n) outBase n))) := by
    rw [hu, withHost_mem, State.onHw_hw, encryptDone_mem R]
  have wf := memProcessed_wf R.canonical n
  have cipher : ∀ j, j < n → Memory.read u.hw.mem (outBase + j) = Memory.read (s.memProcessed n) (outBase + j) :=
    fun j hj => by rw [hmem, memWrite_read_outside _ _ _ (.inl (by omega))]
  have hd := maxData_lt s.par
  obtain ⟨-, hfit⟩ := R.lengths
  obtain ⟨g, m, e⟩ := encryptFinish_eq (encryptDone s n w).hw
  rw [State.onHw, e] at hu
  refine ⟨?_, F, ?_, ?_, fun j hj => ?_, ?_, fun a ha => ?_, ?_, ?_, ?_, ?_, ?_, ?_⟩
  · rw [hu]; exact ⟨rfl, rfl, rfl, rfl, rfl, rfl, rfl⟩
  · rw [hu]; rfl
  · rw [hu]
    show (s.hw.dataLen + 16).toNat = n + 16
    rw [BitVec.toNat_add, hn]
    exact Nat.mod_eq_of_lt (by show s.hw.dataLen.toNat + 16 < _; omega)
  · rw [cipher j hj, memProcessed_read_output R.canonical n hj]
  · have hc : memRead u.hw.mem outBase n = memRead (s.memProcessed n) outBase n := memRead_congr cipher
    rw [hc, hmem]
    exact memRead_memWrite wf (outBase + n) (ser128 _)
  · rw [hmem, memWrite_read_outside _ _ _ (by rw [ser128_length]; omega),
      memProcessed_read_other R.canonical n (by omega)]
  · rw [hmem]; exact memWrite_wf wf _ _
  · rw [hu]; rfl
  · rw [hu]; rfl
  · rw [hu]; rfl
  · rw [hu]; rfl
  · rw [hu]; rfl

/-! ### DECRYPT -/

/-- DECRYPT before its last turn: the tag was good, and all keystream blocks are taken. -/
def decryptDone (s : State) (n : Nat) (w : Word) : State :=
  mid s.quiet w (s.hw.data n) (decryptHash s) (s.prov.answers.drop (blockCount n + 2)) (blockCount n)

/-- The fifth turn of DECRYPT goes on exactly when the given tag is the expected one (R212, R214). -/
theorem step_verify (hd : decode w = .ok .decrypt) (rest : List Answer) :
    step (mid s.quiet w (s.hw.data s.hw.cipherLen) s.hw.gacc rest 0) =
      if s.hw.givenTag s.hw.cipherLen = s.tagOf (s.hw.data s.hw.cipherLen) then
        .next (waiting s.quiet w (s.hw.data s.hw.cipherLen) (decryptHash s) rest 0)
      else
        .next ((mid s.quiet w (s.hw.data s.hw.cipherLen) (decryptHash s) rest 0).onHw fun h =>
          h.raise .authTagValidation 0) :=
  (dec_verify (s := s.quiet) rfl hd).trans
    ((ite_not ..).trans (if_congr ((ctDiff_eq_zero_iff _ _).trans eq_comm) rfl rfl))

/-- The controller alone, up to the last turn of a DECRYPT with a good tag. -/
theorem run_decrypt (R : s.ReadyFor .decrypt n) (hok : s.providerOk (blockCount n + 2)) (hp : s.hw.phase = .exec w 0)
    (hd : decode w = .ok .decrypt) (htag : s.hw.givenTag n = s.tagOf (s.hw.data n)) :
    core.run (2 * (blockCount n + 2)) s.quiet = .next (decryptDone s n w) := by
  obtain rfl : n = s.hw.cipherLen := R.message
  rw [show 2 * (blockCount s.hw.cipherLen + 2) = 4 + ((2 * (s.hw.cipherLen / 16) + 1) + 1) by
      simp only [blockCount]; omega,
    run_add _ _ (run_first_four (.inr rfl) R hp hd (answers_first_two hok) _),
    run_succ _ ((step_verify hd _).trans (if_pos htag))]
  exact dec_pairs (s := s.quiet) rfl hd R.canonical R.lengths _ (Nat.lt_succ_self _)

/-- The last turn of DECRYPT. -/
theorem exec_decryptDone (hn : n = s.hw.cipherLen) :
    exec .decrypt (decryptDone s n w) = .next ((decryptDone s n w).onHw HwState.decryptFinish) := by
  rw [execDecrypt_advance (s := decryptDone s n w) (mid_phase ..) rfl, blockCount,
    decryptAdvance_finish (hn ▸ Nat.le_refl _)]

/-- The outcome of a whole DECRYPT, from what its last turn leaves (R210, R213, R200). -/
theorem decryptResult_of_last {u : State} (R : s.ReadyFor .decrypt n) (F : CommandFrame s u)
    (hu : u = ((decryptDone s n w).onHw HwState.decryptFinish).withHost u.hw.irqEn true u.env) : DecryptResult s u n := by
  have hn : n = s.hw.cipherLen := R.message
  have h16 := R.short rfl
  have hmem : u.hw.mem = s.memProcessed n := congrArg (fun x => x.hw.mem) hu
  refine ⟨?_, F, ?_, ?_, fun j hj => ?_, fun a ha => ?_, ?_, ?_, ?_, ?_, ?_, ?_⟩
  · rw [hu]; exact ⟨rfl, rfl, rfl, rfl, rfl, rfl, rfl⟩
  · rw [hu]; rfl
  · rw [hu]
    show (s.hw.dataLen - 16).toNat = n
    rw [BitVec.toNat_sub_of_le (by simpa [BitVec.le_def] using h16), hn]
    rfl
  · rw [hmem, memProcessed_read_output R.canonical n hj]
  · rw [hmem, memProcessed_read_other R.canonical n ha]
  · rw [hmem]; exact memProcessed_wf R.canonical n
  · rw [hu]; rfl
  · rw [hu]; rfl
  · rw [hu]; rfl
  · rw [hu]; rfl
  · rw [hu]; rfl

/-- The turn of DECRYPT that finds a wrong tag (R212). -/
theorem exec_tagRejected {rest : List Answer} (hd : decode w = .ok .decrypt) (hn : n = s.hw.cipherLen)
    (htag : s.hw.givenTag n ≠ s.tagOf (s.hw.data n)) :
    exec .decrypt (mid s.quiet w (s.hw.data n) s.hw.gacc rest 0) =
      .next ((mid s.quiet w (s.hw.data n) (decryptHash s) rest 0).onHw fun h => h.raise .authTagValidation 0) := by
  subst hn
  exact (step_quiet rfl (mid_phase ..) hd).symm.trans ((step_verify hd rest).trans (if_neg htag))

/-- The outcome of a DECRYPT with a wrong tag, from what its last turn leaves (R212, R200, R215). -/
theorem tagRejected_of_last {u : State} {msg : List Byte} {g : U128} {rest : List Answer} (F : CommandFrame s u)
    (hu : u = ((mid s.quiet w msg g rest 0).onHw fun h => h.raise .authTagValidation 0).withHost u.hw.irqEn true u.env) :
    TagRejected s u := by
  have hblocks : requestBlocks s.hw.ctr 0 = [0, s.hw.ctr] :=
    congrArg (fun c => [0, c]) (counterAfter_zero s.hw.ctr)
  refine ⟨?_, F, ?_, ?_, ?_, ?_, ?_⟩
  · rw [hu]; exact ⟨rfl, rfl, rfl, rfl, rfl, rfl, rfl⟩
  · rw [hu]; rfl
  · rw [hu]; rfl
  · rw [hu]; rfl
  · rw [hu]; exact counterAfter_zero s.hw.ctr
  · rw [hu]
    show s.prov.seen ++ (requestBlocks s.hw.ctr 0).map s.hw.request = _
    rw [hblocks]
    rfl

end Command

end Sys2Proof.Machine
end

section
/-! SUPPORT. Sessions made from the same key and nonce (42_session.md R190, R217). -/

namespace Sys2Proof.Machine

/-- Two stretches of memory hold the same byte string exactly when they agree byte by byte. -/
theorem memRead_eq_iff {m m' : List Host.Cell} {a a' n : Nat} :
    memRead m a n = memRead m' a' n ↔ ∀ j, j < n → Memory.read m (a + j) = Memory.read m' (a' + j) := by
  simp only [memRead, List.map_inj_left, List.mem_range]

theorem SameSession.symm {g h : HwState} (S : SameSession g h) : SameSession h g :=
  ⟨S.skeyb.symm, S.skl.symm, S.ctr.symm, S.session.symm⟩

theorem SameSession.trans {f g h : HwState} (S : SameSession f g) (T : SameSession g h) : SameSession f h :=
  ⟨S.skeyb.trans T.skeyb, S.skl.trans T.skl, S.ctr.trans T.ctr, S.session.trans T.session⟩

/-- An INIT that leaves a FRESH session has copied key and nonce. -/
theorem init_fresh {s t : State} (h : exec .init s = .next t) (hf : t.hw.session = .fresh) :
    SameSession t.hw s.hw.newSession := by
  injection h with h
  subst h
  rw [State.onHw_hw] at hf ⊢
  rcases initCommand_cases s.hw with ⟨-, -, e⟩ | ⟨-, -, e⟩ | ⟨-, e⟩ <;> rw [e] at hf ⊢
  · exact ⟨rfl, rfl, rfl, rfl⟩
  · cases hf
  · cases hf

/-- INIT makes the same session from the same key length, key bytes and nonce, whatever the key bytes past the length. -/
theorem newSession_sameSession {g h : HwState} (hl : g.keyLen = h.keyLen) (hn : g.nonceb = h.nonceb)
    (hk : ∀ x, x < g.keyLen.toNat → windowByte g.keyb x = windowByte h.keyb x) :
    SameSession g.newSession h.newSession where
  skeyb := by
    have copy : g.keyCopy g.keyLen.toNat = h.keyCopy g.keyLen.toNat := keyCopy_congr (h := h) (key := g.keyb) hk
    rw [HwState.newSession_skeyb, HwState.newSession_skeyb, copy, hl]
  skl := by rw [HwState.newSession_skl, HwState.newSession_skl, hl]
  ctr := by rw [HwState.newSession_ctr, HwState.newSession_ctr, HwState.counter0, HwState.counter0, hn]
  session := rfl

section SameCipher

variable {s u : State} (S : SameSession u.hw s.hw) (hknown : u.prov.known = s.prov.known)
include S hknown

theorem sessionCipher_congr (b : U128) : u.sessionCipher b = s.sessionCipher b := by
  rw [State.sessionCipher, HwState.request, S.skeyb, S.skl]
  exact value_congr hknown _

theorem keystreamByte_congr (j : Nat) : u.keystreamByte j = s.keystreamByte j := by
  rw [State.keystreamByte, State.keystream, S.ctr, sessionCipher_congr S hknown]
  rfl

theorem tagOf_congr (haad : u.hw.aad = s.hw.aad) (c : List Byte) : u.tagOf c = s.tagOf c := by
  rw [State.tagOf, State.subkey, State.tagMask, S.ctr, haad, sessionCipher_congr S hknown, sessionCipher_congr S hknown]
  rfl

end SameCipher

end Sys2Proof.Machine
end

section
/-! The statements on the session commands (42_session.md). -/

namespace Sys2Proof.Machine

/-- Settles O20: the three ends of INIT; the counter is `BE128` as a number. -/
theorem initResult : Obligations.InitResult := by
  refine ⟨by decide, fun s => ⟨fun hk hn => ?_, fun h16 h24 h32 => ?_, fun hk hn => ?_⟩⟩
  · have hinit := initCommand_ok ((legalKeyLen_iff _).mpr hk) hn
    refine ⟨s.onHw fun h => h.hideOutput.newSession.finish, ?_, fun i hi => windowByte_keyCopy s.hw _ hi, ?_, rfl,
      counter0_low s.hw, toNat_counter0 s.hw, rfl⟩
    · rw [State.onHw, ← hinit]; rfl
    · show (s.hw.keyLen.setWidth 6).toNat = s.hw.keyLen.toNat
      rcases hk with hk | hk | hk <;> rw [hk] <;> rfl
  · refine congrArg (fun h => Host.Outcome.next { s with hw := h }) (initCommand_badKey fun hk => ?_)
    exact ((legalKeyLen_iff _).mp hk).elim h16 fun hk => hk.elim h24 h32
  · exact congrArg (fun h => Host.Outcome.next { s with hw := h }) (initCommand_badNonce ((legalKeyLen_iff _).mpr hk) hn)

/-- Settles O26: the bytes of equal length pair up, and an OR is 0 exactly when all its parts are. -/
theorem tagComparison : Obligations.TagComparison := fun te tg => ⟨ctDiff_eq_foldl te tg, ctDiff_eq_zero_iff te tg⟩

/-- Settles O27: the controller alone runs up to the last turn, and a host that waits does not disturb it. -/
theorem encryptRunsToCompletion : Obligations.EncryptRunsToCompletion := by
  intro s n N R hok W
  obtain ⟨⟨w, hp, hd⟩, -⟩ := R.issued
  obtain ⟨u, hrun, hwait, F, hu⟩ :=
    run_last_turn (.inl rfl) hd W (run_encrypt R hok hp hd) (exec_encryptDone R.message) rfl
  exact ⟨u, hrun, encryptResult_of_last R F hu, hwait⟩

/-- Settles O28: as O27, past the decision on a good tag. -/
theorem decryptRunsToCompletion : Obligations.DecryptRunsToCompletion := by
  intro s n N R hok htag W
  obtain ⟨⟨w, hp, hd⟩, -⟩ := R.issued
  obtain ⟨u, hrun, hwait, F, hu⟩ :=
    run_last_turn (.inr rfl) hd W (run_decrypt R hok hp hd htag) (exec_decryptDone R.message) rfl
  exact ⟨u, hrun, decryptResult_of_last R F hu, hwait⟩

/-- Settles O29: the tag is decided on in the fifth turn, before any keystream request. -/
theorem decryptFailsClosed : Obligations.DecryptFailsClosed := by
  intro s n N R hok htag W
  obtain ⟨⟨w, hp, hd⟩, -⟩ := R.issued
  obtain ⟨u, hrun, hwait, F, hu⟩ := run_last_turn (.inr rfl) hd W
    (run_first_four (.inr rfl) R hp hd (answers_first_two hok) _) (exec_tagRejected hd R.message htag) rfl
  exact ⟨u, hrun, tagRejected_of_last F hu, hwait⟩

/-- Settles O31: both sessions have the same key, keystream and tag, so that the tag is good and the XOR undoes itself. -/
theorem roundTrip : Obligations.RoundTrip := by
  intro s₀ u₀ s₁ u₁ s t u n N M hlen hnonce hkey hs hu Ss Su Rs oks Ws ht Ru oku Wu hknown haad hdata
  obtain ⟨t', ht', E, -⟩ := encryptRunsToCompletion s n N Rs oks Ws
  obtain rfl : t = t' := by rw [ht] at ht'; injection ht'
  have S : SameSession u.hw s.hw :=
    ((Su.trans (init_fresh hu (Su.session.symm.trans Ru.fresh))).trans (newSession_sameSession hlen hnonce hkey).symm).trans
      ((init_fresh hs (Ss.session.symm.trans Rs.fresh)).symm.trans Ss.symm)
  rw [E.outLen] at hdata
  have input := memRead_eq_iff.mp hdata
  have cipher : u.hw.data n = memRead t.hw.mem outBase n := memRead_eq_iff.mpr fun j hj => input j (by omega)
  have tag : memRead u.hw.mem (dataBase + n) 16 = memRead t.hw.mem (outBase + n) 16 := memRead_eq_iff.mpr fun j hj => by
    rw [Nat.add_assoc, Nat.add_assoc, input (n + j) (by omega)]
  have good : u.hw.givenTag n = u.tagOf (u.hw.data n) := by
    rw [HwState.givenTag, tag, E.tag, be128_ser128, cipher, tagOf_congr S hknown haad]
  obtain ⟨v, hv, D, -⟩ := decryptRunsToCompletion u n M Ru oku good Wu
  refine ⟨v, hv, D.ended.errcode, D.ended.done, D.outValid, ?_⟩
  rw [D.outLen]
  refine memRead_eq_iff.mpr fun j hj => ?_
  rw [D.plaintext j hj, input j (by omega), E.ciphertext j hj, keystreamByte_congr S hknown, BitVec.xor_assoc,
    BitVec.xor_self, BitVec.xor_zero]

/-- Settles O32: the waiting command is kept by every step but the reset. -/
theorem silentProviderHangs : Obligations.SilentProviderHangs := by
  refine ⟨fun s i k r hi ⟨w, hp, hd⟩ hr hb hdone ha hm m => ?_, fun s ms hm => ?_⟩
  · obtain ⟨t, ht, h⟩ := run_keeps (step_keeps_hangs hi hd) m ⟨hb, hdone, hp, hr, ha, hm⟩
    exact ⟨t, ht, h.busy, h.done, h.phase.trans hp.symm, h.pend⟩
  · refine ⟨s.popMove.resetEvent, ?_, rfl, rfl, rfl⟩
    unfold step
    rw [hm]

/-- Settles O33: that no INIT and no reset is to come is kept with the session by every step. -/
theorem usedSessionStaysUsed : Obligations.UsedSessionStaysUsed := by
  intro s hu hr hn hi m
  obtain ⟨t, ht, h⟩ := run_keeps step_keeps_staysUsed m (s := s) ⟨hu, hr, hn, hi⟩
  exact ⟨t, ht, h.used, fun i hi hx => exec_issued_used hi hx h.used⟩

/-- Settles O34: INIT and the session operations row by row; every other command's row of R102 lists no session. -/
theorem sessionTransitions : Obligations.SessionTransitions := by
  intro s t w k I hp ht
  refine ⟨fun hd => ?_, fun hd => ?_, fun h1 h2 h3 => ?_⟩
  · rw [coreTurn_command hp hd] at ht
    injection ht with ht
    exact ht ▸ initCommand_session s.hw
  · obtain ⟨i, hi, hd⟩ : ∃ i, sessionOperation i ∧ decode w = .ok i :=
      hd.elim (fun hd => ⟨_, .inl rfl, hd⟩) fun hd => ⟨_, .inr rfl, hd⟩
    rw [coreTurn_command hp hd] at ht
    have issued := I.issued_of_not_used hi ⟨w, hp, hd⟩
    refine ⟨fun hs => ?_, fun hs => ?_, fun hs => ?_, fun hs hk hn => ?_⟩
    · rw [exec_issued_none hi (issued (by rw [hs]; decide)) hs] at ht
      injection ht with ht
      exact ht.symm
    · exact exec_issued_fresh hi (issued (by rw [hs]; decide)) hs ht
    · exact (sessionOperation_step hi ht).session.elim (·.trans hs) And.right
    · rw [exec_issued_used hi ⟨⟨w, hk ▸ hp, hd⟩, hn⟩ hs] at ht
      injection ht with ht
      exact ht.symm
  · rcases coreTurn_cases ht with ⟨-, rfl⟩ | ⟨w', k', e, -, -, rfl⟩ | ⟨w', k', i, hp', hd, hx⟩
    · rfl
    · rfl
    · rw [hp] at hp'
      injection hp' with hw
      subst hw
      have hs : ¬ sessionOperation i := fun hi => hi.elim (fun e => h2 (e ▸ hd)) fun e => h3 (e ▸ hd)
      obtain ⟨hsession, -⟩ := withWritten_session (h := s.hw) (g := t.hw) hs fun e => h1 (e ▸ hd)
      rw [exec_writes hx]
      exact hsession

/-- Settles O36: the counter stays, or is incremented below `1 + 2^26`. -/
theorem counterNeverCarries : Obligations.CounterNeverCarries := by
  intro s t i k I hi hr ht
  rcases (sessionOperation_step hi ht).ctr with hc | ⟨j, hn, hk, hj, hc⟩ <;> rw [hc]
  · exact ⟨rfl, Nat.le_refl _, I.ctr_low_le⟩
  · obtain ⟨hlow, hj⟩ := I.ctr_low_eq hi hr hn hk hj
    rw [inc128_low hlow (by omega)]
    exact ⟨inc128_high (by omega), by omega, by omega⟩

end Sys2Proof.Machine
end

section
/-! SUPPORT. What the end of a command leaves: the session operations that end with an error, and the level of `irq`
(60_exceptions.md R241, R245, R246, R250). -/

namespace Sys2Proof.Machine

/-! ### A length above its buffer (R241) -/

section Lengths

variable {i : Instr} {s : State}

/-- GHASH has no session check before the length check. -/
theorem exec_ghash_tooLong (hl : s.lengthsTooLong = true) : exec .ghash s = .next (s.completedAs s.hw 0x08 0) :=
  congrArg Host.Outcome.next (if_pos hl)

theorem encryptBegin_tooLong (hs : s.hw.session = .fresh) (hl : s.lengthsTooLong = true) :
    s.encryptBegin = s.completedAs s.hw.claimed 0x08 0 := by
  unfold State.encryptBegin
  rw [hs]
  exact if_pos hl

theorem decryptBegin_tooLong (hs : s.hw.session = .fresh) (hl : s.lengthsTooLong = true) :
    s.decryptBegin = s.completedAs s.hw.claimed 0x08 0 := by
  unfold State.decryptBegin
  rw [hs]
  exact if_pos hl

/-- An issued ENCRYPT or DECRYPT claims its FRESH session before the length check. -/
theorem exec_issued_tooLong (hi : sessionOperation i) (h : s.issued i) (hs : s.hw.session = .fresh)
    (hl : s.lengthsTooLong = true) : exec i s = .next (s.completedAs s.hw.claimed 0x08 0) := by
  obtain ⟨⟨w, hp, -⟩, hn⟩ := h
  rcases hi with rfl | rfl
  · rw [execEncrypt_advance hp hn, State.encryptAdvance, encryptBegin_tooLong hs hl]
  · rw [execDecrypt_advance hp hn, State.decryptAdvance, decryptBegin_tooLong hs hl]

end Lengths

/-! ### How a session operation fails (R246) -/

/-- The step from `s` to `t` ends ENCRYPT or DECRYPT with an error: the session check rejects the command, the operand checks
fail once the session is claimed, or the command fails after its first request and leaves the output register as it is. -/
inductive FailsBy (s t : State) : Prop where
  | sessionCheck {c : Byte} (code : c = 0x07 ∨ c = 0x04) (ends : t = s.completedAs s.hw c 0)
  | operandCheck {c : Byte} (no7 : c ≠ 0x07) (no4 : c ≠ 0x04) (ends : t = s.completedAs s.hw.claimed c 0)
  | running (no7 : t.hw.errcode ≠ 0x07) (no4 : t.hw.errcode ≠ 0x04)
      (begun : s.hw.phase.responses ≠ 0 ∨ s.hw.pend ≠ none)
      (outValid : t.hw.outValid = s.hw.outValid) (outLen : t.hw.outLen = s.hw.outLen)

section Fails

variable {i : Instr} {s t : State} {k : Nat}

theorem Phase.next_ne_idle {p : Phase} (hp : p ≠ .idle) : p.next ≠ .idle := by
  cases p with
  | idle => exact absurd rfl hp
  | exec w k => exact nofun

/-- A response with a block does not end the command. -/
theorem takeBlock_received_ne_idle {h : HwState} (hp : h.phase ≠ .idle) (msg : List Byte) (k : Nat) (v : U128) :
    (h.received.takeBlock msg k v).phase ≠ .idle := by
  rw [HwState.takeBlock_phase]
  exact Phase.next_ne_idle hp

/-- A provider error ends the command with `BlockCipherError`. -/
theorem failsBy_providerError {r : Request} {c : Word} {p : Provider} (hr : s.hw.pend = some r)
    (ht : t = { s with prov := p, hw := s.hw.received.raise .blockCipherError c }) : FailsBy s t := by
  subst ht
  exact .running nofun nofun (.inr (by rw [hr]; exact nofun)) rfl rfl

theorem encrypt_failsBy (hp : s.hw.phase ≠ .idle) (h : exec .encrypt s = .next t) (ht : t.hw.phase = .idle)
    (he : t.hw.errcode ≠ 0) : FailsBy s t := by
  rcases execEncrypt_cases h with ⟨r, -, -, rfl⟩ | ⟨r, rest, -, -, rfl⟩ | ⟨r, c, rest, hr, -, e⟩ | ⟨-, -, hb⟩ |
    ⟨-, -, rfl⟩ | ⟨j, -, -, -, rfl⟩ | ⟨j, -, -, -, rfl⟩
  · exact absurd ht hp
  · exact absurd ht (takeBlock_received_ne_idle hp _ _ _)
  · exact failsBy_providerError hr e
  · rcases hb with ⟨-, rfl⟩ | ⟨-, rfl⟩ | ⟨-, -, rfl⟩ | ⟨-, -, rfl⟩
    · exact .sessionCheck (.inl rfl) rfl
    · exact .sessionCheck (.inr rfl) rfl
    · exact .operandCheck (c := 0x08) nofun nofun rfl
    · exact absurd ht hp
  · exact absurd ht hp
  · exact absurd ht hp
  · exact absurd (HwState.encryptFinish_errcode s.hw) he

theorem decrypt_failsBy (hp : s.hw.phase ≠ .idle) (h : exec .decrypt s = .next t) (ht : t.hw.phase = .idle)
    (he : t.hw.errcode ≠ 0) : FailsBy s t := by
  rcases execDecrypt_cases h with ⟨r, -, -, rfl⟩ | ⟨r, rest, -, -, rfl⟩ | ⟨r, c, rest, hr, -, e⟩ | ⟨-, -, hb⟩ |
    ⟨-, -, rfl⟩ | ⟨-, hk, hv⟩ | ⟨j, -, -, -, rfl⟩ | ⟨j, -, -, -, rfl⟩
  · exact absurd ht hp
  · exact absurd ht (takeBlock_received_ne_idle hp _ _ _)
  · exact failsBy_providerError hr e
  · rcases hb with ⟨-, rfl⟩ | ⟨-, rfl⟩ | ⟨-, -, rfl⟩ | ⟨-, -, -, rfl⟩ | ⟨-, -, -, rfl⟩
    · exact .sessionCheck (.inl rfl) rfl
    · exact .sessionCheck (.inr rfl) rfl
    · exact .operandCheck (c := 0x08) nofun nofun rfl
    · exact .operandCheck (c := 0x03) nofun nofun rfl
    · exact absurd ht hp
  · exact absurd ht hp
  · rcases hv with ⟨-, rfl⟩ | ⟨-, rfl⟩
    · exact .running nofun nofun (.inl (by rw [hk]; exact nofun)) rfl rfl
    · exact absurd ht hp
  · exact absurd ht hp
  · exact absurd rfl he

theorem sessionOperation_failsBy (hi : sessionOperation i) (hp : s.hw.phase ≠ .idle) (h : exec i s = .next t)
    (ht : t.hw.phase = .idle) (he : t.hw.errcode ≠ 0) : FailsBy s t := by
  rcases hi with rfl | rfl
  · exact encrypt_failsBy hp h ht he
  · exact decrypt_failsBy hp h ht he

/-- Past the session check the output is hidden: by the claim of the session, or by the invariant of a command that has sent a
request. -/
theorem FailsBy.output_hidden (F : FailsBy s t) (I : s.Inv) (hi : sessionOperation i) (hr : s.hw.runs i k)
    (h7 : t.hw.errcode ≠ 0x07) (h4 : t.hw.errcode ≠ 0x04) : t.hw.outValid = false ∧ t.hw.outLen = 0 := by
  cases F with
  | sessionCheck code ends =>
    subst ends
    exact absurd code (not_or.mpr ⟨h7, h4⟩)
  | operandCheck no7 no4 ends => subst ends; exact ⟨rfl, rfl⟩
  | running no7 no4 begun outValid outLen =>
    have hk : s.hw.phase.responses = k := by
      obtain ⟨w, hp, -⟩ := hr
      rw [hp]; rfl
    obtain ⟨-, hidden, -⟩ := I.progress i k hi hr (hk ▸ begun)
    rw [outValid, outLen]
    exact ⟨hidden, I.hiddenOutput hidden⟩

/-- The codes of the session check come from it alone. -/
theorem FailsBy.rejected (F : FailsBy s t) (hc : t.hw.errcode = 0x07 ∨ t.hw.errcode = 0x04) :
    t = s.completedAs s.hw t.hw.errcode 0 := by
  cases F with
  | sessionCheck code ends => subst ends; rfl
  | operandCheck no7 no4 ends =>
    subst ends
    exact absurd hc (not_or.mpr ⟨no7, no4⟩)
  | running no7 no4 begun outValid outLen => exact absurd hc (not_or.mpr ⟨no7, no4⟩)

end Fails

/-- INIT hides the output in every case (R190). -/
theorem initCommand_hides (h : HwState) : h.initCommand.outValid = false ∧ h.initCommand.outLen = 0 := by
  rcases initCommand_cases h with ⟨-, -, e⟩ | ⟨-, -, e⟩ | ⟨-, e⟩ <;> rw [e] <;> exact ⟨rfl, rfl⟩

/-! ### The level of `irq` (R250) -/

/-- The controller's turn that completes a command sets `DONE`; no turn of it writes `IRQ_EN`. -/
theorem coreTurn_completes_done {s t : State} (h : coreTurn s = .next t) (hp : s.hw.phase ≠ .idle)
    (ht : t.hw.phase = .idle) : t.hw.done = true ∧ t.hw.irqEn = s.hw.irqEn := by
  obtain ⟨d, hd, hdone⟩ := coreTurn_withHost h s.hw.irqEn s.hw.done s.env
  rw [withHost_self, h] at hd
  injection hd with hd
  rw [hd]
  exact ⟨hdone hp ht, rfl⟩

theorem irq_of_not_done {h : HwState} (hd : h.done = false) : h.irq = false := by
  rw [HwState.irq, hd, Bool.and_false]

end Sys2Proof.Machine
end

section
/-! The statements on completion, errors and the interrupt (60_exceptions.md). -/

namespace Sys2Proof.Machine

/-- Settles O22: the length check is GHASH's first, and comes after the claim of the session in ENCRYPT and DECRYPT. -/
theorem lengthCheck : Obligations.LengthCheck := by
  intro s hl
  have hlong := (lengthsTooLong_eq_true_iff s).mpr hl
  exact ⟨exec_ghash_tooLong hlong, fun _ hi h hs => exec_issued_tooLong hi h hs hlong⟩

/-- Settles O37: `RES` and `EQ` change on success alone; the output by how INIT and the session operations fail. -/
theorem noPartialResults : Obligations.NoPartialResults := by
  intro s t i k I hr h ht he
  have hp : s.hw.phase ≠ .idle := fun hp => not_runs_of_idle hp i k hr
  have fails : sessionOperation i → FailsBy s t := fun hi => sessionOperation_failsBy hi hp h ht he
  refine ⟨?_, ?_, fun hi => ?_, fun hi h7 h4 => (fails hi).output_hidden I hi hr h7 h4, fun hi hc => ?_⟩
  · by_contra hne
    obtain ⟨-, hok, -⟩ := exec_changes_res h hne
    exact he hok
  · by_contra hne
    obtain ⟨-, hok, -⟩ := exec_changes_eq h hne
    exact he hok
  · subst hi
    injection h with h
    exact h ▸ initCommand_hides s.hw
  · rw [(fails hi).rejected hc]
    exact ⟨rfl, rfl, fun _ => rfl⟩

/-- Settles O52: a completion sets `DONE`; the acknowledgement and the issue clear it. -/
theorem interruptLevel : Obligations.InterruptLevel := by
  refine ⟨fun _ => rfl, fun s t h hp ht => ?_, fun s => irq_of_not_done ?_, fun s w hb => irq_of_not_done ?_⟩
  · obtain ⟨hdone, hirq⟩ := coreTurn_completes_done h hp ht
    rw [HwState.irq, hdone, hirq, Bool.and_true]
  · rw [afterWrite_hw (l := .status) rfl nofun]; rfl
  · rw [afterWrite_hw (l := .command) rfl fun _ => hb]; rfl

end Sys2Proof.Machine
end

section
/-! SUPPORT. The moves one by one, the first command after a reset, and a block without a session that no INIT opens
(70_reset_and_hazards.md R270, R274). -/

namespace Sys2Proof.Machine

theorem decode_encode (i : Instr) : decode (encode i) = .ok i := by cases i <;> rfl

@[simp] theorem windowByte_replicate_zero (n i : Nat) : windowByte (Vector.replicate n (0 : Byte)) i = 0 := by
  unfold windowByte
  split
  · exact Vector.getElem_replicate _
  · rfl

/-! ### One move -/

section Moves

variable {s t : State} {ms : List Move} {w : Word} {k : Nat}

theorem step_reset (hm : s.env.moves = .reset :: ms) : step s = .next s.popMove.resetEvent := by
  unfold step; rw [hm]

/-- An accepted write of a command word issues it. -/
theorem step_issue (hm : s.env.moves = .write 0x00C w :: ms) (hb : s.hw.busy = false) :
    step s = .next ((s.popMove.onHw fun h => h.issue w).respond .written) := by
  have hc : s.popMove.busCheck 0x00C = .ok .command := busCheck_register (off := 0x00C) rfl fun _ => hb
  unfold step
  rw [hm]
  exact congrArg Host.Outcome.next (busWrite_of hc w)

theorem step_core (hm : s.env.moves = .core :: ms) : step s = coreTurn s.popMove := by
  unfold step; rw [hm]

/-- A step takes the first move off and adds none. -/
theorem step_moves (h : step s = .next t) : t.env.moves = s.env.moves.tail := by
  rcases step_cases h with ⟨a, ms, -, rfl⟩ | ⟨a, d, ms, -, rfl⟩ | ⟨ms, -, rfl⟩ | ⟨-, hc⟩
  · rcases busRead_cases s.popMove a with ⟨f, -, e⟩ | ⟨l, -, e⟩ <;> rw [e] <;> rfl
  · rcases busWrite_cases s.popMove a d with ⟨f, -, e⟩ | ⟨l, -, e⟩ <;> rw [e] <;> rfl
  · rfl
  · rw [coreTurn_env hc]; rfl

/-- The word that runs after a step ran before it, or the step is the host's write of it to `COMMAND`. -/
theorem step_running (h : step s = .next t) (hp : t.hw.phase = .exec w k) :
    (∃ k', s.hw.phase = .exec w k') ∨ ∃ ms, s.env.moves = .write 0x00C w :: ms := by
  rcases step_cases h with ⟨a, ms, -, rfl⟩ | ⟨a, d, ms, hm, rfl⟩ | ⟨ms, -, rfl⟩ | ⟨-, hc⟩
  · rcases busRead_cases s.popMove a with ⟨f, -, e⟩ | ⟨l, -, e⟩ <;> rw [e] at hp <;> exact .inl ⟨k, hp⟩
  · rcases busWrite_cases s.popMove a d with ⟨f, -, e⟩ | ⟨l, hl, e⟩ <;> rw [e] at hp
    · exact .inl ⟨k, hp⟩
    · by_cases hcmd : l = .command
      · subst hcmd
        obtain ⟨-, hloc, -⟩ := busCheck_ok hl
        have ha : a = 0x00C := BitVec.eq_of_toNat_eq (locate_command hloc)
        injection hp with hw
        exact .inr ⟨ms, by rw [hm, ha, hw]⟩
      · exact .inl ⟨k, (writeLoc_phase_of_ne hcmd).symm.trans hp⟩
  · cases hp
  · rcases coreTurn_cases hc with ⟨-, rfl⟩ | ⟨w', k', e, -, -, rfl⟩ | ⟨w', k', i, hp', -, hx⟩
    · exact .inl ⟨k, hp⟩
    · cases hp
    · rcases exec_keeps_word hp' hx with hid | ⟨k'', hw⟩
      · exact absurd (hid.symm.trans hp) nofun
      · have hww : Phase.exec w' k'' = .exec w k := hw.symm.trans hp
        injection hww with hww
        exact .inl ⟨k', hww ▸ hp'⟩

/-- No command but INIT makes a session where there is none. -/
theorem exec_keeps_noSession {i : Instr} (hi : i ≠ .init) (hs : s.hw.session = .none) (h : exec i s = .next t) :
    t.hw.session = .none := by
  rcases exec_session hi h with e | ⟨hf, -⟩
  · exact e.trans hs
  · exact absurd (hs.symm.trans hf) nofun

/-- Without a session and with no INIT running, no step makes one. -/
theorem step_keeps_noSession (hs : s.hw.session = .none) (hr : ∀ w k, s.hw.phase = .exec w k → decode w ≠ .ok .init)
    (h : step s = .next t) : t.hw.session = .none := by
  by_contra hne
  have changed : t.hw.session ≠ s.hw.session := fun e => hne (e.trans hs)
  rcases step_changes (item := HwState.session) HwState.writeLoc_session (fun _ => rfl) h changed with
    ⟨ms, hm⟩ | ⟨i, k, ⟨w, hp, hd⟩, hx⟩
  · rw [step_reset hm] at h
    injection h with h
    exact hne (h ▸ rfl)
  · exact hne (exec_keeps_noSession (s := s.popMove) (fun e => hr w k hp (e ▸ hd)) hs hx)

end Moves

/-! ### A block without a session, and no INIT to come -/

/-- There is no session, and neither the running command nor a host write to come is an INIT. -/
structure State.StaysWithoutSession (s : State) : Prop where
  noSession : s.hw.session = .none
  running   : ∀ w k, s.hw.phase = .exec w k → decode w ≠ .ok .init
  noInit    : ∀ w, Move.write 0x00C w ∈ s.env.moves → decode w ≠ .ok .init

/-- No step opens a session there, the reset included (R274). -/
theorem step_keeps_staysWithoutSession (s t : State) (h : s.StaysWithoutSession) (ht : step s = .next t) :
    t.StaysWithoutSession where
  noSession := step_keeps_noSession h.noSession h.running ht
  running w k hp := by
    rcases step_running ht hp with ⟨k', hp'⟩ | ⟨ms, hm⟩
    · exact h.running w k' hp'
    · exact h.noInit w (hm ▸ List.mem_cons_self)
  noInit w hw := h.noInit w (List.mem_of_mem_tail (step_moves ht ▸ hw))

/-! ### The first command after a reset -/

section First

variable {i : Instr} {s t : State}

/-- The WideInt128 commands, GF_MUL and, with lengths that fit, GHASH complete with code 0. -/
theorem exec_succeeds (hi : ¬ sessionOperation i) (hn : i ≠ .init) (hl : s.lengthsFit) (h : exec i s = .next t) :
    t = s.completedAs t.hw 0 0 := by
  cases i with
  | init => exact absurd rfl hn
  | encrypt | decrypt => exact absurd (by decide) hi
  | wXor | wAnd | wShr1 | wInc | wEq => exact exec_wideInt_completes (by decide) h
  | gfMul => injection h with h; subst h; rfl
  | ghash =>
    rcases execGhash_cases h with ⟨hlong, -⟩ | ⟨-, rfl⟩
    · exact absurd hl hlong
    · rfl

/-- How a command other than INIT ends that is issued without a session and with lengths that fit. -/
theorem exec_issued_withoutSession (hi : i ≠ .init) (h : s.issued i) (hs : s.hw.session = .none) (hl : s.lengthsFit)
    (ht : exec i s = .next t) :
    t.hw.session = .none ∧ t = s.completedAs t.hw (if sessionOperation i then 0x07 else 0x00) 0 := by
  refine ⟨exec_keeps_noSession hi hs ht, ?_⟩
  by_cases hop : sessionOperation i
  · rw [exec_issued_none hop h hs] at ht
    injection ht with ht
    rw [if_pos hop, ← ht]
    rfl
  · rw [if_neg hop]
    exact exec_succeeds hop hi hl ht

/-- The state in which the controller finds the first command after a reset. -/
def State.resetAndIssued (s : State) (i : Instr) : State :=
  ((s.popMove.resetEvent.popMove.onHw fun h => h.issue (encode i)).respond .written).popMove

end First

end Sys2Proof.Machine
end

section
/-! The statements on the reset and the hazards (70_reset_and_hazards.md). -/

namespace Sys2Proof.Machine

/-- Settles O44: a gated address is the map's third fault, any other one is accepted (O43). -/
theorem busyGate : Obligations.BusyGate := by
  intro s a hb hal hm
  obtain ⟨faults, accepted⟩ := busErrors.1 s a
  refine ⟨fun hg => ?_, fun hu => ?_⟩
  · obtain ⟨hresp, hhw, -, write⟩ := faults (.gated a) (.inr (.inr ⟨hal, hm, hg, hb, rfl⟩))
    refine ⟨hresp, hhw, fun d => ?_⟩
    obtain ⟨hwresp, hwhw, -⟩ := write d
    exact ⟨hwresp, hwhw⟩
  · obtain ⟨hread, -, -, write⟩ := accepted ⟨hal, hm, .inl hu⟩
    exact ⟨hread, fun d => (write d).1⟩

/-- Settles O56: the reset event replaces the block but for its buffers. -/
theorem resetEvent : Obligations.ResetEvent := fun _ _ hm =>
  ⟨_, step_reset hm, fun _ => rfl, rfl, rfl, rfl, rfl, rfl, rfl, rfl, rfl, rfl, rfl, rfl, rfl, rfl, rfl⟩

/-- Settles O57: the three moves after the reset one by one; and that no INIT is to come is kept with the missing session by
every step. -/
theorem noSessionAfterReset : Obligations.NoSessionAfterReset := by
  refine ⟨fun s i hm hi => ?_, fun s hs hr hn m => ?_⟩
  · obtain ⟨t, ht⟩ := exec_total i (s.resetAndIssued i)
    have issued : (s.resetAndIssued i).issued i := ⟨runs_of rfl (decode_encode i), rfl⟩
    obtain ⟨noSession, done⟩ := exec_issued_withoutSession hi issued rfl ⟨Nat.zero_le _, Nat.zero_le _⟩ ht
    refine ⟨t, ?_, noSession, ?_⟩
    · rw [run_succ 2 (step_reset hm), run_succ 1 (step_issue (congrArg List.tail hm) rfl), run_succ 0 ?_, run_zero]
      rw [step_core (congrArg (fun ms => ms.tail.tail) hm)]
      exact (coreTurn_command rfl (decode_encode i)).trans ht
    · rw [done]
      exact ⟨rfl, rfl, rfl⟩
  · obtain ⟨t, ht, h⟩ := run_keeps step_keeps_staysWithoutSession m (s := s) ⟨hs, hr, hn⟩
    exact ⟨t, ht, h.noSession, fun i hi hx => exec_issued_none hi hx h.noSession⟩

/-- Settles O55: the reset block item by item. -/
theorem resetValues : Obligations.ResetValues := by
  have keyb := windowByte_replicate_zero 32
  have nonceb := windowByte_replicate_zero 12
  exact ⟨rfl, rfl, rfl, rfl, rfl, rfl, rfl, rfl, rfl, rfl, rfl, rfl, keyb, nonceb, rfl, rfl, rfl, rfl, keyb, rfl, rfl,
    rfl, rfl, rfl, rfl, rfl, rfl⟩

end Sys2Proof.Machine
end

section
/-! SUPPORT. Decode and encode undo each other (30_encoding.md R100, R103). -/

namespace Sys2Proof.Machine

/-- The opcode map is one to one. -/
theorem instrOfOpcode_eq_some_iff {op : BitVec 8} {i : Instr} : instrOfOpcode op = some i ↔ op = i.opcode := by
  constructor
  · intro h
    unfold instrOfOpcode at h
    split at h <;> cases h <;> rfl
  · rintro rfl
    cases i <;> rfl

/-- The two fields are the whole word. -/
theorem toWord_ofWord (w : Word) : (Cmd32.ofWord w).toWord = w := by
  apply BitVec.eq_of_getLsbD_eq
  intro i hi
  rw [Cmd32.toWord, Cmd32.ofWord, BitVec.getLsbD_append, BitVec.getLsbD_extractLsb', BitVec.getLsbD_extractLsb']
  split
  · next h => simp [h]
  · simp [show i - 8 < 24 by omega, show 8 + (i - 8) = i by omega]

/-- A word that decodes to a command is the command's word: no bit is dropped. -/
theorem eq_encode_of_decode {w : Word} {i : Instr} (h : decode w = .ok i) : w = encode i := by
  obtain ⟨hm, ho⟩ := decodeFields_eq_ok_iff.mp h
  rw [instrOfOpcode_eq_some_iff] at ho
  rw [← toWord_ofWord w, encode, ← hm, ← ho]

end Sys2Proof.Machine
end

section
/-! SUPPORT. Every step keeps the invariant: the reads, the commands of one step, and the controller's turn. -/

namespace Sys2Proof.Machine

section Invariant

variable {s t : State} {i : Instr} {w : Word} {k : Nat}

theorem State.Inv.popMove (I : s.Inv) : s.popMove.Inv := I.congr rfl rfl

theorem State.Inv.busRead (I : s.Inv) (a : Word) : (s.busRead a).Inv := by
  rcases busRead_cases s a with ⟨f, -, e⟩ | ⟨l, -, e⟩ <;> rw [e] <;> exact I.congr rfl rfl

/-- The power-on state is idle and cleared. -/
theorem inv_reset : State.reset.Inv := by
  apply State.Inv.ofIdle
  case hm => exact Memory.wf_nil
  case h2 => exact fun i _ => windowByte_replicate_zero 32 i
  all_goals simp [State.reset, HwState.atReset]

/-- GHASH writes one value to `GACC` and `RES`, and completes. -/
theorem ghashCommand_eq (h : HwState) : ∃ x, h.ghashCommand = HwState.finish { h with gacc := x, res := x } :=
  ⟨_, rfl⟩

/-- A completion with code 0 of a command that writes `RES`, `STATUS.EQ` or `GACC` only. -/
theorem State.Inv.finish (I : s.Inv) (hpend : s.hw.pend = none) (r : U128) (e : Bool) (g : U128) :
    (s.onHw fun h => HwState.finish { h with res := r, eq := e, gacc := g }).Inv :=
  I.completedAs 0 0 (by decide) nofun hpend _ rfl

/-- The commands without a request keep the invariant. -/
theorem State.Inv.exec_of_not_sessionOperation (I : s.Inv) (hpend : s.hw.pend = none) (hi : ¬ sessionOperation i)
    (h : exec i s = .next t) : t.Inv := by
  cases i with
  | encrypt | decrypt => exact absurd (by decide) hi
  | init => injection h with h; exact h ▸ I.initCommand hpend
  | ghash =>
    rcases execGhash_cases h with ⟨-, rfl⟩ | ⟨-, rfl⟩
    · exact I.complete 8 0 (by decide) nofun hpend
    · obtain ⟨x, hx⟩ := ghashCommand_eq s.hw
      rw [State.onHw, hx]
      exact I.finish hpend x s.hw.eq x
  | wXor | wAnd | wShr1 | wInc | gfMul => injection h with h; exact h ▸ I.finish hpend _ s.hw.eq s.hw.gacc
  | wEq => injection h with h; exact h ▸ I.finish hpend s.hw.res _ s.hw.gacc

/-- A step of the running command keeps the invariant. -/
theorem State.Inv.exec (I : s.Inv) (hp : s.hw.phase = .exec w k) (hd : decode w = .ok i) (h : exec i s = .next t) :
    t.Inv := by
  by_cases hi : sessionOperation i
  · rcases hi with rfl | rfl
    · exact I.encryptStep hp hd h
    · exact I.decryptStep hp hd h
  · have other : ∀ j, sessionOperation j → decode w ≠ .ok j := fun j hj e => by
      rw [hd] at e
      injection e with e
      exact hi (e ▸ hj)
    exact I.exec_of_not_sessionOperation (I.pend_none_of_other hp (other _ (.inl rfl)) (other _ (.inr rfl))) hi h

theorem State.Inv.coreTurn (I : s.Inv) (h : coreTurn s = .next t) : t.Inv := by
  rcases coreTurn_cases h with ⟨-, rfl⟩ | ⟨w, k, e, hp, hd, rfl⟩ | ⟨w, k, i, hp, hd, hx⟩
  · exact I
  · exact I.complete 9 0 (by decide) nofun (I.pend_none_of_other hp (by rw [hd]; nofun) (by rw [hd]; nofun))
  · exact I.exec hp hd hx

/-- Every move keeps the invariant. -/
theorem State.Inv.step (I : s.Inv) (h : step s = .next t) : t.Inv := by
  rcases step_cases h with ⟨a, ms, -, rfl⟩ | ⟨a, d, ms, -, rfl⟩ | ⟨ms, -, rfl⟩ | ⟨-, hc⟩
  · exact I.popMove.busRead a
  · exact I.popMove.busWrite a d
  · exact I.popMove.resetEvent
  · exact I.popMove.coreTurn hc

end Invariant

end Sys2Proof.Machine
end

section
/-! SUPPORT. The moves with the rest of the list as a variable (20_memory.md R70). -/

namespace Sys2Proof.Machine

section Moves

variable {s : State} {ms : List Move}

/-- The first move taken off a list that is known. -/
theorem popMove_of_cons {m : Move} (hm : s.env.moves = m :: ms) :
    s.popMove = { s with env := { s.env with moves := ms } } := by
  rw [State.popMove, hm]
  rfl

theorem step_nil (hm : s.env.moves = []) : step s = coreTurn s := by
  unfold step; rw [hm]

theorem step_read {a : Word} (hm : s.env.moves = .read a :: ms) : step s = .next (s.popMove.busRead a) := by
  unfold step; rw [hm]

theorem step_write {a d : Word} (hm : s.env.moves = .write a d :: ms) : step s = .next (s.popMove.busWrite a d) := by
  unfold step; rw [hm]

theorem coreTurn_idle (hp : s.hw.phase = .idle) : coreTurn s = .next s := by
  unfold coreTurn; rw [hp]

end Moves

end Sys2Proof.Machine
end

section
/-! SUPPORT. Words of the two input buffers on the bus (20_memory.md R78, R80). -/

namespace Sys2Proof.Machine

/-- The location `l` is the buffer word at address `a`. -/
structure Loc.IsWordAt (l : Loc) (a : Nat) : Prop where
  read  : ∀ s : State, s.readLoc l = memWord s.hw.mem a
  write : ∀ (h : HwState) (d : Word), h.writeLoc l d = h.store a (bytesOfWord d)

/-- An aligned word of `AADBUF` or `DATABUF` of an idle block is accepted there. -/
theorem busCheck_inputBuffer {s : State} {base size off : Nat}
    (hb : (base = aadBase ∧ size = s.par.maxAad) ∨ (base = dataBase ∧ size = s.par.maxData))
    (hidle : s.hw.busy = false) (hal : off % 4 = 0) (ho : off < size) :
    ∃ l : Loc, s.busCheck (BitVec.ofNat 32 (base + off)) = .ok l ∧ l.IsWordAt (base + off) := by
  have ha := maxAad_lt s.par
  have hd := maxData_lt s.par
  have accepted : ∀ l, base % 4 = 0 → base + off < 2 ^ 32 → locate s.par (base + off) = some l →
      s.busCheck (BitVec.ofNat 32 (base + off)) = .ok l := fun l hbase hlt hl => by
    have hn : (BitVec.ofNat 32 (base + off)).toNat = base + off := Nat.mod_eq_of_lt hlt
    exact busCheck_of (by rw [hn]; omega) (by rw [hn]; exact hl) fun _ => hidle
  rcases hb with ⟨rfl, rfl⟩ | ⟨rfl, rfl⟩
  · exact ⟨.aad off, accepted _ (by decide) (by simp only [aadBase]; omega) (locate_aadbuf s.par ho),
      fun _ => rfl, fun _ _ => rfl⟩
  · exact ⟨.data off, accepted _ (by decide) (by simp only [dataBase]; omega) (locate_databuf s.par ho),
      fun _ => rfl, fun _ _ => rfl⟩

/-- The bytes of a stored word. -/
theorem read_store_word {m : List Host.Cell} (h : Memory.wf m) (a : Nat) (d : Word) {b : Nat} (hb : b < 4) :
    Memory.read (memWrite m a (bytesOfWord d)) (a + b) = wordByte d b := by
  rw [memWrite_read h, bytesOfWord_length, if_pos ⟨by omega, by omega⟩, Nat.add_sub_cancel_left]
  interval_cases b <;> rfl

/-- A stored word is read back. -/
theorem memWord_store_word {m : List Host.Cell} (h : Memory.wf m) (a : Nat) (d : Word) :
    memWord (memWrite m a (bytesOfWord d)) a = d := by
  have h0 := read_store_word h a d (b := 0) (by decide)
  rw [Nat.add_zero] at h0
  rw [memWord, h0, read_store_word h a d (by decide), read_store_word h a d (by decide),
    read_store_word h a d (by decide)]
  exact wordOfBytes_wordByte d

end Sys2Proof.Machine
end

section
/-! SUPPORT. ENCRYPT and DECRYPT on the provider port (42_session.md R181 to R183). -/

namespace Sys2Proof.Machine

/-- The receipt of a response is the same in ENCRYPT and DECRYPT, but for the message length. -/
theorem exec_await {i : Instr} {s : State} {r : Request} (hi : sessionOperation i) (hr : s.hw.pend = some r) :
    exec i s = .next (s.awaitResponse r fun k v h => h.takeBlock (h.data (h.messageLen i)) k v) := by
  rcases hi with rfl | rfl
  · exact execEncrypt_await hr
  · exact execDecrypt_await hr

section Responses

variable {s : State} {rest : List Answer} (r : Request) (take : Nat → U128 → HwState → HwState)

theorem awaitResponse_nil (ha : s.prov.answers = []) : s.awaitResponse r take = s := by
  unfold State.awaitResponse; rw [ha]

theorem awaitResponse_ok (ha : s.prov.answers = .ok :: rest) :
    s.awaitResponse r take =
      { s with
        prov := { s.prov with answers := rest },
        hw := take s.hw.phase.responses (s.prov.value r) s.hw.received } := by
  unfold State.awaitResponse; rw [ha]

theorem awaitResponse_err {c : Word} (ha : s.prov.answers = .err c :: rest) :
    s.awaitResponse r take =
      { s with
        prov := { s.prov with answers := rest },
        hw := s.hw.received.raise .blockCipherError c } := by
  unfold State.awaitResponse; rw [ha]

end Responses

/-- What a step does on the port: nothing; or it takes the answer to the outstanding request; or, with none out, ENCRYPT or
DECRYPT sends one with the session key. -/
inductive PortStep (s t : State) : Prop where
  | unused (seen : t.prov.seen = s.prov.seen) (answers : t.prov.answers = s.prov.answers)
  | takes {r : Request} {a : Answer} (pend : s.hw.pend = some r) (seen : t.prov.seen = s.prov.seen)
      (answers : s.prov.answers = a :: t.prov.answers) (done : t.hw.pend = none)
  | sends {b : U128} (free : s.hw.pend = none) (pend : t.hw.pend = some (s.hw.request b))
      (seen : t.prov.seen = s.prov.seen ++ [s.hw.request b]) (answers : t.prov.answers = s.prov.answers)

section Port

variable {s t : State} {i : Instr}

theorem encrypt_portStep (h : exec .encrypt s = .next t) : PortStep s t := by
  rcases execEncrypt_cases h with ⟨r, -, -, rfl⟩ | ⟨r, rest, hr, ha, rfl⟩ | ⟨r, c, rest, hr, ha, rfl⟩ | ⟨hn, -, hb⟩ |
    ⟨hn, -, rfl⟩ | ⟨j, hn, -, -, rfl⟩ | ⟨j, -, -, -, rfl⟩
  · exact .unused rfl rfl
  · exact .takes hr rfl ha (HwState.takeBlock_pend ..)
  · exact .takes hr rfl ha rfl
  · rcases hb with ⟨-, rfl⟩ | ⟨-, rfl⟩ | ⟨-, -, rfl⟩ | ⟨-, -, rfl⟩
    · exact .unused rfl rfl
    · exact .unused rfl rfl
    · exact .unused rfl rfl
    · exact .sends hn rfl rfl rfl
  · exact .sends hn rfl rfl rfl
  · exact .sends hn rfl rfl rfl
  · exact .unused rfl rfl

theorem decrypt_portStep (h : exec .decrypt s = .next t) : PortStep s t := by
  rcases execDecrypt_cases h with ⟨r, -, -, rfl⟩ | ⟨r, rest, hr, ha, rfl⟩ | ⟨r, c, rest, hr, ha, rfl⟩ | ⟨hn, -, hb⟩ |
    ⟨hn, -, rfl⟩ | ⟨hn, -, hv⟩ | ⟨j, hn, -, -, rfl⟩ | ⟨j, -, -, -, rfl⟩
  · exact .unused rfl rfl
  · exact .takes hr rfl ha (HwState.takeBlock_pend ..)
  · exact .takes hr rfl ha rfl
  · rcases hb with ⟨-, rfl⟩ | ⟨-, rfl⟩ | ⟨-, -, rfl⟩ | ⟨-, -, -, rfl⟩ | ⟨-, -, -, rfl⟩
    · exact .unused rfl rfl
    · exact .unused rfl rfl
    · exact .unused rfl rfl
    · exact .unused rfl rfl
    · exact .sends hn rfl rfl rfl
  · exact .sends hn rfl rfl rfl
  · rcases hv with ⟨-, rfl⟩ | ⟨-, rfl⟩
    · exact .unused rfl rfl
    · exact .sends hn rfl rfl rfl
  · exact .sends hn rfl rfl rfl
  · exact .unused rfl rfl

theorem sessionOperation_portStep (hi : sessionOperation i) (h : exec i s = .next t) : PortStep s t := by
  rcases hi with rfl | rfl
  · exact encrypt_portStep h
  · exact decrypt_portStep h

/-- No command but ENCRYPT and DECRYPT uses the port. -/
theorem exec_prov_of_not_sessionOperation (hi : ¬ sessionOperation i) (h : exec i s = .next t) : t.prov = s.prov := by
  rw [exec_writes h]
  exact if_neg hi

/-- A step leaves the provider alone, or is a step of the running ENCRYPT or DECRYPT. -/
theorem step_prov_cases (h : step s = .next t) :
    t.prov = s.prov ∨ ∃ i k, sessionOperation i ∧ s.hw.runs i k ∧ exec i s.popMove = .next t := by
  rcases step_cases h with ⟨a, ms, -, rfl⟩ | ⟨a, d, ms, -, rfl⟩ | ⟨ms, -, rfl⟩ | ⟨-, hc⟩
  · rcases busRead_cases s.popMove a with ⟨f, -, e⟩ | ⟨l, -, e⟩ <;> rw [e] <;> exact .inl rfl
  · rcases busWrite_cases s.popMove a d with ⟨f, -, e⟩ | ⟨l, -, e⟩ <;> rw [e] <;> exact .inl rfl
  · exact .inl rfl
  · rcases coreTurn_cases hc with ⟨-, rfl⟩ | ⟨w, k, e, -, -, rfl⟩ | ⟨w, k, i, hp, hd, hx⟩
    · exact .inl rfl
    · exact .inl rfl
    · by_cases hi : sessionOperation i
      · exact .inr ⟨i, k, hi, runs_of hp hd, hx⟩
      · exact .inl (exec_prov_of_not_sessionOperation (s := s.popMove) hi hx)

end Port

end Sys2Proof.Machine
end

section
/-! SUPPORT. The steps of ENCRYPT and DECRYPT, each with its next state written out (42_session.md R181, R196, R202, R210). -/

namespace Sys2Proof.Machine

section Steps

variable {i : Instr} {s : State} {w : Word} {k : Nat}

/-! ### The check for the tag's length -/

/-- DECRYPT rejects a message too short for a tag after the length check. -/
theorem decryptBegin_short (hs : s.hw.session = .fresh) (hl : s.lengthsFit) (hd : s.hw.dataLen.toNat < 16) :
    s.decryptBegin = s.completedAs s.hw.claimed 0x03 0 := by
  unfold State.decryptBegin
  rw [hs]
  simp only [(lengthsTooLong_eq_false_iff s).mpr hl]
  exact if_pos hd

/-! ### A request goes out -/

/-- The first request, once the session is claimed. -/
theorem exec_issued_ready (hi : sessionOperation i) (h : s.issued i) (hs : s.hw.session = .fresh) (hl : s.lengthsFit)
    (hd : i = .decrypt → 16 ≤ s.hw.dataLen.toNat) : exec i s = .next (s.requested s.hw.claimed 0) := by
  obtain ⟨⟨w, hp, -⟩, hn⟩ := h
  rcases hi with rfl | rfl
  · rw [execEncrypt_advance hp hn, State.encryptAdvance, encryptBegin_fresh hs hl]
  · rw [execDecrypt_advance hp hn, State.decryptAdvance, decryptBegin_fresh hs hl (hd rfl)]

/-- The second request is for `E(CTR)`. -/
theorem exec_requests_ctr (hi : sessionOperation i) (hp : s.hw.phase = .exec w 1) (hn : s.hw.pend = none) :
    exec i s = .next (s.requested s.hw s.hw.ctr) := by
  rcases hi with rfl | rfl
  · exact execEncrypt_advance hp hn
  · exact execDecrypt_advance hp hn

/-- A keystream request is for the incremented counter. -/
theorem requestKeystream_eq (s : State) :
    s.requestKeystream = s.requested { s.hw with ctr := s.hw.ctr + 1 } (s.hw.ctr + 1) := rfl

theorem execEncrypt_requestsKeystream {j : Nat} (hp : s.hw.phase = .exec w (j + 2)) (hn : s.hw.pend = none)
    (hj : j < blockCount s.hw.dataLen.toNat) : exec .encrypt s = .next s.requestKeystream := by
  rw [execEncrypt_advance hp hn, encryptAdvance_request hj]

/-! ### The last step of ENCRYPT -/

/-- What the last step of ENCRYPT computes: the hash over AAD and ciphertext, the tag behind the ciphertext, the output. -/
theorem encryptFinish_completes (s : State) :
    s.onHw HwState.encryptFinish =
      s.completedAs
        { s.hw with
          gacc := ghash s.hw.hsub s.hw.aad (s.hw.outBytes s.hw.dataLen.toNat),
          mem := memWrite s.hw.mem (outBase + s.hw.dataLen.toNat)
            (ser128 (ghash s.hw.hsub s.hw.aad (s.hw.outBytes s.hw.dataLen.toNat) ^^^ s.hw.eky0)),
          outLen := s.hw.dataLen + 16, outValid := true } 0 0 := by
  simp only [State.onHw, State.completedAs, HwState.encryptFinish, HwState.hashOutput, HwState.hash, HwState.storeTag,
    HwState.store, HwState.showOutput, HwState.finish, HwState.complete]

/-! ### The tag decision of DECRYPT -/

/-- The tags differ exactly when the expected tag, of the hash over the buffers, is not the given one (R214). -/
theorem tagDiff_hashForTag_eq_zero_iff (h : HwState) :
    h.hashForTag.tagDiff = 0 ↔ ghash h.hsub h.aad (h.data h.cipherLen) ^^^ h.eky0 = h.givenTag h.cipherLen :=
  ctDiff_eq_zero_iff _ _

theorem verifyTag_bad
    (h : ghash s.hw.hsub s.hw.aad (s.hw.data s.hw.cipherLen) ^^^ s.hw.eky0 ≠ s.hw.givenTag s.hw.cipherLen) :
    s.verifyTag = s.completedAs { s.hw with gacc := ghash s.hw.hsub s.hw.aad (s.hw.data s.hw.cipherLen) } 0x06 0 :=
  if_pos (mt (tagDiff_hashForTag_eq_zero_iff s.hw).mp h)

theorem verifyTag_good
    (h : ghash s.hw.hsub s.hw.aad (s.hw.data s.hw.cipherLen) ^^^ s.hw.eky0 = s.hw.givenTag s.hw.cipherLen) :
    s.verifyTag =
      s.requested { s.hw with gacc := ghash s.hw.hsub s.hw.aad (s.hw.data s.hw.cipherLen), ctr := s.hw.ctr + 1 }
        (s.hw.ctr + 1) :=
  if_neg (not_not_intro ((tagDiff_hashForTag_eq_zero_iff s.hw).mpr h))

/-! ### A response comes in -/

/-- The block is taken as `HSUB`, as `EKY0`, or for the XOR with message block `k - 2`. -/
theorem takeBlock_eq (h : HwState) (msg : List Byte) (k : Nat) (v : U128) :
    h.takeBlock msg k v =
      if k = 0 then { h with hsub := v }
      else if k = 1 then { h with eky0 := v }
      else h.store (outBase + 16 * (k - 2))
        ((ser128 (blockAt (pad msg) (k - 2) ^^^ v)).take (min 16 (msg.length - 16 * (k - 2)))) := by
  match k with
  | 0 | 1 | j + 2 => rfl

theorem received_eq {h : HwState} (hp : h.phase = .exec w k) :
    h.received = { h with pend := none, phase := .exec w (k + 1) } := by
  rw [HwState.received, hp]
  rfl

/-- The block of an `ok` response is taken according to the position. -/
theorem exec_takes {r : Request} {rest : List Answer} (hi : sessionOperation i) (hp : s.hw.phase = .exec w k)
    (hr : s.hw.pend = some r) (ha : s.prov.answers = .ok :: rest) :
    exec i s =
      .next { s with
        prov := { s.prov with answers := rest },
        hw := HwState.takeBlock { s.hw with pend := none, phase := .exec w (k + 1) } (s.hw.data (s.hw.messageLen i)) k
          (s.prov.value r) } := by
  have hk : s.hw.phase.responses = k := by rw [hp]; rfl
  rw [exec_await hi hr, awaitResponse_ok _ _ ha, hk, received_eq hp]
  rfl

/-- An `err` response ends the command, and no request is out. -/
theorem exec_fails {r : Request} {c : Word} {rest : List Answer} (hi : sessionOperation i) (hr : s.hw.pend = some r)
    (ha : s.prov.answers = .err c :: rest) :
    exec i s =
      .next ({ s with prov := { s.prov with answers := rest } }.completedAs { s.hw with pend := none } 0x05 c) := by
  rw [exec_await hi hr, awaitResponse_err _ _ ha]
  rfl

end Steps

end Sys2Proof.Machine
end

section
/-! SUPPORT. ENCRYPT and DECRYPT up to any of their requests, and the failure of that request (42_session.md R198, R200, R215). -/

namespace Sys2Proof.Machine

/-! ### The requests so far -/

/-- The first `j + 2` requests of a longer sequence are those of `j` keystream blocks. -/
theorem requestBlocks_take {j m : Nat} (c : U128) (h : j ≤ m) : (requestBlocks c m).take (j + 2) = requestBlocks c j := by
  rw [requestBlocks, requestBlocks, List.take_succ_cons, ← List.map_take, List.take_range, Nat.min_eq_left (by omega)]

/-- The bytes outside the message's place in `OUTBUF` are kept by the keystream blocks. -/
theorem memAfter_read_other {m : List Host.Cell} (h : Memory.wf m) (msg : List Byte) (ks : Nat → U128) {j : Nat}
    (hj : j ≤ msg.length / 16 + 1) {a : Nat} (ha : a < outBase ∨ outBase + msg.length ≤ a) :
    Memory.read (memAfter m msg ks j) a = Memory.read m a := by
  rw [memAfter_read h msg ks j hj, if_neg (by omega)]

/-! ### A command that waits for the answer to request j + 1 -/

/-- In `p` the command of word `w`, started in `s` on a message of n bytes, waits for the answer to its request j + 1. -/
structure AwaitsAnswer (s p : State) (w : Word) (n j : Nat) : Prop where
  frame      : CommandFrame s p
  phase      : p.hw.phase = .exec w j
  pend       : ∃ r, p.hw.pend = some r
  session    : p.hw.session = .used
  outValid   : p.hw.outValid = false
  outLen     : p.hw.outLen = 0
  ctr        : p.hw.ctr = counterAfter s.hw.ctr (j - 1)
  requests   : p.prov.seen = s.prov.seen ++ ((requestBlocks s.hw.ctr (blockCount n)).take (j + 1)).map s.hw.request
  answers    : p.prov.answers = s.prov.answers.drop j
  otherBytes : ∀ a, a < outBase ∨ outBase + n ≤ a → Memory.read p.hw.mem a = Memory.read s.hw.mem a

section Waits

variable {i : Instr} {s : State} {w : Word} {n : Nat} {rest : List Answer}

/-- With no move to come, one step of the running command. -/
theorem run_exec {t : State} {k : Nat} (m : Nat) (hm : s.env.moves = []) (hp : s.hw.phase = .exec w k)
    (hd : decode w = .ok i) (h : exec i s = .next t) : core.run (m + 1) s = core.run m t :=
  run_succ m ((step_quiet hm hp hd).trans h)

/-- The state at the first request. -/
def State.asksSubkey (s : State) : State := s.quiet.requested s.hw.claimed 0

theorem run_asksSubkey (hi : sessionOperation i) (R : s.ReadyFor i n) (hp : s.hw.phase = .exec w 0) (hd : decode w = .ok i)
    (m : Nat) : core.run (m + 1) s.quiet = core.run m s.asksSubkey :=
  run_exec (s := s.quiet) m rfl hp hd (exec_issued_ready (s := s.quiet) hi R.issued R.fresh R.lengths R.short)

theorem asksSubkey_awaits (hp : s.hw.phase = .exec w 0) : AwaitsAnswer s s.asksSubkey w n 0 where
  frame := ⟨rfl, rfl, rfl, rfl, rfl, rfl, rfl, rfl, rfl, rfl, rfl, rfl, rfl, rfl⟩
  phase := hp
  pend := ⟨_, rfl⟩
  session := rfl
  outValid := rfl
  outLen := rfl
  ctr := (counterAfter_zero _).symm
  requests := rfl
  answers := rfl
  otherBytes _ _ := rfl

/-- The state at the second request. -/
def State.asksTagMask (s : State) (w : Word) (rest : List Answer) : State :=
  let u : State :=
    { s.asksSubkey with
      prov := { s.asksSubkey.prov with answers := rest },
      hw := { s.asksSubkey.hw with pend := none, phase := .exec w 1, hsub := s.subkey } }
  u.requested u.hw u.hw.ctr

theorem run_asksTagMask (hi : sessionOperation i) (R : s.ReadyFor i n) (hp : s.hw.phase = .exec w 0) (hd : decode w = .ok i)
    (ha : s.prov.answers = .ok :: rest) : core.run 3 s.quiet = .next (s.asksTagMask w rest) := by
  rw [run_asksSubkey hi R hp hd 2,
    run_exec (s := s.asksSubkey) 1 rfl hp hd (exec_takes (s := s.asksSubkey) hi hp rfl ha),
    run_exec 0 rfl rfl hd (exec_requests_ctr hi rfl rfl), run_zero]
  rfl

theorem asksTagMask_awaits (ha : s.prov.answers = .ok :: rest) : AwaitsAnswer s (s.asksTagMask w rest) w n 1 where
  frame := ⟨rfl, rfl, rfl, rfl, rfl, rfl, rfl, rfl, rfl, rfl, rfl, rfl, rfl, rfl⟩
  phase := rfl
  pend := ⟨_, rfl⟩
  session := rfl
  outValid := rfl
  outLen := rfl
  ctr := (counterAfter_zero _).symm
  requests := by
    rw [requestBlocks_take _ (Nat.zero_le _)]
    show (s.prov.seen ++ [s.hw.request 0]) ++ [s.hw.request s.hw.ctr] = _
    rw [List.append_assoc, requestBlocks, List.range_one, List.map_singleton, counterAfter_zero]
    rfl
  answers := by rw [ha]; rfl
  otherBytes _ _ := rfl

theorem waiting_awaits {msg : List Byte} {g : U128} {j : Nat} (h : Memory.wf s.hw.mem) (hn : msg.length = n)
    (hj : j < blockCount n) (ha : rest = s.prov.answers.drop (j + 2)) :
    AwaitsAnswer s (waiting s.quiet w msg g rest j) w n (j + 2) := by
  rw [waiting_eq]
  exact {
    frame := ⟨rfl, rfl, rfl, rfl, rfl, rfl, rfl, rfl, rfl, rfl, rfl, rfl, rfl, rfl⟩
    phase := rfl
    pend := ⟨_, rfl⟩
    session := rfl
    outValid := rfl
    outLen := rfl
    ctr := rfl
    requests := by rw [requestBlocks_take _ (Nat.succ_le_of_lt hj)]; rfl
    answers := ha
    otherBytes := fun a hout => memAfter_read_other h msg _ (by rw [hn]; exact hj.le) (hn ▸ hout) }

/-- ENCRYPT from the first two responses to the request for keystream block j. -/
theorem run_encrypt_waiting {j : Nat} (R : s.ReadyFor .encrypt n) (hp : s.hw.phase = .exec w 0)
    (hd : decode w = .ok .encrypt) (hj : j < blockCount n) (ha : s.prov.answers = List.replicate (j + 2) .ok ++ rest) :
    core.run (2 * (j + 2) + 1) s.quiet = .next (waiting s.quiet w (s.hw.data n) s.hw.gacc rest j) := by
  obtain rfl : n = s.hw.dataLen.toNat := R.message
  have pairs := enc_pairs (s := s.quiet) (g := s.hw.gacc) (rest := rest) rfl hd R.canonical R.lengths j hj.le
  rw [show 2 * (j + 2) + 1 = 4 + (2 * j + 1) by omega, run_add _ _ (run_first_four (.inl rfl) R hp hd ha _)]
  exact (run_add (2 * j) 1 pairs).trans
    (run_exec 0 rfl (mid_phase ..) hd (execEncrypt_requestsKeystream (mid_phase ..) rfl hj))

/-- DECRYPT with a good tag, from the first two responses to the request for keystream block j. -/
theorem run_decrypt_waiting {j : Nat} (R : s.ReadyFor .decrypt n) (hp : s.hw.phase = .exec w 0)
    (hd : decode w = .ok .decrypt) (htag : s.hw.givenTag n = s.tagOf (s.hw.data n)) (hj : j < blockCount n)
    (ha : s.prov.answers = List.replicate (j + 2) .ok ++ rest) :
    core.run (2 * (j + 2) + 1) s.quiet = .next (waiting s.quiet w (s.hw.data n) (decryptHash s) rest j) := by
  obtain rfl : n = s.hw.cipherLen := R.message
  rw [show 2 * (j + 2) + 1 = 4 + (2 * j + 1) by omega, run_add _ _ (run_first_four (.inr rfl) R hp hd ha _),
    run_succ _ ((step_verify hd _).trans (if_pos htag))]
  cases j with
  | zero => rfl
  | succ j =>
    have pairs := dec_pairs (s := s.quiet) (g := decryptHash s) (rest := rest) rfl hd R.canonical R.lengths j
      (Nat.lt_of_succ_lt hj)
    exact (run_add (2 * j + 1) 1 pairs).trans (run_succ 0 (dec_send (s := s.quiet) rfl hd hj))

/-- The controller alone, up to request j + 1. -/
theorem exists_awaitsAnswer {j : Nat} (hi : sessionOperation i) (R : s.ReadyFor i n) (hp : s.hw.phase = .exec w 0)
    (hd : decode w = .ok i) (hj : j < blockCount n + 2) (ha : s.prov.answers = List.replicate j .ok ++ rest)
    (htag : i = .decrypt → 2 ≤ j → s.hw.givenTag n = s.tagOf (s.hw.data n)) :
    ∃ p, core.run (2 * j + 1) s.quiet = .next p ∧ AwaitsAnswer s p w n j := by
  match j with
  | 0 => exact ⟨_, run_asksSubkey hi R hp hd 0, asksSubkey_awaits hp⟩
  | 1 => exact ⟨_, run_asksTagMask hi R hp hd ha, asksTagMask_awaits ha⟩
  | j + 2 =>
    have hj : j < blockCount n := by omega
    have hrest : rest = s.prov.answers.drop (j + 2) := by rw [ha, List.drop_left' List.length_replicate]
    have awaits : ∀ g, AwaitsAnswer s (waiting s.quiet w (s.hw.data n) g rest j) w n (j + 2) := fun g =>
      waiting_awaits R.canonical (memRead_length ..) hj hrest
    rcases hi with rfl | rfl
    · exact ⟨_, run_encrypt_waiting R hp hd hj ha, awaits _⟩
    · exact ⟨_, run_decrypt_waiting R hp hd (htag rfl (by omega)) hj ha, awaits _⟩

end Waits

/-- The outcome of a failed request, from what the turn that takes the error leaves. -/
theorem providerFailed_of_last {s p u : State} {w : Word} {n j : Nat} {code : Word} {rest : List Answer}
    (A : AwaitsAnswer s p w n j)
    (hu : u = State.withHost
      ({ p with prov := { p.prov with answers := rest } }.completedAs { p.hw with pend := none } 0x05 code)
      u.hw.irqEn true u.env) : ProviderFailed s u n j code := by
  rw [hu]
  exact {
    ended := ⟨rfl, rfl, rfl, rfl, rfl, rfl, A.session⟩
    frame := A.frame.trans ⟨rfl, rfl, rfl, rfl, rfl, rfl, rfl, rfl, rfl, rfl, rfl, rfl, rfl, rfl⟩
    outValid := A.outValid
    outLen := A.outLen
    ctr := A.ctr
    requests := A.requests
    otherBytes := A.otherBytes }

end Sys2Proof.Machine
end

section
/-! The statements on the command words, the moves, the buffers, the session operations step by step, and the invariant
(30_encoding.md; 20_memory.md; 42_session.md; 10_state.md). -/

namespace Sys2Proof.Machine

/-- Settles O2: the fields of a word are the whole word, and the opcode map is one to one. -/
theorem wordMeansOneCommand : Obligations.WordMeansOneCommand := fun _ i =>
  ⟨eq_encode_of_decode, fun h => h ▸ decode_encode i⟩

/-- Settles O1: each word is the encoding of its command. -/
theorem specWordsDecode : Obligations.SpecWordsDecode :=
  ⟨decode_encode .init, decode_encode .encrypt, decode_encode .decrypt, decode_encode .wXor, decode_encode .wAnd,
    decode_encode .wShr1, decode_encode .wInc, decode_encode .wEq, decode_encode .gfMul, decode_encode .ghash⟩

/-- Settles O6: a step makes the first move of the list, or the controller's turn. -/
theorem stepMakesTheNextMove : Obligations.StepMakesTheNextMove := by
  refine fun s ms => ⟨fun hm => ?_, fun hm => ?_, fun a hm => ?_, fun a d hm => ?_⟩
  · rw [step_nil hm]
    exact ⟨rfl, fun w k i => coreTurn_command, fun w k => coreTurn_illegal, coreTurn_idle⟩
  · intro u
    have hu : step s = coreTurn u := by rw [step_core hm, popMove_of_cons hm]
    rw [hu]
    exact ⟨rfl, fun w k i => coreTurn_command (s := u), fun w k => coreTurn_illegal (s := u), coreTurn_idle (s := u)⟩
  · rw [step_read hm, popMove_of_cons hm]
  · rw [step_write hm, popMove_of_cons hm]

/-- Settles O47: the word's location in either buffer stores its four bytes and reads them. -/
theorem bufferWords : Obligations.BufferWords := by
  intro s base size off d hbase hidle hwf hal ho
  obtain ⟨l, hl, hread, hwrite⟩ := busCheck_inputBuffer hbase hidle hal ho
  have hmem : (s.afterWrite (base + off) d).hw.mem = memWrite s.hw.mem (base + off) (bytesOfWord d) := by
    rw [State.afterWrite, busWrite_of hl, State.respond_hw, State.onHw_hw, hwrite, HwState.store_mem]
  have hstill : (s.afterWrite (base + off) d).busCheck (BitVec.ofNat 32 (base + off)) = .ok l := by
    rw [← hl, State.afterWrite, busWrite_of hl, State.busCheck, State.busCheck, State.respond_hw, State.onHw_hw, hwrite]
    rfl
  refine ⟨fun b hb => ?_, fun a ha => ?_, ?_⟩
  · rw [hmem]
    exact read_store_word hwf _ d hb
  · rw [hmem]
    exact memWrite_read_outside _ _ _ ha
  · rw [State.readResp, busRead_of hstill, State.respond_resp, hread, hmem, memWord_store_word hwf]

/-- Settles O35: a step uses the port only where it is one of ENCRYPT or DECRYPT, which sends with no request out. -/
theorem requestsCarryTheSessionKey : Obligations.RequestsCarryTheSessionKey := by
  intro s t h
  rcases step_prov_cases h with e | ⟨i, k, hi, hr, hx⟩
  · rw [e]
    exact ⟨.inl rfl, .inl rfl, rfl⟩
  · have hknown : t.prov.known = s.prov.known := (exec_commandFrame hi hx).known
    rcases sessionOperation_portStep hi hx with ⟨seen, answers⟩ | ⟨pend, seen, answers, done⟩ |
      ⟨free, pend, seen, answers⟩
    · exact ⟨.inl seen, .inl answers, hknown⟩
    · exact ⟨.inl seen, .inr ⟨_, _, pend, answers, done⟩, hknown⟩
    · exact ⟨.inr ⟨i, k, _, hi, hr, free, pend, seen⟩, .inl answers, hknown⟩

/-- Settles O21: the session is checked first; then the lengths, and only then that a tag fits. -/
theorem rejectedSessionOperations : Obligations.RejectedSessionOperations := by
  refine ⟨fun i s hi h => ⟨exec_issued_none hi h, exec_issued_used hi h⟩, fun s h hs hl hd => ?_⟩
  obtain ⟨⟨w, hp, -⟩, hn⟩ := h
  rw [execDecrypt_advance hp hn, State.decryptAdvance, decryptBegin_short hs hl hd]
  rfl

/-- Settles O23: the position decides which request goes out; after the last keystream block the command completes. -/
theorem encryptController : Obligations.EncryptController := by
  intro s k hr hn n g
  have ⟨w, hp, _⟩ := hr
  refine ⟨?_, ?_, fun h2 hk => ?_, ?_⟩
  · rintro rfl hs hl
    exact exec_issued_ready (.inl rfl) ⟨hr, hn⟩ hs hl nofun
  · rintro rfl
    exact exec_requests_ctr (.inl rfl) hp hn
  · obtain ⟨j, rfl⟩ := Nat.exists_eq_add_of_le' h2
    rw [execEncrypt_requestsKeystream hp hn (by simp only [blockCount]; omega), requestKeystream_eq]
  · rintro rfl
    have hlast : s.encryptAdvance (blockCount n + 2) = _ := encryptAdvance_finish (Nat.le_refl _)
    exact (execEncrypt_advance hp hn).trans (congrArg _ (hlast.trans (encryptFinish_completes s)))

/-- Settles O24: as O23, with the tag decision at position 2. -/
theorem decryptController : Obligations.DecryptController := by
  intro s k hr hn n g given
  have ⟨w, hp, _⟩ := hr
  refine ⟨?_, ?_, ?_, ?_, fun h3 hk => ?_, ?_⟩
  · rintro rfl hs hl h16
    exact exec_issued_ready (.inr rfl) ⟨hr, hn⟩ hs hl fun _ => h16
  · rintro rfl
    exact exec_requests_ctr (.inr rfl) hp hn
  · rintro rfl hbad
    rw [execDecrypt_advance hp hn, State.decryptAdvance, verifyTag_bad hbad]
    rfl
  · rintro rfl hgood
    rw [execDecrypt_advance hp hn, State.decryptAdvance, verifyTag_good hgood]
    rfl
  · obtain ⟨j, rfl⟩ := Nat.exists_eq_add_of_le' h3
    rw [execDecrypt_advance hp hn, decryptAdvance_request (by simp only [blockCount, HwState.cipherLen]; omega),
      requestKeystream_eq]
  · rintro rfl
    exact (execDecrypt_advance hp hn).trans (congrArg _ (decryptAdvance_finish (i := n / 16) (Nat.le_refl _)))

/-- Settles O25: the three answers that the port can give. -/
theorem providerResponse : Obligations.ProviderResponse := by
  intro i s w k r rest hi hp hd hr v received msg
  refine ⟨fun ha => ?_, fun ha => ?_, fun code ha => exec_fails hi hr ha⟩
  · rw [exec_await hi hr, awaitResponse_nil _ _ ha]
  · rw [exec_takes hi hp hr ha, takeBlock_eq, HwState.data, memRead_length]
    rfl

/-- Settles O30: the controller alone runs up to request j + 1, and its next turn takes the error. -/
theorem providerFailureEndsTheCommand : Obligations.ProviderFailureEndsTheCommand := by
  intro i s n j N code rest hi R hj ha htag W
  obtain ⟨⟨w, hp, hd⟩, -⟩ := R.issued
  obtain ⟨p, hrun, A⟩ := exists_awaitsAnswer hi R hp hd hj ha htag
  obtain ⟨r, hr⟩ := A.pend
  have hfail : p.prov.answers = .err code :: rest := by
    rw [A.answers, ha, List.drop_left' List.length_replicate]
  obtain ⟨u, hu, hwait, he⟩ := run_waits (c := 2 * j + 1) W hrun (by rw [A.phase]; exact nofun)
    ((coreTurn_command A.phase hd).trans (exec_fails hi hr hfail)) rfl
  exact ⟨u, hu, providerFailed_of_last A he, hwait⟩

/-- Settles O58: the block is idle and every register cleared. -/
theorem resetMeetsInvariant : Obligations.ResetMeetsInvariant := inv_reset

/-- Settles O59: a step is a bus transaction, the reset event, or the controller's turn, and each keeps the invariant. -/
theorem stepKeepsInvariant : Obligations.StepKeepsInvariant := ⟨step_total, fun _ _ I h => I.step h⟩

end Sys2Proof.Machine
end
